-- ==== Sys2Proof/Word.lean ====
section
/-! DEFINITION. The widths of the block's words, and the two fixed families of six like things
(tracks and slot classes). -/

namespace Sys2Proof

/-- A byte of a wire command, a frame or a pin sample (00_scope.md R6). -/
abbrev Byte := BitVec 8

/-- A 16-bit quantity: a tick, an envelope value, a frequency, a flash word. -/
abbrev Word16 := BitVec 16

/-- A value of the free-running microsecond counter, 64 bits (10_state.md R35). -/
abbrev Time := BitVec 64

/-- The byte whose high two bits are `cls` and low six bits `low` (30_encoding.md R80). -/
def commandByte (cls : BitVec 2) (low : BitVec 6) : Byte := cls ++ low

/-- The six tracks in the order of 10_state.md R29. -/
inductive Track where
  | volume | pan | frequency | duty | cutoff | resonance
  deriving DecidableEq, Repr

/-- Tracks in ascending `k` (R29, R141). -/
def Track.all : List Track := [.volume, .pan, .frequency, .duty, .cutoff, .resonance]

/-- One value per track. -/
structure PerTrack (α : Type) where
  volume : α
  pan : α
  frequency : α
  duty : α
  cutoff : α
  resonance : α
  deriving DecidableEq, Repr

def PerTrack.all {α : Type} (a : α) : PerTrack α := ⟨a, a, a, a, a, a⟩

def PerTrack.get {α : Type} (v : PerTrack α) : Track → α
  | .volume => v.volume
  | .pan => v.pan
  | .frequency => v.frequency
  | .duty => v.duty
  | .cutoff => v.cutoff
  | .resonance => v.resonance

def PerTrack.set {α : Type} (v : PerTrack α) (k : Track) (a : α) : PerTrack α :=
  match k with
  | .volume => { v with volume := a }
  | .pan => { v with pan := a }
  | .frequency => { v with frequency := a }
  | .duty => { v with duty := a }
  | .cutoff => { v with cutoff := a }
  | .resonance => { v with resonance := a }

/-- The six slot classes of the Command Queue, in the order of 10_state.md R31. -/
inductive SlotClass where
  | wave | freq | vol | alpha | beta | gamma
  deriving DecidableEq, Repr

/-- Slot classes in ascending `s`, the order of the flush (43_flush_and_transport.md R190). -/
def SlotClass.all : List SlotClass := [.wave, .freq, .vol, .alpha, .beta, .gamma]

/-- One value per slot class. -/
structure PerClass (α : Type) where
  wave : α
  freq : α
  vol : α
  alpha : α
  beta : α
  gamma : α
  deriving DecidableEq, Repr

def PerClass.all {α : Type} (a : α) : PerClass α := ⟨a, a, a, a, a, a⟩

def PerClass.get {α : Type} (v : PerClass α) : SlotClass → α
  | .wave => v.wave
  | .freq => v.freq
  | .vol => v.vol
  | .alpha => v.alpha
  | .beta => v.beta
  | .gamma => v.gamma

def PerClass.set {α : Type} (v : PerClass α) (k : SlotClass) (a : α) : PerClass α :=
  match k with
  | .wave => { v with wave := a }
  | .freq => { v with freq := a }
  | .vol => { v with vol := a }
  | .alpha => { v with alpha := a }
  | .beta => { v with beta := a }
  | .gamma => { v with gamma := a }

end Sys2Proof
end

