-- ==== Sys2Proof/Syntax.lean ====
section
/-! DEFINITION. The operands the operations carry (wave types, Patches, word buffers) and the one
inductive `Instr`, one constructor per row of spec/opcode_table.json. -/

namespace Sys2Proof

/-- The nine wave types, in the listing order of 10_state.md R22. -/
inductive WaveType where
  | none | sine | triangle | sawtooth | reverseSawtooth | square | noise | custom | pitchedNoise
  deriving DecidableEq, Repr

/-- The nine wave types in order (R22). -/
def WaveType.all : List WaveType :=
  [.none, .sine, .triangle, .sawtooth, .reverseSawtooth, .square, .noise, .custom, .pitchedNoise]

/-- An envelope point: `x` the tick, unsigned, `y` the value, signed (10_state.md R28, D5). -/
structure Point where
  x : Word16
  y : Word16
  deriving DecidableEq, Repr

/-- An Envelope record (10_state.md R28). The three index fields hold 0xFF for "none"; every value
from 12 up acts like it. -/
structure Envelope where
  npoints : Byte
  pt : Vector Point 12
  sustainIndex : Byte
  loopStart : Byte
  loopEnd : Byte
  deriving DecidableEq, Repr

/-- A Patch record (10_state.md R27). `detune` is read as a signed byte, -128..127 (D44). -/
structure Patch where
  env : PerTrack Envelope
  waveType : WaveType
  linkedInstrument : Fin 128
  detune : BitVec 8
  deriving DecidableEq, Repr

/-- An envelope with no points and no marks. -/
def Envelope.empty : Envelope :=
  { npoints := 0, pt := Vector.replicate 12 ⟨0, 0⟩, sustainIndex := 0xFF, loopStart := 0xFF,
    loopEnd := 0xFF }

/-- A Patch with six empty envelopes (the `patch{wave=w}` of 30_encoding.md R97). -/
def Patch.ofWave (w : WaveType) : Patch :=
  { env := PerTrack.all Envelope.empty, waveType := w, linkedInstrument := 0, detune := 0 }

/-- The record whose every field is zero: the zero operand of PLOAD. -/
def Patch.zero : Patch :=
  { env := PerTrack.all { npoints := 0, pt := Vector.replicate 12 ⟨0, 0⟩, sustainIndex := 0,
                          loopStart := 0, loopEnd := 0 },
    waveType := .none, linkedInstrument := 0, detune := 0 }

/-- REPROG's word buffer, a total function from word address to word (44_system_sequences.md R221),
held as the list of its nonzero words: addresses strictly rising, unlisted addresses read zero
(log 24). -/
abbrev WordBuf := List (Nat × Word16)

/-- An extent `(lo, hi)` of word addresses, `hi` excluded (R221). -/
abbrev Extent := Nat × Nat

/-- One constructor per row of spec/opcode_table.json. Operands of the operations are typed values
whose domains the operation itself checks (30_encoding.md R92, R93; log 7). -/
inductive Instr where
  /-- TICK now (41_envelope_engine.md R140). -/
  | tick (now : Time)
  /-- PLOAD i, P (40_host_operations.md R110). -/
  | pload (i : Nat) (p : Patch)
  /-- SETDUAL b (R111). -/
  | setDual (b : Int)
  /-- TRIG c, i (R112). -/
  | trig (c i : Nat)
  /-- REL c (R113). -/
  | rel (c : Nat)
  /-- CLRI c (R114). -/
  | clri (c : Nat)
  /-- FADE c, init, len, dir, now (R115). -/
  | fade (c : Nat) (init : ℚ) (len dir : Int) (now : Time)
  /-- SETWAVE c, w (R116). -/
  | setWave (c : Nat) (w : WaveType)
  /-- SETDUTY c, d (R117). -/
  | setDuty (c : Nat) (d : ℚ)
  /-- SETFREQ c, f (R118). -/
  | setFreq (c : Nat) (f : Int)
  /-- SETAMP c, a (R119). -/
  | setAmp (c : Nat) (a : ℚ)
  /-- SETPAN c, p (R120). -/
  | setPan (c : Nat) (p : ℚ)
  /-- SETCUT c, hz (R121). -/
  | setCut (c : Nat) (hz : Int)
  /-- SETRES c, r (R122). -/
  | setRes (c : Nat) (r : ℚ)
  /-- SETLINK c, l (R123). -/
  | setLink (c : Nat) (l : Option Nat)
  /-- SETNOTE c, n (R124). -/
  | setNote (c : Nat) (n : Int)
  /-- FLUSH (R125). -/
  | flush
  /-- SYSRESET (44_system_sequences.md R220). -/
  | sysReset
  /-- REPROG buf, ext (R221). -/
  | reprog (buf : WordBuf) (ext : List Extent)
  /-- W.WAVE: wave code and duty byte (30_encoding.md R84). -/
  | wWave (code : BitVec 6) (duty : Byte)
  /-- W.FREQ: the 14-bit frequency value (R85). -/
  | wFreq (f14 : BitVec 14)
  /-- W.VOL: the 6-bit volume (R86). -/
  | wVol (v6 : BitVec 6)
  /-- W.ALPHA: the alpha byte (R87). -/
  | wAlpha (a : Byte)
  /-- W.BETA: the magnitude field, the sign and the saturate flag of the beta byte (R87, R88). -/
  | wBeta (mag : BitVec 6) (sign sat : Bool)
  /-- W.GAMMA: the gamma byte (R87). -/
  | wGamma (g : Byte)
  /-- SENDBYTE b (43_flush_and_transport.md R195, R201). -/
  | sendByte (b : Byte)
  /-- STROBEPULSE d (R198). -/
  | strobePulse (d : Bool)
  /-- ADDRESS k (R193, R199). -/
  | address (k : Nat)
  /-- BROADCAST (R194, R200). -/
  | broadcast
  /-- ROWFRAME: length byte, row address, write flag, the row's words (30_encoding.md R95). -/
  | rowFrame (len : Byte) (addr : Word16) (flag : Byte) (words : List Word16)
  /-- TERMFRAME (44_system_sequences.md R228). -/
  | termFrame
  /-- STATUSPKT (44_system_sequences.md R229). -/
  | statusPkt
  deriving DecidableEq, Repr

end Sys2Proof
end

