-- ==== Sys2Proof/Config.lean ====
section
/-! DEFINITION. The configuration record `Cfg` of 00_scope.md R5, its constraints, the standard
configuration that `State.reset` starts with, and the free functions for what the spec leaves open
(the pan law, and the choice between two adjacent filter bytes). -/

namespace Sys2Proof

/-- The three control pins (10_state.md R36, 43_flush_and_transport.md R197). -/
inductive PinName where
  | ser | stb | clk
  deriving DecidableEq, Repr

/-- The events `RESET_SEQ` and `BOOT_ENTRY_SEQ` are made of: no `Select` among them
(44_system_sequences.md R220, R221). -/
inductive WireEvent where
  | byte (b : Byte)
  | pin (p : PinName) (v : Bool)
  | data (b : Byte)
  | hold (n : Nat)
  deriving DecidableEq, Repr

/-- The four parameter classes of a command byte (30_encoding.md R81). -/
inductive CmdClass where
  | wave | freq | vol | param
  deriving DecidableEq, Repr

/-- One value per parameter class. -/
structure PerCmd (α : Type) where
  wave : α
  freq : α
  vol : α
  param : α
  deriving DecidableEq, Repr

def PerCmd.get {α : Type} (v : PerCmd α) : CmdClass → α
  | .wave => v.wave
  | .freq => v.freq
  | .vol => v.vol
  | .param => v.param

/-- The class of the wire command a slot class holds (30_encoding.md R89). -/
def SlotClass.cmd : SlotClass → CmdClass
  | .wave => .wave
  | .freq => .freq
  | .vol => .vol
  | .alpha | .beta | .gamma => .param

/-- The nine wave codes (R84). -/
structure WaveCodes where
  none : BitVec 6
  sine : BitVec 6
  triangle : BitVec 6
  sawtooth : BitVec 6
  reverseSawtooth : BitVec 6
  square : BitVec 6
  noise : BitVec 6
  custom : BitVec 6
  pitchedNoise : BitVec 6
  deriving DecidableEq, Repr

def WaveCodes.get (v : WaveCodes) : WaveType → BitVec 6
  | .none => v.none
  | .sine => v.sine
  | .triangle => v.triangle
  | .sawtooth => v.sawtooth
  | .reverseSawtooth => v.reverseSawtooth
  | .square => v.square
  | .noise => v.noise
  | .custom => v.custom
  | .pitchedNoise => v.pitchedNoise

/-- `Cfg.layout`: the command byte layout (R5, D9, D23 to D26). -/
structure Layout where
  /-- the 2-bit class codes -/
  cls : PerCmd (BitVec 2)
  /-- which classes are followed by a data byte -/
  hasData : PerCmd Bool
  /-- the 6-bit selectors of the PARAM class -/
  pselAlpha : BitVec 6
  pselBeta : BitVec 6
  pselGamma : BitVec 6
  waveCode : WaveCodes
  betaSignBit : Byte
  betaSatBit : Byte
  deriving DecidableEq, Repr

/-- Some wave type has this code. The block never emits any other (30_encoding.md R94 (e), U7). -/
def Layout.hasWave (l : Layout) (code : BitVec 6) : Bool :=
  WaveType.all.any fun w => decide (l.waveCode.get w = code)

/-- `Cfg.RoundQ`: how the interpolation quotient is rounded (R5, D12; log 21). -/
inductive RoundMode where
  /-- toward zero, the default -/
  | toZero
  /-- toward minus infinity -/
  | down
  /-- toward plus infinity -/
  | up
  deriving DecidableEq, Repr

/-- `Cfg.Quant`: how a fractional parameter is quantised when stored (R5, D6; log 21). -/
inductive Quant where
  /-- unchanged, the default -/
  | exact
  /-- rounded down to a multiple of `1 / (steps + 1)` -/
  | grid (steps : Nat)
  deriving DecidableEq, Repr

/-- `Cfg.CH_DEFAULT`: what a Channel's parameter registers and `note` reset to (10_state.md R41). -/
structure ChDefault where
  waveType : WaveType
  duty : ℚ
  frequency : Word16
  amplitude : ℚ
  pan : ℚ
  cutoff : Word16
  resonance : ℚ
  note : Fin 128
  deriving DecidableEq, Repr

/-- The configuration record of 00_scope.md R5. `PanLaw` stands outside it, as the function with no
body `Config.panLaw` (log 11). The fields "fixed" by R5 (NPATCH, NTRACK, MAXPTS, NSLOT, the period,
ROW_WORDS, MAX_EXTENTS) are constants of the model, and TICK_BITS and VALUE_BITS are their default
16 by the types of `Point` (log 21). -/
structure Cfg where
  nchip : Nat
  envUnit : Nat
  roundQ : RoundMode
  quant : Quant
  layout : Layout
  /-- `SatBit`: the saturate bit is set when `floor(abs(beta_raw)*63)` is above this (log 21) -/
  satAbove : Nat
  freqMult : ℚ
  clockHz : ℚ
  cutoffMax : Nat
  chipL : List Nat
  chipR : List Nat
  tSsu : Nat
  tStbh : Nat
  tStbl : Nat
  tDsu : Nat
  tClkh : Nat
  tClkl : Nat
  resetSeq : List WireEvent
  bootEntrySeq : List WireEvent
  enterBootCmd : List Byte
  frameLen : Byte
  writeFlag : Byte
  tRowUs : Nat
  protLimit : Nat
  defaultBank : Vector Patch 128
  chDefault : ChDefault
  boardRevOk : Bool
  tWdtUs : Nat
  deriving DecidableEq, Repr

/-- A rational in 0..1. -/
abbrev inUnit (x : ℚ) : Prop := 0 ≤ x ∧ x ≤ 1

/-- A rational in -1..1. -/
abbrev inSigned (x : ℚ) : Prop := -1 ≤ x ∧ x ≤ 1

/-- A receiver can read every field back under this layout: distinct class codes, distinct
selectors, two different flag bits below the magnitude field, and a data byte wherever the command
has more than six bits to carry (30_encoding.md R81, R82, R87, R88). -/
abbrev Layout.readable (l : Layout) : Prop :=
  [l.cls.wave, l.cls.freq, l.cls.vol, l.cls.param].Nodup ∧
  [l.pselAlpha, l.pselBeta, l.pselGamma].Nodup ∧
  (l.betaSignBit = 1 ∧ l.betaSatBit = 2 ∨ l.betaSignBit = 2 ∧ l.betaSatBit = 1) ∧
  l.hasData.wave = true ∧ l.hasData.freq = true ∧ l.hasData.param = true

/-- Each field of `CH_DEFAULT` lies inside its register's range (10_state.md R41). -/
abbrev ChDefault.inRange (d : ChDefault) (cutoffMax : Nat) : Prop :=
  inUnit d.duty ∧ inUnit d.amplitude ∧ inSigned d.pan ∧ inUnit d.resonance ∧
  d.cutoff.toNat ≤ cutoffMax

/-- Whether a sequence leaves every chip selected and clocks each of its bytes, followed from the
levels of SER, STB and CLK: no rising edge of STB enters a 0, and no `Byte` comes while CLK is high
(44_system_sequences.md R220 "all of it reaches every chip", R231 (f), 43 R205; log 19). -/
def keepsBroadcast (ser stb clk : Bool) : List WireEvent → Bool
  | [] => true
  | .byte _ :: es => !clk && keepsBroadcast ser stb clk es
  | .pin .ser v :: es => keepsBroadcast v stb clk es
  | .pin .stb v :: es => (!v || stb || ser) && keepsBroadcast ser v clk es
  | .pin .clk v :: es => keepsBroadcast ser stb v es
  | .data _ :: es => keepsBroadcast ser stb clk es
  | .hold _ :: es => keepsBroadcast ser stb clk es

/-- The constraints the spec puts on `Cfg`: R5's table, R171 (the dual-mode chips), R225 (the
protected limit), R226 (the length byte), R41 (CH_DEFAULT), and on the two OPEN sequences, which
start after a broadcast (SER 1, STB and CLK 0), what R220, R231 (f) and R205 need; bytes follow
BOOT_ENTRY_SEQ, so CLK is low at its end (log 19). -/
abbrev Cfg.wf (g : Cfg) : Prop :=
  (2 ≤ g.nchip ∧ g.nchip % 2 = 0) ∧
  0 < g.envUnit ∧
  0 < g.freqMult ∧ 0 < g.clockHz ∧
  (1 ≤ g.cutoffMax ∧ g.cutoffMax ≤ 65535) ∧
  (g.chipL.length = g.nchip / 2 ∧ g.chipR.length = g.nchip / 2 ∧
    (g.chipL ++ g.chipR).Nodup ∧ ∀ p ∈ g.chipL ++ g.chipR, p < g.nchip) ∧
  g.frameLen ≠ 0 ∧
  g.protLimit % 16 = 0 ∧
  g.chDefault.inRange g.cutoffMax ∧
  keepsBroadcast true false false g.resetSeq = true ∧
  keepsBroadcast true false false (g.bootEntrySeq ++ [.byte 0]) = true

/-- The default layout (30_encoding.md R81, R82, R84, R87, R88). -/
def Layout.standard : Layout :=
  { cls := ⟨0, 1, 2, 3⟩
    hasData := ⟨true, true, false, true⟩
    pselAlpha := 0
    pselBeta := 1
    pselGamma := 2
    waveCode := ⟨0, 1, 2, 3, 4, 5, 6, 7, 8⟩
    betaSignBit := 0x02
    betaSatBit := 0x01 }

/-- The configuration of `State.reset`: R5's fixed values and defaults, and for each OPEN field the
value named in log 2 and log 3 (DESIGN CHOICE; those that 95_test_vectors.md section 0 uses as
examples are taken from there). -/
def Config.standard : Cfg :=
  { nchip := 16
    envUnit := 255
    roundQ := .toZero
    quant := .exact
    layout := Layout.standard
    satAbove := 63
    freqMult := 1
    clockHz := 1000000
    cutoffMax := 20000
    chipL := [0, 2, 4, 6, 8, 10, 12, 14]
    chipR := [1, 3, 5, 7, 9, 11, 13, 15]
    tSsu := 1
    tStbh := 1
    tStbl := 1
    tDsu := 1
    tClkh := 1
    tClkl := 1
    resetSeq := []
    bootEntrySeq := []
    enterBootCmd := []
    frameLen := 0x20
    writeFlag := 0x01
    tRowUs := 1
    protLimit := 0x200
    defaultBank := Vector.replicate 128 (Patch.ofWave .none)
    chDefault :=
      { waveType := .none
        duty := 1 / 2
        frequency := 0
        amplitude := 0
        pan := 0
        cutoff := 20000
        resonance := 0
        note := 0 }
    boardRevOk := true
    tWdtUs := 1 }

/-- `Cfg.PanLaw` before the spec's requirements on it: no body, so no proof can see it
(42_parameter_encoders.md R175; log 11). -/
opaque Config.panLaw : ℚ → ℚ → ℚ × ℚ

/-- Which of two adjacent alpha bytes a cutoff takes where the model's bounds on the real expression
do not decide the floor: true for the upper one (R177, U12; log 12). No body. -/
opaque Config.alphaTie : Nat → Bool

/-- The same choice for the magnitude of beta, from cutoff and resonance (R178, U12; log 12). No
body. -/
opaque Config.betaTie : Nat → ℚ → Bool

end Sys2Proof
end

