-- ==== Sys2Proof/WellFormed.lean ====
section
/-! DEFINITION. Which terms of `Instr` have every operand inside the domain the spec gives it
(30_encoding.md R92 to R95). An operation that is not well formed is one the block ignores
(40_host_operations.md R126 (b), (c)); whether a channel operand is below `N` depends on `dual` and
is the operation's own check. -/

namespace Sys2Proof

/-- The word buffer is in its canonical form: addresses strictly rising and below 65536, no zero
word listed (44_system_sequences.md R221; log 24). -/
def WordBuf.canonical : WordBuf → Bool
  | [] => true
  | [(a, w)] => decide (a < 65536) && decide (w ≠ 0)
  | (a, w) :: (b, v) :: rest => decide (a < b) && decide (w ≠ 0) && WordBuf.canonical ((b, v) :: rest)

/-- An extent of the domain of R221: `lo < hi <= 65536`, both multiples of 16. -/
abbrev Extent.valid (e : Extent) : Prop :=
  e.1 < e.2 ∧ e.2 ≤ 65536 ∧ e.1 % 16 = 0 ∧ e.2 % 16 = 0

/-- Every operand is inside the domain the spec states for it, given the configuration. -/
def Instr.wellFormed (g : Cfg) : Instr → Bool
  | .tick _ => true
  | .pload i _ => decide (i ≤ 127)
  | .setDual b => decide (b = 0 ∨ b = 1)
  | .trig c i => decide (c < g.nchip ∧ i ≤ 127)
  | .rel c => decide (c < g.nchip)
  | .clri c => decide (c < g.nchip)
  | .fade c init len dir _ =>
    decide (c < g.nchip ∧ inUnit init ∧ (1 ≤ len ∧ len ≤ 4294967295) ∧ (dir = -1 ∨ dir = 1))
  | .setWave c _ => decide (c < g.nchip)
  | .setDuty c d => decide (c < g.nchip ∧ inUnit d)
  | .setFreq c f => decide (c < g.nchip ∧ 0 ≤ f ∧ f ≤ 65535)
  | .setAmp c a => decide (c < g.nchip ∧ inUnit a)
  | .setPan c p => decide (c < g.nchip ∧ inSigned p)
  | .setCut c hz => decide (c < g.nchip ∧ 0 ≤ hz ∧ hz ≤ g.cutoffMax)
  | .setRes c r => decide (c < g.nchip ∧ inUnit r)
  | .setLink c l => decide (c < g.nchip ∧ ∀ x ∈ l, x < g.nchip)
  | .setNote c n => decide (c < g.nchip ∧ 0 ≤ n ∧ n ≤ 127)
  | .flush => true
  | .sysReset => true
  | .reprog buf ext =>
    WordBuf.canonical buf && decide (ext.length ≤ 16) && decide (∀ e ∈ ext, Extent.valid e)
  | .wWave code _ => g.layout.hasWave code
  | .wFreq _ => true
  | .wVol _ => true
  | .wAlpha _ => true
  | .wBeta _ _ _ => true
  | .wGamma _ => true
  | .sendByte _ => true
  | .strobePulse _ => true
  | .address k => decide (k < g.nchip)
  | .broadcast => true
  | .rowFrame len addr _ words =>
    decide (len ≠ 0) && decide (addr.toNat % 16 = 0) && decide (words.length = 16)
  | .termFrame => true
  | .statusPkt => true

end Sys2Proof
end

