-- ==== Sys2Proof/Decode.lean ====
section
/-! DEFINITION. The packets in which the rows of spec/opcode_table.json travel, their decoder (total;
it rejects by name), and after it the encoder. Written from 30_encoding.md sections 1, 4 and 6 and
the table's own bit patterns. -/

namespace Sys2Proof

/-- The format a packet is in: the table's "format" column, with PRIM split by primitive, since the
three primitives' words overlap (log 8). -/
inductive Lane where
  /-- OP: operation number and typed operands (R92) -/
  | op
  /-- W1 and W2: a wire command (R80) -/
  | wire
  /-- PRIM: the serial word of ADDRESS or BROADCAST, NCHIP bits -/
  | chain
  /-- FRAME36 and FRAME4 (R95) -/
  | frame
  /-- MIDI4 (R96) -/
  | midi
  /-- PRIM: the bit of STROBEPULSE -/
  | strobe
  /-- PRIM: the byte of SENDBYTE -/
  | byte
  deriving DecidableEq, Repr

/-- A typed operand of the host port (R92, R93). -/
inductive Operand where
  | time (t : Time)
  | index (n : Nat)
  | int (z : Int)
  | rat (q : ℚ)
  | wave (w : WaveType)
  | patch (p : Patch)
  | link (l : Option Nat)
  | words (b : WordBuf)
  | extents (e : List Extent)
  deriving DecidableEq, Repr

/-- What stands at a port: the bytes of a row in the order they travel, and for an operation its
typed operands. -/
structure Packet where
  lane : Lane
  bytes : List Byte
  args : List Operand
  deriving DecidableEq, Repr

/-- Why the decoder rejects a packet. -/
inductive DecodeError where
  /-- an operation number above 0x12 (R94 (a)) -/
  | reservedOperation (n : Byte)
  /-- the operands are not those of the operation -/
  | badOperands (n : Byte)
  /-- an OP packet without exactly one operation number -/
  | noOperation
  /-- a wire command whose length or class is not one of R80 to R82 -/
  | badCommand
  /-- a wave code of no wave type (R94 (e)) -/
  | reservedWave (code : BitVec 6)
  /-- a PARAM selector with no parameter (R94 (e)) -/
  | reservedSelector (s : BitVec 6)
  /-- a serial word that neither selects one chip nor all -/
  | badChainWord
  /-- a frame that is neither a row frame nor the terminating frame (R95) -/
  | badFrame
  /-- four bytes other than the status packet (R96) -/
  | badPacket
  /-- a STROBEPULSE operand that is not a bit -/
  | badBit
  /-- a SENDBYTE operand that is not one byte -/
  | badByte
  deriving DecidableEq, Repr

/-- The number whose big-endian bytes these are. -/
def bytesToNat : List Byte → Nat
  | [] => 0
  | b :: rest => b.toNat * 256 ^ rest.length + bytesToNat rest

/-- The `n` big-endian bytes of a number. -/
def natToBytes : Nat → Nat → List Byte
  | 0, _ => []
  | n + 1, v => BitVec.ofNat 8 (v / 256 ^ n) :: natToBytes n v

/-- Words from bytes, each low byte first (R62 (d)). -/
def pairWords : List Byte → List Word16
  | lo :: hi :: rest => (hi ++ lo : BitVec 16) :: pairWords rest
  | _ => []

/-- Bytes from words, each low byte first (R62 (d), R226). -/
def wordBytes : List Word16 → List Byte
  | [] => []
  | w :: rest => w.extractLsb' 0 8 :: w.extractLsb' 8 8 :: wordBytes rest

/-- The beta byte of R88: magnitude in bits 7:2, the two flag bits by the layout's masks. -/
def betaByte (l : Layout) (mag : BitVec 6) (sign sat : Bool) : Byte :=
  (mag ++ (0 : BitVec 2) : BitVec 8) ||| (if sign then l.betaSignBit else 0) |||
    (if sat then l.betaSatBit else 0)

/-- The class a receiver reads from bits 7:6 (R81, R82). -/
def Layout.classOf (l : Layout) (k : BitVec 2) : Option CmdClass :=
  [CmdClass.wave, .freq, .vol, .param].find? fun c => decide (l.cls.get c = k)

/-- The wire command of a class with its six low bits and its data byte. -/
def commandOf (l : Layout) (c : CmdClass) (low : BitVec 6) (data : Byte) : Except DecodeError Instr :=
  match c with
  | .wave => if l.hasWave low then .ok (.wWave low data) else .error (.reservedWave low)
  | .freq => .ok (.wFreq (low ++ data : BitVec 14))
  | .vol => if data = 0 then .ok (.wVol low) else .error .badCommand
  | .param =>
    if low = l.pselAlpha then .ok (.wAlpha data)
    else if low = l.pselBeta then
      .ok (.wBeta (data.extractLsb' 2 6) (decide (data &&& l.betaSignBit ≠ 0))
        (decide (data &&& l.betaSatBit ≠ 0)))
    else if low = l.pselGamma then .ok (.wGamma data)
    else .error (.reservedSelector low)

/-- W1 and W2 (R80 to R88). -/
def decodeWire (l : Layout) : List Byte → Except DecodeError Instr
  | [] => .error .badCommand
  | b0 :: rest =>
    match l.classOf (b0.extractLsb' 6 2) with
    | none => .error .badCommand
    | some c =>
      match l.hasData.get c, rest with
      | true, [d] => commandOf l c (b0.extractLsb' 0 6) d
      | false, [] => commandOf l c (b0.extractLsb' 0 6) 0
      | _, _ => .error .badCommand

/-- The serial word of ADDRESS and BROADCAST: as many bytes as NCHIP bits need, big-endian; all ones
selects every chip, a one-hot word the chip of that position (the table's ADDRESS row, R199, R200). -/
def decodeChain (n : Nat) (bs : List Byte) : Except DecodeError Instr :=
  if bs.length ≠ (n + 7) / 8 then .error .badChainWord
  else if bytesToNat bs = 2 ^ n - 1 then .ok .broadcast
  else
    match (List.range n).find? fun k => decide (bytesToNat bs = 2 ^ k) with
    | some k => .ok (.address k)
    | none => .error .badChainWord

/-- FRAME36 and FRAME4 (R95): four zero bytes end the sequence; a row frame has a nonzero length
byte, the address high byte first, the write flag and 16 words. -/
def decodeFrame : List Byte → Except DecodeError Instr
  | len :: hi :: lo :: flag :: data =>
    if data = [] then
      if len = 0 ∧ hi = 0 ∧ lo = 0 ∧ flag = 0 then .ok .termFrame else .error .badFrame
    else if data.length = 32 ∧ len ≠ 0 then
      .ok (.rowFrame len (hi ++ lo : BitVec 16) flag (pairWords data))
    else .error .badFrame
  | _ => .error .badFrame

/-- The operation of a number with its operands in the order of R92; none where the number has no
operation or the operands are those of another. -/
def operation : Nat → List Operand → Option Instr
  | 0x00, [.time now] => some (.tick now)
  | 0x01, [.index i, .patch p] => some (.pload i p)
  | 0x02, [.int b] => some (.setDual b)
  | 0x03, [.index c, .index i] => some (.trig c i)
  | 0x04, [.index c] => some (.rel c)
  | 0x05, [.index c] => some (.clri c)
  | 0x06, [.index c, .rat init, .int len, .int dir, .time now] => some (.fade c init len dir now)
  | 0x07, [.index c, .wave w] => some (.setWave c w)
  | 0x08, [.index c, .rat d] => some (.setDuty c d)
  | 0x09, [.index c, .int f] => some (.setFreq c f)
  | 0x0A, [.index c, .rat a] => some (.setAmp c a)
  | 0x0B, [.index c, .rat p] => some (.setPan c p)
  | 0x0C, [.index c, .int hz] => some (.setCut c hz)
  | 0x0D, [.index c, .rat r] => some (.setRes c r)
  | 0x0E, [.index c, .link l] => some (.setLink c l)
  | 0x0F, [.index c, .int z] => some (.setNote c z)
  | 0x10, [] => some .flush
  | 0x11, [] => some .sysReset
  | 0x12, [.words b, .extents e] => some (.reprog b e)
  | _, _ => none

/-- The OP lane: a reserved number (R94), the operation, or operands of another operation (log 10). -/
def decodeOp (n : Byte) (args : List Operand) : Except DecodeError Instr :=
  if 0x12 < n.toNat then .error (.reservedOperation n)
  else
    match operation n.toNat args with
    | some i => .ok i
    | none => .error (.badOperands n)

/-- The decoder: total on every packet. -/
def decode (g : Cfg) (p : Packet) : Except DecodeError Instr :=
  match p.lane, p.bytes with
  | .op, [n] => decodeOp n p.args
  | .op, _ => .error .noOperation
  | .wire, bs => decodeWire g.layout bs
  | .chain, bs => decodeChain g.nchip bs
  | .frame, bs => decodeFrame bs
  | .midi, bs => if bs = [0x0F, 0xFF, 0x00, 0x00] then .ok .statusPkt else .error .badPacket
  | .strobe, bs =>
    if bs = [0x00] then .ok (.strobePulse false)
    else if bs = [0x01] then .ok (.strobePulse true)
    else .error .badBit
  | .byte, [b] => .ok (.sendByte b)
  | .byte, _ => .error .badByte

/-- The operands of an operation when every operand word is zero: the operands a table row's bits
stand for when they end at the operation number (log 7). -/
def zeroArgs (n : Byte) : List Operand :=
  match n.toNat with
  | 0x00 => [.time 0]
  | 0x01 => [.index 0, .patch Patch.zero]
  | 0x02 => [.int 0]
  | 0x03 => [.index 0, .index 0]
  | 0x04 => [.index 0]
  | 0x05 => [.index 0]
  | 0x06 => [.index 0, .rat 0, .int 0, .int 0, .time 0]
  | 0x07 => [.index 0, .wave .none]
  | 0x08 => [.index 0, .rat 0]
  | 0x09 => [.index 0, .int 0]
  | 0x0A => [.index 0, .rat 0]
  | 0x0B => [.index 0, .rat 0]
  | 0x0C => [.index 0, .int 0]
  | 0x0D => [.index 0, .rat 0]
  | 0x0E => [.index 0, .link none]
  | 0x0F => [.index 0, .int 0]
  | 0x12 => [.words [], .extents []]
  | _ => []

/-- The packet of a lane that carries these bytes, with zero operands on the OP lane. -/
def lanePacket (lane : Lane) (bs : List Byte) : Packet :=
  match lane, bs with
  | .op, [n] => ⟨.op, [n], zeroArgs n⟩
  | l, bs => ⟨l, bs, []⟩

/-- The lanes in the order in which bits without a format are read (log 8). -/
def laneOrder : List Lane := [.op, .wire, .chain, .frame, .midi, .strobe, .byte]

/-- The packet that `nbits` bits of the opcode table's numbering stand for: the leftmost byte first
(the table's patterns), in the first lane that has a row with these bits. -/
def tablePacket (g : Cfg) (nbits w : Nat) : Packet :=
  let bs := natToBytes ((nbits + 7) / 8) w
  ((laneOrder.map fun l => lanePacket l bs).find? fun p => (decode g p).toBool).getD (lanePacket .op bs)

/-- The instruction the decoder reads from a table row's bits, under the standard configuration. -/
def decodeTableWord (nbits w : Nat) : Option Instr :=
  (decode Config.standard (tablePacket Config.standard nbits w)).toOption

/-- An OP packet. -/
def opPacket (n : Byte) (args : List Operand) : Packet := ⟨.op, [n], args⟩

/-- The bytes of a wire command of a class: the data byte only where the class has one (R82). -/
def wireBytes (l : Layout) (c : CmdClass) (low : BitVec 6) (data : Byte) : List Byte :=
  if l.hasData.get c then [commandByte (l.cls.get c) low, data] else [commandByte (l.cls.get c) low]

/-- The encoder: the packet that carries an instruction, from the same tables (R84 to R88, R92, R95,
R96, R199). -/
def encode (g : Cfg) : Instr → Packet
  | .tick now => opPacket 0x00 [.time now]
  | .pload i p => opPacket 0x01 [.index i, .patch p]
  | .setDual b => opPacket 0x02 [.int b]
  | .trig c i => opPacket 0x03 [.index c, .index i]
  | .rel c => opPacket 0x04 [.index c]
  | .clri c => opPacket 0x05 [.index c]
  | .fade c init len dir now => opPacket 0x06 [.index c, .rat init, .int len, .int dir, .time now]
  | .setWave c w => opPacket 0x07 [.index c, .wave w]
  | .setDuty c d => opPacket 0x08 [.index c, .rat d]
  | .setFreq c f => opPacket 0x09 [.index c, .int f]
  | .setAmp c a => opPacket 0x0A [.index c, .rat a]
  | .setPan c p => opPacket 0x0B [.index c, .rat p]
  | .setCut c hz => opPacket 0x0C [.index c, .int hz]
  | .setRes c r => opPacket 0x0D [.index c, .rat r]
  | .setLink c l => opPacket 0x0E [.index c, .link l]
  | .setNote c n => opPacket 0x0F [.index c, .int n]
  | .flush => opPacket 0x10 []
  | .sysReset => opPacket 0x11 []
  | .reprog b e => opPacket 0x12 [.words b, .extents e]
  | .wWave code duty => ⟨.wire, wireBytes g.layout .wave code duty, []⟩
  | .wFreq f => ⟨.wire, wireBytes g.layout .freq (f.extractLsb' 8 6) (f.extractLsb' 0 8), []⟩
  | .wVol v => ⟨.wire, wireBytes g.layout .vol v 0, []⟩
  | .wAlpha a => ⟨.wire, wireBytes g.layout .param g.layout.pselAlpha a, []⟩
  | .wBeta mag sign sat =>
    ⟨.wire, wireBytes g.layout .param g.layout.pselBeta (betaByte g.layout mag sign sat), []⟩
  | .wGamma v => ⟨.wire, wireBytes g.layout .param g.layout.pselGamma v, []⟩
  | .sendByte b => ⟨.byte, [b], []⟩
  | .strobePulse d => ⟨.strobe, [if d then 0x01 else 0x00], []⟩
  | .address k => ⟨.chain, natToBytes ((g.nchip + 7) / 8) (2 ^ k), []⟩
  | .broadcast => ⟨.chain, natToBytes ((g.nchip + 7) / 8) (2 ^ g.nchip - 1), []⟩
  | .rowFrame len addr flag words =>
    ⟨.frame, len :: addr.extractLsb' 8 8 :: addr.extractLsb' 0 8 :: flag :: wordBytes words, []⟩
  | .termFrame => ⟨.frame, [0x00, 0x00, 0x00, 0x00], []⟩
  | .statusPkt => ⟨.midi, [0x0F, 0xFF, 0x00, 0x00], []⟩

end Sys2Proof
end

