-- ==== Sys2Proof/Machine/State.lean ====
section
/-! DEFINITION. Everything the spec gives the machine, as plain data (10_state.md), the reasons a
step can stop, and the state right after reset (R41, 70_reset_and_hazards.md R270, R271). -/

namespace Sys2Proof.Machine

/-- The block raises no exceptions (60_exceptions.md R240, R245): no meaning ends in a fault, so this
closed inductive has no constructor. -/
inductive Fault
  deriving DecidableEq, Repr

/-- The named ways in which the model declines a run. Each is safe: the spec asks a model to refuse
there (93_implementation_defined.md), or gives the case no meaning at all. -/
inductive Refusal where
  /-- Raised by `exec` alone, for an instruction that has no meaning yet; none is left. Safe. -/
  | notModelled (mnemonic : String)
  /-- Raised by TRIG and TICK on a Patch that is not `DEF` (U1, U2, U3, U14; 10_state.md R30). Safe. -/
  | patchNotDefined
  /-- Raised by TICK on a live Channel whose cursors do not fit its envelopes (U4, 41 R142). Safe. -/
  | cursorDoesNotFit
  /-- Raised by TICK when a tick cursor would pass 65535 (U6, 41 R148). Safe. -/
  | tickCursorOverflow
  /-- Raised by SETDUAL while a Channel is live or fading or a slot is pending (U5, 40 R111). Safe. -/
  | dualChangeWhileBusy
  /-- Raised by a step whose packet, on a lane other than OP, is none of its format's words: the
  block never receives such words and the spec gives them no meaning (30 R94 (f); log 10). Safe. -/
  | undecodable (e : DecodeError)
  deriving DecidableEq, Repr

/-- The lock (10_state.md R33). -/
inductive Lock where
  | free | host | engine
  deriving DecidableEq, Repr

/-- RUN or HALT (R38). -/
inductive Status where
  | run | halt
  deriving DecidableEq, Repr

/-- The direction of a fade, -1 or +1 (R23). -/
inductive FadeDir where
  | down | up
  deriving DecidableEq, Repr

/-- Why the engine reports a Channel finished (R37). -/
inductive DoneCause where
  | envEnd | fadeEnd
  deriving DecidableEq, Repr

/-- Why the block halted (60_exceptions.md R240, R244). -/
inductive HaltCause where
  | sysreset | reprogDone | boardRev
  deriving DecidableEq, Repr

/-- The events of the output trace (00_scope.md R10, 43_flush_and_transport.md R192, R197). A
`select` carries the NCHIP-bit vector as a number, bit `k` for chip `k`. -/
inductive Event where
  | select (set : Nat)
  | byte (b : Byte)
  | hold (n : Nat)
  | pin (p : PinName) (v : Bool)
  | data (b : Byte)
  | done (c : Nat) (cause : DoneCause)
  | midiOut (b0 b1 b2 b3 : Byte)
  | halt (cause : HaltCause)
  deriving DecidableEq, Repr

/-- The eleven output pins (10_state.md R36). -/
structure Pins where
  ser : Bool
  stb : Bool
  clk : Bool
  d : Byte
  deriving DecidableEq, Repr

/-- A Channel record (10_state.md R20 to R26). `reloaded` is the model's own mark, which no rule names
and none but the test of U4 reads (log 13). -/
structure Channel where
  waveType : WaveType
  duty : ℚ
  frequency : Word16
  amplitude : ℚ
  pan : ℚ
  cutoff : Word16
  resonance : ℚ
  fadeInit : ℚ
  fadeStart : Time
  fadeLength : BitVec 32
  fadeDir : FadeDir
  instrument : Option (Fin 128)
  released : Bool
  tick : PerTrack Word16
  point : PerTrack (Fin 12)
  linked : Option Nat
  note : Fin 128
  /-- a PLOAD of another Patch has replaced the one the Channel plays since TRIG installed it (U4, 70 R276; log 13) -/
  reloaded : Bool
  deriving DecidableEq, Repr

/-- The six slots of one chip (10_state.md R31). -/
abbrev ChipSlots := PerClass (Option (Byte × Byte))

/-- A critical section still to come (60_exceptions.md R249): a host batch of packets, or one TICK
of the engine. -/
inductive Section where
  | host (ops : List Packet)
  | engine (tick : Packet)
  deriving DecidableEq, Repr

/-- The machine's state. `cfg`, `selShown`, `batch` and `agenda` are the model's own fields (log 1,
log 6, log 18), as is the mark `reloaded` of a Channel (log 13). -/
structure State where
  /-- the configuration of the run; no rule writes it (R5, R39) -/
  cfg : Cfg
  /-- the Channel records, NCHIP of them (R20) -/
  ch : List Channel
  /-- the Patch bank (R27) -/
  patch : Vector Patch 128
  /-- the Command Queue, one record of six slots per chip (R31) -/
  slot : List ChipSlots
  /-- the six dirty flags (R32) -/
  dirty : PerClass Bool
  /-- the changed flag (R32) -/
  changed : Bool
  /-- the lock (R33) -/
  lock : Lock
  /-- the mode flag (R34) -/
  dual : Bool
  /-- the time counter (R35) -/
  now : Time
  /-- the engine's period timer: when its next iteration begins (R152, R254 (2); log 16; its value at
  reset, log 29) -/
  nextTick : Time
  /-- the output pins (R36) -/
  pins : Pins
  /-- the select chain outside the block, bit `k` for position `k` (R36, R202) -/
  sel : Nat
  /-- the set that Level 1 showed last, by which a `Byte` is known to need a `Select` before it
  (43 R205; log 18) -/
  selShown : Nat
  /-- the output trace at Level 1, oldest first (R10, R192) -/
  trace : List Event
  /-- the output trace at Level 2, oldest first (R197; log 18) -/
  pinTrace : List Event
  /-- RUN or HALT (R38) -/
  status : Status
  /-- the packets left in the host section in progress (R249; log 6) -/
  batch : List Packet
  /-- the critical sections to come, in the order they win the lock (R250; log 6) -/
  agenda : List Section
  deriving DecidableEq, Repr

/-- A Channel right after reset (R41; log 3, log 4). -/
def Channel.reset (d : ChDefault) : Channel :=
  { waveType := d.waveType
    duty := d.duty
    frequency := d.frequency
    amplitude := d.amplitude
    pan := d.pan
    cutoff := d.cutoff
    resonance := d.resonance
    fadeInit := 0
    fadeStart := 0
    fadeLength := 0
    fadeDir := .down
    instrument := none
    released := false
    tick := PerTrack.all 0
    point := PerTrack.all 0
    linked := none
    note := d.note
    reloaded := false }

/-- The reset procedure of R270 under a configuration. What lies outside the block is given: the
counter's value, the select chain, and the two traces with the set shown last, which belong to the
observer and go on (60_exceptions.md R247); so is the agenda (log 17). The board check of R271 comes
last. The period timer's value at reset, which R41 does not list and for which R251 gives "no fixed
delay", is the model's choice (log 29, DESIGN CHOICE): it is the counter's value, so that the first
idle TICK is due at once, at power-on and after a restart. -/
def State.resetWith (g : Cfg) (now : Time) (sel selShown : Nat) (trace pinTrace : List Event)
    (agenda : List Section) : State :=
  { cfg := g
    ch := List.replicate g.nchip (Channel.reset g.chDefault)
    patch := g.defaultBank
    slot := List.replicate g.nchip (PerClass.all none)
    dirty := PerClass.all false
    changed := false
    lock := .free
    dual := false
    now := now
    nextTick := now
    pins := ⟨false, false, false, 0⟩
    sel := sel
    selShown := selShown
    trace := if g.boardRevOk then trace else trace ++ [.halt .boardRev]
    pinTrace := if g.boardRevOk then pinTrace else pinTrace ++ [.halt .boardRev]
    status := if g.boardRevOk then .run else .halt
    batch := []
    agenda := agenda }

/-- The machine after power-on under a configuration, nothing scheduled (log 5 for the counter and the
chain, log 29 for the period timer). -/
def State.boot (g : Cfg) : State := State.resetWith g 0 0 0 [] [] []

/-- The machine right after reset, in the standard configuration (log 2). -/
def State.reset : State := State.boot Config.standard

end Sys2Proof.Machine
end

