-- ==== Sys2Proof/Machine/Flags.lean ====
section
/-! DEFINITION. The flags: the six dirty flags and `changed` (10_state.md R32), and the flag fields of
the beta byte (42_parameter_encoders.md R178). -/

namespace Sys2Proof.Machine

/-- What every producer does to the flags: its class's dirty flag and `changed` become 1 (R170). -/
def raiseDirty (k : SlotClass) (s : State) : State :=
  { s with dirty := s.dirty.set k true, changed := true }

/-- The flush has sent a whole class: its dirty flag becomes 0 (R190). -/
def clearDirty (k : SlotClass) (s : State) : State :=
  { s with dirty := s.dirty.set k false }

/-- The flush's last act: `changed` becomes 0 (R190). -/
def clearChanged (s : State) : State :=
  { s with changed := false }

/-- Some dirty flag is set. -/
def someDirty (d : PerClass Bool) : Bool :=
  d.wave || d.freq || d.vol || d.alpha || d.beta || d.gamma

/-- The saturate flag of the beta byte: the magnitude does not fit (R178, `Cfg.SatBit`; log 21). -/
def betaSaturates (g : Cfg) (m : Nat) : Bool := decide (g.satAbove < m)

/-- The sign flag of the beta byte: `beta_raw = 2·r·cos x` is negative (R178). -/
def betaIsNegative (r : ℚ) (cosNegative : Bool) : Bool := decide (0 < r) && cosNegative

end Sys2Proof.Machine
end

