-- ==== Sys2Proof/Machine/Operands.lean ====
section
/-! DEFINITION. Operands: which indices are in use, reading and writing a Channel's registers, the
number forms of 00_scope.md R6 and R8 (clamp, rounding, quantisation) and the conversion of an
envelope value to a parameter (41_envelope_engine.md R149). -/

namespace Sys2Proof.Machine

/-- `N`, the number of Channels in use: NCHIP, or half of it in dual mode (10_state.md R20, R34). -/
def State.chans (s : State) : Nat := if s.dual then s.cfg.nchip / 2 else s.cfg.nchip

/-- The record a read of a Channel index with no storage would give; no rule reads one (R64). -/
def Channel.absent : Channel :=
  Channel.reset
    { waveType := .none, duty := 0, frequency := 0, amplitude := 0, pan := 0, cutoff := 0,
      resonance := 0, note := 0 }

/-- `ch[c]`. -/
def State.chan (s : State) (c : Nat) : Channel := s.ch.getD c Channel.absent

/-- `ch[c] <- x`. -/
def State.setChan (s : State) (c : Nat) (x : Channel) : State := { s with ch := s.ch.set c x }

/-- `patch[i]`. -/
def State.patchAt (s : State) (i : Fin 128) : Patch := s.patch[i]

/-- `slot[p][k]`. -/
def State.slotAt (s : State) (p : Nat) (k : SlotClass) : Option (Byte × Byte) :=
  (s.slot.getD p (PerClass.all none)).get k

/-- `slot[p][k] <- v`. -/
def State.setSlot (s : State) (p : Nat) (k : SlotClass) (v : Option (Byte × Byte)) : State :=
  { s with slot := s.slot.set p ((s.slot.getD p (PerClass.all none)).set k v) }

/-- Point `j` of an envelope; cells past the eleventh do not exist and no rule reads them. -/
def Envelope.cell (e : Envelope) (j : Nat) : Point := e.pt.toList.getD j ⟨0, 0⟩

/-- `E.pt[j].x`, unsigned. -/
def Envelope.x (e : Envelope) (j : Nat) : Nat := (Envelope.cell e j).x.toNat

/-- `E.pt[j].y`, signed. -/
def Envelope.y (e : Envelope) (j : Nat) : Int := (Envelope.cell e j).y.toInt

/-- `E.npoints`. -/
def Envelope.count (e : Envelope) : Nat := e.npoints.toNat

/-- `WF(E)`: at most 12 points, ticks non-decreasing (10_state.md R30). -/
def Envelope.ordered (e : Envelope) : Bool :=
  decide (Envelope.count e ≤ 12) &&
  (List.range 12).all fun j =>
    decide (j + 1 < Envelope.count e → Envelope.x e j ≤ Envelope.x e (j + 1))

/-- `DEF(E)`: the engine's behaviour on it is defined (10_state.md R30). -/
def Envelope.defined (e : Envelope) : Bool :=
  Envelope.ordered e &&
  decide (2 ≤ Envelope.count e → Envelope.x e 0 = 0) &&
  decide (e.loopStart.toNat < 12 → e.loopStart.toNat < Envelope.count e)

/-- `DEF(P)`: all six envelopes are defined (10_state.md R30). -/
def Patch.defined (p : Patch) : Bool :=
  Track.all.all fun k => Envelope.defined (p.env.get k)

/-- `clamp(x, lo, hi)` (00_scope.md R6). -/
def clampRat (x lo hi : ℚ) : ℚ := if x < lo then lo else if hi < x then hi else x

/-- `clamp(x, lo, hi)` over the integers (00_scope.md R6). -/
def clampInt (x lo hi : Int) : Int := if x < lo then lo else if hi < x then hi else x

/-- `Cfg.RoundQ(p / q)` for `q > 0`; the default is `trunc` (00_scope.md R6, 41 R148). -/
def roundQuotient (m : RoundMode) (p q : Int) : Int :=
  match m with
  | .toZero => Int.tdiv p q
  | .down => Int.fdiv p q
  | .up => -(Int.fdiv (-p) q)

/-- `Cfg.Quant`, applied to every rational that a register stores (40 R126; log 26). -/
def quantise (g : Cfg) (x : ℚ) : ℚ :=
  match g.quant with
  | .exact => x
  | .grid n => ((x * ((n : ℚ) + 1)).floor : ℚ) / ((n : ℚ) + 1)

/-- `v / 255`, the fraction an envelope value stands for (R149, `Cfg.ENV_UNIT`). -/
def envFraction (g : Cfg) (v : Int) : ℚ := (v : ℚ) / (g.envUnit : ℚ)

/-- `FromEnv_k(v)` stored in the register of track `k` (R149's table). -/
def storeEnvValue (g : Cfg) (k : Track) (v : Int) (x : Channel) : Channel :=
  match k with
  | .volume => { x with amplitude := quantise g (clampRat (envFraction g v) 0 1) }
  | .pan => { x with pan := quantise g (clampRat (envFraction g v) (-1) 1) }
  | .frequency => { x with frequency := BitVec.ofInt 16 (clampInt v 0 65535) }
  | .duty => { x with duty := quantise g (clampRat (envFraction g v) 0 1) }
  | .cutoff => { x with cutoff := BitVec.ofInt 16 (clampInt v 0 g.cutoffMax) }
  | .resonance => { x with resonance := quantise g (clampRat (envFraction g v) 0 1) }

/-- `fade_direction` as the number -1 or +1 (10_state.md R23). -/
def FadeDir.sign : FadeDir → ℚ
  | .down => -1
  | .up => 1

/-- The number a floor of a rational gives as a bit field of `n` bits. -/
def floorBits (n : Nat) (x : ℚ) : BitVec n := BitVec.ofInt n x.floor

end Sys2Proof.Machine
end

