-- ==== Sys2Proof/Machine/Filter.lean ====
section
/-! DEFINITION. The filter coefficient bytes (42_parameter_encoders.md R176 to R180). The formulas are
over the reals; here each real value is enclosed between two rationals, and its floor is the floor of
both where they agree. Where they do not, the value lies within 10^-15 of an integer and the byte is
a free choice between the two neighbours (log 12). -/

namespace Sys2Proof.Machine

/-- A lower bound of pi (its first twenty decimals). -/
def piLo : ℚ := 314159265358979323846 / 100000000000000000000

/-- An upper bound of pi. -/
def piHi : ℚ := 314159265358979323847 / 100000000000000000000

/-- `hz / CLOCK_HZ`: the cutoff in turns per chip clock, so that `x = 2·pi·turns` (R176). -/
def turns (g : Cfg) (hz : Nat) : ℚ := (hz : ℚ) / g.clockHz

/-- `1 + z + … + z^(n-1)/(n-1)!`. -/
def expPartial (z : ℚ) : Nat → ℚ
  | 0 => 0
  | n + 1 => expPartial z n + z ^ n / (Nat.factorial n : ℚ)

/-- The remainder that makes the sum of 24 terms an upper bound of `e^z` on 0..1. -/
def expRemainder (z : ℚ) : ℚ := z ^ 24 * 25 / (Nat.factorial 24 * 24 : ℚ)

/-- In how many parts the exponent `2·pi·q` is cut so that each is at most 1. -/
def expParts (q : ℚ) : Nat := max 1 (2 * piHi * q).ceil.toNat

/-- An upper bound of `e^(-2·pi·q)`. -/
def expNegHi (q : ℚ) : ℚ :=
  (1 / expPartial (2 * piLo * q / (expParts q : ℚ)) 24) ^ expParts q

/-- A lower bound of `e^(-2·pi·q)`. -/
def expNegLo (q : ℚ) : ℚ :=
  (1 / (expPartial (2 * piHi * q / (expParts q : ℚ)) 24 +
    expRemainder (2 * piHi * q / (expParts q : ℚ)))) ^ expParts q

/-- The floor of the enclosed value, or the free choice between the two floors (log 12). -/
def floorBetween (lo hi : Int) (tie : Bool) : Int := if lo = hi ∨ tie = false then lo else hi

/-- `floor((1 - e^(-x)) * 255)` (R177). From `x = 6` on, `255·e^(-x)` is below 1 and the floor 254. -/
def alphaFloor (q : ℚ) (tie : Bool) : Int :=
  if 6 ≤ 2 * piLo * q then 254
  else floorBetween ((1 - expNegHi q) * 255).floor ((1 - expNegLo q) * 255).floor tie

/-- `alpha(hz, x)` (R177). -/
def alphaByte (g : Cfg) (hz : Nat) : Byte :=
  if hz = g.cutoffMax then 255 else BitVec.ofInt 8 (alphaFloor (turns g hz) (Config.alphaTie hz))

/-- The fractional part of a rational. -/
def fracPart (q : ℚ) : ℚ := q - (q.floor : ℚ)

/-- `cos(2·pi·q)` is negative: the angle lies strictly between a quarter turn and three. -/
def cosIsNegative (q : ℚ) : Bool := decide (1 / 4 < fracPart q ∧ fracPart q < 3 / 4)

/-- The angle, in half turns from 0 to 1/2, whose cosine is `|cos(2·pi·q)|`. -/
def foldedAngle (q : ℚ) : ℚ :=
  if fracPart (2 * q) ≤ 1 / 2 then fracPart (2 * q) else 1 - fracPart (2 * q)

/-- The first `n` terms of the cosine series. -/
def cosPartial (z : ℚ) : Nat → ℚ
  | 0 => 0
  | n + 1 => cosPartial z n + (-1) ^ n * z ^ (2 * n) / (Nat.factorial (2 * n) : ℚ)

/-- A bound on the rest of the cosine series after 15 terms. -/
def cosRemainder (z : ℚ) : ℚ := 2 * z ^ 30 / (Nat.factorial 30 : ℚ)

/-- Bounds on `cos(pi·v)` for `v` in 0..1/2. At 0, 1/3 and 1/2 the cosine is rational and both bounds
are its value; at every other rational it is irrational. -/
def cosBounds (v : ℚ) : ℚ × ℚ :=
  if v = 0 then (1, 1)
  else if v = 1 / 3 then (1 / 2, 1 / 2)
  else if v = 1 / 2 then (0, 0)
  else
    (max 0 (cosPartial (piHi * v) 15 - cosRemainder (piHi * v)),
      min 1 (cosPartial (piLo * v) 15 + cosRemainder (piLo * v)))

/-- `m = floor(|beta_raw| * 63)`, `beta_raw = 2·r·cos x` (R178). -/
def betaMagnitude (q r : ℚ) (tie : Bool) : Int :=
  floorBetween (126 * r * (cosBounds (foldedAngle q)).1).floor
    (126 * r * (cosBounds (foldedAngle q)).2).floor tie

/-- The beta byte of a magnitude and a sign (R178). -/
def betaOf (g : Cfg) (m : Nat) (negative : Bool) : Byte :=
  betaByte g.layout (BitVec.ofNat 6 m) negative (betaSaturates g m)

/-- `beta(r, x)` (R178). -/
def betaCoefficient (g : Cfg) (hz : Nat) (r : ℚ) : Byte :=
  betaOf g (betaMagnitude (turns g hz) r (Config.betaTie hz r)).toNat
    (betaIsNegative r (cosIsNegative (turns g hz)))

/-- `gamma(hz, r)` (R179). -/
def gammaByte (g : Cfg) (hz : Nat) (r : ℚ) : Byte :=
  if hz = g.cutoffMax then 0 else floorBits 8 (r * r * 255)

end Sys2Proof.Machine
end

