-- ==== Sys2Proof/Machine/Ops.lean ====
section
/-! DEFINITION. The operations every meaning is built from: the output trace, the transport
primitives (43_flush_and_transport.md R192 to R203), the producer side of the queue
(42_parameter_encoders.md R170, R171), the gate every host operation passes (40 R126), and what this
block has in the place of exceptions: entering HALT (60 R246) and the watchdog restart (60 R247). -/

namespace Sys2Proof.Machine

open Host (Outcome)

/-- `emit e` for an event that both levels of the output trace show (00_scope.md R7, R10). -/
def emit (e : Event) (s : State) : State :=
  { s with trace := s.trace ++ [e], pinTrace := s.pinTrace ++ [e] }

/-- The select chain after one shift with serial input `d` (R202). -/
def shiftChain (n sel : Nat) (d : Bool) : Nat := (sel * 2 + d.toNat) % 2 ^ n

/-- The pin events of `StrobePulse(d)` (R198). -/
def strobeEvents (g : Cfg) (d : Bool) : List Event :=
  [.pin .ser d, .hold g.tSsu, .pin .stb true, .hold g.tStbh, .pin .stb false, .hold g.tStbl]

/-- `StrobePulse(d)` (R198): one bit enters the select chain. -/
def strobePulse (d : Bool) (s : State) : State :=
  { s with
    pins := { s.pins with ser := d, stb := false }
    sel := shiftChain s.cfg.nchip s.sel d
    pinTrace := s.pinTrace ++ strobeEvents s.cfg d }

/-- A run of strobe pulses. -/
def strobePulses (ds : List Bool) (s : State) : State := ds.foldl (fun s d => strobePulse d s) s

/-- The bits `Address(k)` enters, first to last (R199). -/
def addressBits (n k : Nat) : List Bool :=
  List.replicate (n - 1 - k) false ++ true :: List.replicate k false

/-- `emit Select(S)` of Level 1, whose Level-2 form is pulses already emitted (R193, R194). -/
def showSelect (set : Nat) (s : State) : State :=
  { s with trace := s.trace ++ [.select set], selShown := set }

/-- `Address(k)` (R193, R199). -/
def address (k : Nat) (s : State) : State :=
  showSelect (2 ^ k) (strobePulses (addressBits s.cfg.nchip k) s)

/-- `Broadcast()` (R194, R200). -/
def broadcast (s : State) : State :=
  showSelect (2 ^ s.cfg.nchip - 1) (strobePulses (List.replicate s.cfg.nchip true) s)

/-- The `Select` of Level 1 that goes before a `Byte`: one where the chain has changed since the last
`Byte` or `Select`, else none (R205). -/
def State.unshown (s : State) : List Event := if s.sel = s.selShown then [] else [.select s.sel]

/-- A byte is clocked: Level 1 shows the set of chips that sample it, where it is new, and the byte
(R192, R205). -/
def showByte (b : Byte) (s : State) : State :=
  { s with trace := s.trace ++ (s.unshown ++ [.byte b]), selShown := s.sel }

/-- The pin events of `SendByte(b)` (R201). -/
def byteEvents (g : Cfg) (b : Byte) : List Event :=
  [.data b, .hold g.tDsu, .pin .clk true, .hold g.tClkh, .pin .clk false, .hold g.tClkl]

/-- `SendByte(b)` (R195, R201). -/
def sendByte (b : Byte) (s : State) : State :=
  { showByte b s with
    pins := { s.pins with d := b, clk := false }
    pinTrace := s.pinTrace ++ byteEvents s.cfg b }

/-- `SendByte` of each byte in turn. -/
def sendBytes (bs : List Byte) (s : State) : State := bs.foldl (fun s b => sendByte b s) s

/-- One wire command to the selected chips: the command byte, then the data byte when its class has
one (R82, R196). -/
def sendCommand (k : CmdClass) (b0 b1 : Byte) (s : State) : State :=
  sendBytes (if s.cfg.layout.hasData.get k then [b0, b1] else [b0]) s

/-- An event of Level 2 alone: Level 1 has no `Pin` and no `Data` (R192, R205). -/
def emitPins (e : Event) (s : State) : State := { s with pinTrace := s.pinTrace ++ [e] }

/-- A pin takes a level (R197). A rising edge of STB shifts the chain with the level of SER; on a rising
edge of CLK the selected chips sample the data lines, which Level 1 shows as a `Byte` (R202, R205). -/
def drivePin (p : PinName) (v : Bool) (s : State) : State :=
  match p with
  | .ser => emitPins (.pin .ser v) { s with pins := { s.pins with ser := v } }
  | .stb =>
    emitPins (.pin .stb v)
      { s with
        pins := { s.pins with stb := v }
        sel := if v && !s.pins.stb then shiftChain s.cfg.nchip s.sel s.pins.ser else s.sel }
  | .clk =>
    emitPins (.pin .clk v)
      { (if v && !s.pins.clk then showByte s.pins.d s else s) with
        pins := { s.pins with clk := v } }

/-- `emit e` for an event of RESET_SEQ or BOOT_ENTRY_SEQ (44_system_sequences.md R220, R221; log 19). -/
def emitWire (e : WireEvent) (s : State) : State :=
  match e with
  | .byte b => sendByte b s
  | .pin p v => drivePin p v s
  | .data b => emitPins (.data b) { s with pins := { s.pins with d := b } }
  | .hold n => emit (.hold n) s

/-- Every event of such a sequence in order. -/
def emitWires (es : List WireEvent) (s : State) : State := es.foldl (fun s e => emitWire e s) s

/-- `Enqueue(p, k, b0, b1)` (42_parameter_encoders.md R170). -/
def enqueue (p : Nat) (k : SlotClass) (b0 b1 : Byte) (s : State) : State :=
  raiseDirty k (s.setSlot p k (some (b0, b1)))

/-- `Chips(c)`, the chips a Channel drives (R171). -/
def State.chips (s : State) (c : Nat) : List Nat :=
  if s.dual then [s.cfg.chipL.getD c 0, s.cfg.chipR.getD c 0] else [c]

/-- The same bytes to every chip of a Channel (R171). -/
def enqueueAll (ps : List Nat) (k : SlotClass) (b0 b1 : Byte) (s : State) : State :=
  ps.foldl (fun s p => enqueue p k b0 b1 s) s

/-- The time counter has been seen at `t`: it never decreases (10_state.md R35; log 16). -/
def observeTime (t : Time) (s : State) : State :=
  { s with now := if s.now ≤ t then t else s.now }

/-- A host operation runs only while HOST holds the lock and `status = RUN`; with an operand outside
its domain, or without lock or RUN, nothing changes (40_host_operations.md R126, 60 R241, R256; log
22). `effect` is the state its pseudocode leaves. -/
def hostRun (s : State) (domain : Prop) [Decidable domain] (effect : State) :
    Outcome State Fault Refusal :=
  if s.status = .run ∧ s.lock = .host ∧ domain then .next effect else .next s

/-- Entering HALT: the event, then the status. The lock stays with its holder (60_exceptions.md
R246). -/
def haltWith (c : HaltCause) (s : State) : State :=
  { emit (.halt c) s with status := .halt }

/-- The WATCHDOG step: the whole block is reset, the period timer to the counter's value (log 29); the
select chain, the counter, the observer's traces and the sections to come lie outside it
(60_exceptions.md R247; log 17). -/
def watchdogRestart (s : State) : State :=
  State.resetWith s.cfg s.now s.sel s.selShown s.trace s.pinTrace s.agenda

end Sys2Proof.Machine
end

