-- ==== Sys2Proof/Machine/Encoders.lean ====
section
/-! DEFINITION. The per-parameter encoders (42_parameter_encoders.md R172 to R176): each reads a
Channel's registers, computes bytes and enqueues them. -/

namespace Sys2Proof.Machine

/-- The first byte of a wire command of a class (30_encoding.md R80). -/
def firstByte (g : Cfg) (k : CmdClass) (low : BitVec 6) : Byte := commandByte (g.layout.cls.get k) low

/-- `UpdWave(c)` (R172). -/
def updWave (c : Nat) (s : State) : State :=
  enqueueAll (s.chips c) .wave
    (firstByte s.cfg .wave (s.cfg.layout.waveCode.get (s.chan c).waveType))
    (floorBits 8 ((s.chan c).duty * 255)) s

/-- `F14`, saturated at 16383 (30_encoding.md R85, R173). -/
def freq14 (g : Cfg) (f : Word16) : BitVec 14 :=
  BitVec.ofInt 14 (min ((f.toNat : ℚ) * g.freqMult).floor 16383)

/-- `UpdFreq(c)` (R173). -/
def updFreq (c : Nat) (s : State) : State :=
  let f := freq14 s.cfg (s.chan c).frequency
  enqueueAll (s.chips c) .freq (firstByte s.cfg .freq (f.extractLsb' 8 6)) (f.extractLsb' 0 8) s

/-- The W.VOL byte of an amplitude (30_encoding.md R86). -/
def volByte (g : Cfg) (a : ℚ) : Byte := firstByte g .vol (floorBits 6 (a * 63))

/-- `Cfg.PanLaw` with what R175 requires of any: both results in 0..1, silence kept silent (log 11). -/
def panLaw (a pan : ℚ) : ℚ × ℚ :=
  if a = 0 then (0, 0)
  else (clampRat (Config.panLaw a pan).1 0 1, clampRat (Config.panLaw a pan).2 0 1)

/-- `UpdVol(c)` (R174). -/
def updVol (c : Nat) (s : State) : State :=
  let x := s.chan c
  if s.dual then
    enqueue (s.cfg.chipR.getD c 0) .vol (volByte s.cfg (panLaw x.amplitude x.pan).2) 0
      (enqueue (s.cfg.chipL.getD c 0) .vol (volByte s.cfg (panLaw x.amplitude x.pan).1) 0 s)
  else enqueue c .vol (volByte s.cfg x.amplitude) 0 s

/-- One chip's three filter commands (R176). -/
def enqueueFilter (a b v : Byte) (p : Nat) (s : State) : State :=
  enqueue p .gamma (firstByte s.cfg .param s.cfg.layout.pselGamma) v
    (enqueue p .beta (firstByte s.cfg .param s.cfg.layout.pselBeta) b
      (enqueue p .alpha (firstByte s.cfg .param s.cfg.layout.pselAlpha) a s))

/-- `UpdFilter(c)` (R176). -/
def updFilter (c : Nat) (s : State) : State :=
  let hz := (s.chan c).cutoff.toNat
  let r := (s.chan c).resonance
  (s.chips c).foldl
    (fun t p => enqueueFilter (alphaByte s.cfg hz) (betaCoefficient s.cfg hz r)
      (gammaByte s.cfg hz r) p t) s

/-- `Upd_k(c)`, the encoder of track `k` (41_envelope_engine.md R149's table). -/
def updTrack (k : Track) (c : Nat) (s : State) : State :=
  match k with
  | .volume => updVol c s
  | .pan => if s.dual then updVol c s else s
  | .frequency => updFreq c s
  | .duty => updWave c s
  | .cutoff => updFilter c s
  | .resonance => updFilter c s

end Sys2Proof.Machine
end

