-- ==== Sys2Proof/Machine/Transport.lean ====
section
/-! DEFINITION. The flush (43_flush_and_transport.md R190), and the meanings of the rows that are sent
rather than issued: the six wire commands (R196) and the four transport primitives (R193 to R201).
They run for HOST as lock holder (R204; log 8, log 9). -/

namespace Sys2Proof.Machine

open Host (Outcome)

/-- One slot of the flush: sent and emptied when it is pending (R190). -/
def flushSlot (k : SlotClass) (s : State) (p : Nat) : State :=
  match s.slotAt p k with
  | none => s
  | some (b0, b1) => (sendCommand k.cmd b0 b1 (address p s)).setSlot p k none

/-- One class of the flush (R190). -/
def flushClass (s : State) (k : SlotClass) : State :=
  if s.dirty.get k then clearDirty k ((List.range s.cfg.nchip).foldl (flushSlot k) s) else s

/-- `Flush()` (R190). -/
def flush (s : State) : State :=
  if s.changed then clearChanged (SlotClass.all.foldl flushClass s) else s

/-- FLUSH (40_host_operations.md R125). -/
def execFlush (s : State) : Outcome State Fault Refusal := hostRun s True (flush s)

/-- W.WAVE to the selected chips (30 R84, 43 R196). A code of no wave type is never emitted (30 R94 (e);
log 25). -/
def execWWave (code : BitVec 6) (duty : Byte) (s : State) : Outcome State Fault Refusal :=
  hostRun s (s.cfg.layout.hasWave code = true) (sendBytes (wireBytes s.cfg.layout .wave code duty) s)

/-- W.FREQ (30 R85, 43 R196). -/
def execWFreq (f14 : BitVec 14) (s : State) : Outcome State Fault Refusal :=
  hostRun s True
    (sendBytes (wireBytes s.cfg.layout .freq (f14.extractLsb' 8 6) (f14.extractLsb' 0 8)) s)

/-- W.VOL (30 R86, 43 R196). -/
def execWVol (v6 : BitVec 6) (s : State) : Outcome State Fault Refusal :=
  hostRun s True (sendBytes (wireBytes s.cfg.layout .vol v6 0) s)

/-- W.ALPHA (30 R87, 43 R196). -/
def execWAlpha (a : Byte) (s : State) : Outcome State Fault Refusal :=
  hostRun s True (sendBytes (wireBytes s.cfg.layout .param s.cfg.layout.pselAlpha a) s)

/-- W.BETA (30 R87, R88, 43 R196). -/
def execWBeta (mag : BitVec 6) (sign sat : Bool) (s : State) : Outcome State Fault Refusal :=
  hostRun s True
    (sendBytes
      (wireBytes s.cfg.layout .param s.cfg.layout.pselBeta (betaByte s.cfg.layout mag sign sat)) s)

/-- W.GAMMA (30 R87, 43 R196). -/
def execWGamma (v : Byte) (s : State) : Outcome State Fault Refusal :=
  hostRun s True (sendBytes (wireBytes s.cfg.layout .param s.cfg.layout.pselGamma v) s)

/-- SENDBYTE b (43 R195, R201). -/
def execSendByte (b : Byte) (s : State) : Outcome State Fault Refusal :=
  hostRun s True (sendByte b s)

/-- STROBEPULSE d (43 R198). -/
def execStrobePulse (d : Bool) (s : State) : Outcome State Fault Refusal :=
  hostRun s True (strobePulse d s)

/-- ADDRESS k (43 R193, R199); the primitive exists for `k` in 0..NCHIP-1 (log 25). -/
def execAddress (k : Nat) (s : State) : Outcome State Fault Refusal :=
  hostRun s (k < s.cfg.nchip) (address k s)

/-- BROADCAST (43 R194, R200). -/
def execBroadcast (s : State) : Outcome State Fault Refusal :=
  hostRun s True (broadcast s)

end Sys2Proof.Machine
end

