-- ==== Sys2Proof/Machine/Engine.lean ====
section
/-! DEFINITION. The engine operation TICK (41_envelope_engine.md R140 to R152): the envelope pass with
`advance`, the end of a note, the fade, and the period. -/

namespace Sys2Proof.Machine

open Host (Outcome)

/-- `advance(E, t, i, r)` (R144 to R148): the new cursors and the track's value. -/
def advance (m : RoundMode) (e : Envelope) (t i : Nat) (r : Bool) : Nat × Nat × Int :=
  if (i = e.sustainIndex.toNat ∧ r = false) ∨ i = Envelope.count e - 1 then (t, i, Envelope.y e i)
  else if Envelope.x e (i + 1) ≤ t + 1 then
    if i + 1 = e.loopEnd.toNat ∧ e.loopStart.toNat < 12 ∧ r = false then
      (Envelope.x e e.loopStart.toNat, e.loopStart.toNat, Envelope.y e e.loopStart.toNat)
    else (t + 1, i + 1, Envelope.y e (i + 1))
  else
    (t + 1, i,
      Envelope.y e i +
        roundQuotient m ((Envelope.y e (i + 1) - Envelope.y e i) * ((t + 1 : Int) - Envelope.x e i))
          ((Envelope.x e (i + 1) : Int) - Envelope.x e i))

/-- `ZeroPoint(c, k)`: a track without points writes its static value once (R143). -/
def zeroPoint (c : Nat) (k : Track) (s : State) : State :=
  if (s.chan c).tick.get k = 0 then
    let t := updTrack k c s
    t.setChan c { t.chan c with tick := (t.chan c).tick.set k 1 }
  else s

/-- `Apply(c, k, v)` (R149). -/
def applyValue (c : Nat) (k : Track) (v : Int) (s : State) : State :=
  updTrack k c (s.setChan c (storeEnvValue s.cfg k v (s.chan c)))

/-- The cursors of a track fit its envelope: invariant I4 of 10_state.md R40, or they are the cursors
TRIG left on an envelope of one point that no PLOAD has replaced since, where R30 and R144 define
the engine whatever that point's tick is (log 13). -/
def cursorFits (e : Envelope) (reloaded : Bool) (t i : Nat) : Bool :=
  decide (i < Envelope.count e) &&
  decide (Envelope.x e i ≤ t ∨ (Envelope.count e = 1 ∧ t = 0 ∧ reloaded = false))

/-- One track of the envelope pass (R142). -/
def trackPass (c : Nat) (p : Patch) (k : Track) (s : State) : Except Refusal State :=
  let e := p.env.get k
  let t := ((s.chan c).tick.get k).toNat
  let i := ((s.chan c).point.get k).val
  if Envelope.count e = 0 then .ok (zeroPoint c k s)
  else if cursorFits e (s.chan c).reloaded t i = false then .error .cursorDoesNotFit
  else
    let n := advance s.cfg.roundQ e t i (s.chan c).released
    if 65535 < n.1 then .error .tickCursorOverflow
    else .ok (applyValue c k n.2.2 (s.setChan c
      { s.chan c with
        tick := (s.chan c).tick.set k (BitVec.ofNat 16 n.1)
        point := (s.chan c).point.set k (Fin.ofNat 12 n.2.1) }))

/-- The tracks of a Channel in order (R142). -/
def trackPasses (c : Nat) (p : Patch) : List Track → State → Except Refusal State
  | [], s => .ok s
  | k :: ks, s =>
    match trackPass c p k s with
    | .ok s' => trackPasses c p ks s'
    | .error r => .error r

/-- Some track has points (R150 `haspts`). -/
def hasPoints (p : Patch) : Bool :=
  Track.all.any fun k => decide (0 < Envelope.count (p.env.get k))

/-- Every track with points has its cursor at the last one (R150 `allend`). -/
def allEnded (p : Patch) (x : Channel) : Bool :=
  Track.all.all fun k =>
    decide (0 < Envelope.count (p.env.get k) →
      (x.point.get k).val = Envelope.count (p.env.get k) - 1)

/-- The note is over (R150). -/
def noteEnds (p : Patch) (x : Channel) : Bool :=
  (hasPoints p && allEnded p x) ||
  (decide (Envelope.count (p.env.get .volume) = 0) && x.released)

/-- `Terminate(c)` (R150). -/
def terminate (c : Nat) (p : Patch) (s : State) : State :=
  if noteEnds p (s.chan c) then
    emit (.done c .envEnd)
      (updWave c (s.setChan c { s.chan c with instrument := none, waveType := .none }))
  else s

/-- `EnvPass(c)` for a Channel that plays Patch `i` (R142). -/
def envPass (c : Nat) (i : Fin 128) (s : State) : Except Refusal State :=
  if Patch.defined (s.patchAt i) = false then .error .patchNotDefined
  else
    match trackPasses c (s.patchAt i) Track.all s with
    | .ok s' => .ok (terminate c (s.patchAt i) s')
    | .error r => .error r

/-- The amplitude of a fade after `el` microseconds (R151): at `el >= L` that of `el = L`. -/
def fadeAmplitude (init : ℚ) (dir : FadeDir) (el len : Nat) : ℚ :=
  if len ≤ el then clampRat (init + FadeDir.sign dir) 0 1
  else clampRat (init + (el : ℚ) / (len : ℚ) * FadeDir.sign dir) 0 1

/-- `FadePass(c, now)` (R151). -/
def fadePass (c : Nat) (now : Time) (s : State) : State :=
  let x := s.chan c
  let el := now.toNat - x.fadeStart.toNat
  let len := x.fadeLength.toNat
  let a := quantise s.cfg (fadeAmplitude x.fadeInit x.fadeDir el len)
  if len ≤ el then
    emit (.done c .fadeEnd) (updVol c (s.setChan c { x with amplitude := a, fadeLength := 0 }))
  else updVol c (s.setChan c { x with amplitude := a })

/-- What one TICK does with Channel `c` (R140, R141). -/
def channelPass (now : Time) (c : Nat) (s : State) : Except Refusal State :=
  match (s.chan c).instrument with
  | some i => envPass c i s
  | none => .ok (if (s.chan c).fadeLength = 0 then s else fadePass c now s)

/-- The Channels in ascending order (R141). -/
def channelPasses (now : Time) : List Nat → State → Except Refusal State
  | [], s => .ok s
  | c :: cs, s =>
    match channelPass now c s with
    | .ok s' => channelPasses now cs s'
    | .error r => .error r

/-- The period of the engine loop, 10 ms (00_scope.md R5, R152). -/
def tickPeriodUs : Nat := 10000

/-- The counter does not wrap in the life of a run (10_state.md R35); past its end it stays there. -/
def timeAfter (t : Time) (us : Nat) : Time :=
  if t.toNat + us < 2 ^ 64 then BitVec.ofNat 64 (t.toNat + us) else BitVec.allOnes 64

/-- When the iteration that began at `start` lets the next begin (R152): a period later, or, where
HOST has read a later time from the counter before the engine had the lock, at that time, since the
iteration ends after it (log 16). -/
def nextStart (start seen : Time) : Time :=
  if timeAfter start tickPeriodUs ≤ seen then seen else timeAfter start tickPeriodUs

/-- The start of an iteration, which `now` is the time of: the lock is acquired, and the period runs from
the top of the loop, before the acquire (R140, R152, 60_exceptions.md R249). -/
def beginTick (now : Time) (s : State) : State :=
  { observeTime now s with lock := .engine, nextTick := nextStart now s.now }

/-- The end of an iteration: the lock is released (R140, 60 R249). -/
def endTick (s : State) : State := { s with lock := .free }

/-- TICK now (R140). It runs when `status = RUN` and the lock is free; else the engine does not run or
waits (60 R246, R249; log 22). -/
def execTick (now : Time) (s : State) : Outcome State Fault Refusal :=
  if s.status = .run ∧ s.lock = .free then
    match channelPasses now (List.range s.chans) (beginTick now s) with
    | .ok s' => .next (endTick (flush s'))
    | .error r => .refused r
  else .next s

/-- The `now` with which an iteration begins when the scheduler offers it at time `t`: `t`, or the end
of the sleep where that is later, since the engine does not wake early (R152, R256 (1); log 16). A
host operation meanwhile does not move it, though the engine then has the lock later (R256 (1), D45). -/
def startTime (s : State) (t : Time) : Time := if t ≤ s.nextTick then s.nextTick else t

end Sys2Proof.Machine
end

