-- ==== Sys2Proof/Machine/HostOps.lean ====
section
/-! DEFINITION. The host operations on the Patch bank, the mode, the notes and the parameter registers
(40_host_operations.md R110 to R124). -/

namespace Sys2Proof.Machine

open Host (Outcome)

/-- A Channel after a PLOAD has replaced Patch `i`: the registers and cursors are kept (70 R276), and a
Channel that plays the Patch is marked (log 13). -/
def markReloaded (i : Fin 128) (x : Channel) : Channel :=
  { x with reloaded := x.reloaded || decide (x.instrument = some i) }

/-- PLOAD i, P (R110): stored as given, no validation. A Patch equal to the old one changes nothing, and
so marks no Channel. -/
def execPload (i : Nat) (p : Patch) (s : State) : Outcome State Fault Refusal :=
  hostRun s (i ≤ 127)
    { s with
      patch := s.patch.setIfInBounds i p
      ch := if s.patchAt (Fin.ofNat 128 i) = p then s.ch
        else s.ch.map (markReloaded (Fin.ofNat 128 i)) }

/-- A Channel is live or fading, or a slot is pending: the condition of U5 (R111). -/
def State.busy (s : State) : Bool :=
  s.ch.any (fun x => x.instrument.isSome || decide (x.fadeLength ≠ 0)) ||
  s.slot.any (fun v => SlotClass.all.any fun k => (v.get k).isSome)

/-- SETDUAL b (R111). It is refused while the block is busy, whichever mode `b` names (U5, 60 R256; log
14). -/
def execSetDual (b : Int) (s : State) : Outcome State Fault Refusal :=
  if s.status = .run ∧ s.lock = .host ∧ (b = 0 ∨ b = 1) ∧ s.busy = true
  then .refused .dualChangeWhileBusy
  else hostRun s (b = 0 ∨ b = 1) { s with dual := decide (b = 1) }

/-- What TRIG does to the Channel's registers (R112). -/
def triggered (i : Fin 128) (w : WaveType) (x : Channel) : Channel :=
  { x with
    instrument := some i
    tick := PerTrack.all 0
    point := PerTrack.all 0
    released := false
    fadeLength := 0
    waveType := w
    reloaded := false }

/-- TRIG c, i (R112); a Patch that is not `DEF` is refused (U14). -/
def execTrig (c i : Nat) (s : State) : Outcome State Fault Refusal :=
  if s.status = .run ∧ s.lock = .host ∧ (c < s.chans ∧ i ≤ 127) ∧
      Patch.defined (s.patchAt (Fin.ofNat 128 i)) = false
  then .refused .patchNotDefined
  else hostRun s (c < s.chans ∧ i ≤ 127)
    (updWave c (s.setChan c
      (triggered (Fin.ofNat 128 i) (s.patchAt (Fin.ofNat 128 i)).waveType (s.chan c))))

/-- REL c (R113). -/
def execRel (c : Nat) (s : State) : Outcome State Fault Refusal :=
  hostRun s (c < s.chans)
    (if (s.chan c).instrument.isSome then s.setChan c { s.chan c with released := true }
     else updVol c (s.setChan c { s.chan c with amplitude := quantise s.cfg 0 }))

/-- CLRI c (R114). -/
def execClri (c : Nat) (s : State) : Outcome State Fault Refusal :=
  hostRun s (c < s.chans) (s.setChan c { s.chan c with instrument := none })

/-- FADE c, init, len, dir, now (R115). -/
def execFade (c : Nat) (init : ℚ) (len dir : Int) (now : Time) (s : State) :
    Outcome State Fault Refusal :=
  hostRun s
    (c < s.chans ∧ inUnit init ∧ (1 ≤ len ∧ len ≤ 4294967295) ∧ (dir = -1 ∨ dir = 1))
    (observeTime now (s.setChan c
      { s.chan c with
        instrument := none
        fadeInit := quantise s.cfg init
        fadeStart := now
        fadeLength := BitVec.ofInt 32 len
        fadeDir := if dir = 1 then .up else .down }))

/-- SETWAVE c, w (R116). -/
def execSetWave (c : Nat) (w : WaveType) (s : State) : Outcome State Fault Refusal :=
  hostRun s (c < s.chans) (updWave c (s.setChan c { s.chan c with waveType := w }))

/-- SETDUTY c, d (R117). -/
def execSetDuty (c : Nat) (d : ℚ) (s : State) : Outcome State Fault Refusal :=
  hostRun s (c < s.chans ∧ inUnit d)
    (updWave c (s.setChan c { s.chan c with duty := quantise s.cfg d }))

/-- SETFREQ c, f (R118). -/
def execSetFreq (c : Nat) (f : Int) (s : State) : Outcome State Fault Refusal :=
  hostRun s (c < s.chans ∧ 0 ≤ f ∧ f ≤ 65535)
    (updFreq c (s.setChan c { s.chan c with frequency := BitVec.ofInt 16 f }))

/-- SETAMP c, a (R119). -/
def execSetAmp (c : Nat) (a : ℚ) (s : State) : Outcome State Fault Refusal :=
  hostRun s (c < s.chans ∧ inUnit a)
    (updVol c (s.setChan c { s.chan c with amplitude := quantise s.cfg a }))

/-- SETPAN c, p (R120): enqueued only in dual mode. -/
def execSetPan (c : Nat) (p : ℚ) (s : State) : Outcome State Fault Refusal :=
  hostRun s (c < s.chans ∧ inSigned p)
    (updTrack .pan c (s.setChan c { s.chan c with pan := quantise s.cfg p }))

/-- SETCUT c, hz (R121). -/
def execSetCut (c : Nat) (hz : Int) (s : State) : Outcome State Fault Refusal :=
  hostRun s (c < s.chans ∧ 0 ≤ hz ∧ hz ≤ s.cfg.cutoffMax)
    (updFilter c (s.setChan c { s.chan c with cutoff := BitVec.ofInt 16 hz }))

/-- SETRES c, r (R122). -/
def execSetRes (c : Nat) (r : ℚ) (s : State) : Outcome State Fault Refusal :=
  hostRun s (c < s.chans ∧ inUnit r)
    (updFilter c (s.setChan c { s.chan c with resonance := quantise s.cfg r }))

/-- SETLINK c, l (R123). -/
def execSetLink (c : Nat) (l : Option Nat) (s : State) : Outcome State Fault Refusal :=
  hostRun s (c < s.chans ∧ ∀ x ∈ l, x < s.cfg.nchip)
    (s.setChan c { s.chan c with linked := l })

/-- SETNOTE c, n (R124). -/
def execSetNote (c : Nat) (n : Int) (s : State) : Outcome State Fault Refusal :=
  hostRun s (c < s.chans ∧ 0 ≤ n ∧ n ≤ 127)
    (s.setChan c { s.chan c with note := Fin.ofNat 128 n.toNat })

end Sys2Proof.Machine
end

