-- ==== Sys2Proof/Machine/System.lean ====
section
/-! DEFINITION. The two sequences that end in HALT (44_system_sequences.md R220 to R230) and the
frames they are made of (30_encoding.md R95, R96). -/

namespace Sys2Proof.Machine

open Host (Outcome)

/-- SYSRESET (R220). -/
def execSysReset (s : State) : Outcome State Fault Refusal :=
  hostRun s True (haltWith .sysreset (emitWires s.cfg.resetSeq (broadcast s)))

/-- The word a buffer holds at an address; an unlisted address reads zero (log 24). -/
def WordBuf.word (buf : WordBuf) (a : Nat) : Word16 :=
  match buf.find? fun e => decide (e.1 = a) with
  | some e => e.2
  | none => 0

/-- The 16 words of the row that starts at `a` (R224). -/
def rowWords (buf : WordBuf) (a : Nat) : List Word16 :=
  (List.range 16).map fun j => WordBuf.word buf (a + j)

/-- The bytes of a row frame (30_encoding.md R95, R226). -/
def frameBytes (len : Byte) (addr : Word16) (flag : Byte) (words : List Word16) : List Byte :=
  len :: addr.extractLsb' 8 8 :: addr.extractLsb' 0 8 :: flag :: wordBytes words

/-- The terminating frame (R228). -/
def termBytes : List Byte := [0x00, 0x00, 0x00, 0x00]

/-- The status packet (R229). -/
def statusEvent : Event := .midiOut 0x0F 0xFF 0x00 0x00

/-- The row start addresses of an extent, ascending (R224). -/
def rowStarts (e : Extent) : List Nat := (List.range ((e.2 - e.1) / 16)).map fun j => e.1 + 16 * j

/-- The rows that are sent: those of every extent in list order, less the protected ones (R225). -/
def sentRows (limit : Nat) (ext : List Extent) : List Nat :=
  (ext.flatMap rowStarts).filter fun a => decide (limit ≤ a)

/-- `SendRow(A, buf)` and the inter-row hold (R226, R227). -/
def sendRow (buf : WordBuf) (s : State) (a : Nat) : State :=
  emit (.hold s.cfg.tRowUs)
    (sendBytes (frameBytes s.cfg.frameLen (BitVec.ofNat 16 a) s.cfg.writeFlag (rowWords buf a)) s)

/-- The part of REPROG before the rows: broadcast, entry pulses, the system command (R221). -/
def enterBootloader (s : State) : State :=
  sendBytes s.cfg.enterBootCmd (emitWires s.cfg.bootEntrySeq (broadcast s))

/-- REPROG's whole sequence (R221, R228 to R230). -/
def reprogram (buf : WordBuf) (ext : List Extent) (s : State) : State :=
  haltWith .reprogDone
    (emit statusEvent
      (sendBytes termBytes
        ((sentRows s.cfg.protLimit ext).foldl (sendRow buf) (enterBootloader s))))

/-- REPROG buf, ext (R221). -/
def execReprog (buf : WordBuf) (ext : List Extent) (s : State) : Outcome State Fault Refusal :=
  hostRun s (ext.length ≤ 16 ∧ ∀ e ∈ ext, Extent.valid e) (reprogram buf ext s)

/-- ROWFRAME: its bytes, to the selected chips (30 R95, 44 R226; log 25). DESIGN CHOICE: the inter-row
hold of R227 belongs to REPROG's loop (`sendRow`), and the row by itself is the 36 bytes alone (log
25). -/
def execRowFrame (len : Byte) (addr : Word16) (flag : Byte) (words : List Word16) (s : State) :
    Outcome State Fault Refusal :=
  hostRun s True (sendBytes (frameBytes len addr flag words) s)

/-- TERMFRAME (44 R228). -/
def execTermFrame (s : State) : Outcome State Fault Refusal :=
  hostRun s True (sendBytes termBytes s)

/-- STATUSPKT (44 R229). -/
def execStatusPkt (s : State) : Outcome State Fault Refusal :=
  hostRun s True (emit statusEvent s)

end Sys2Proof.Machine
end

