-- ==== Sys2Proof/Machine/Dispatch.lean ====
section
/-! DEFINITION. `exec`: one arm per constructor of `Instr`, each one direct call of its meaning. -/

namespace Sys2Proof.Machine

def exec (i : Instr) (s : State) : Host.Outcome State Fault Refusal :=
  match i with
  | .tick now => Sys2Proof.Machine.execTick now s
  | .pload n p => Sys2Proof.Machine.execPload n p s
  | .setDual b => Sys2Proof.Machine.execSetDual b s
  | .trig c n => Sys2Proof.Machine.execTrig c n s
  | .rel c => Sys2Proof.Machine.execRel c s
  | .clri c => Sys2Proof.Machine.execClri c s
  | .fade c init len dir now => Sys2Proof.Machine.execFade c init len dir now s
  | .setWave c w => Sys2Proof.Machine.execSetWave c w s
  | .setDuty c d => Sys2Proof.Machine.execSetDuty c d s
  | .setFreq c f => Sys2Proof.Machine.execSetFreq c f s
  | .setAmp c a => Sys2Proof.Machine.execSetAmp c a s
  | .setPan c p => Sys2Proof.Machine.execSetPan c p s
  | .setCut c hz => Sys2Proof.Machine.execSetCut c hz s
  | .setRes c r => Sys2Proof.Machine.execSetRes c r s
  | .setLink c l => Sys2Proof.Machine.execSetLink c l s
  | .setNote c n => Sys2Proof.Machine.execSetNote c n s
  | .flush => Sys2Proof.Machine.execFlush s
  | .sysReset => Sys2Proof.Machine.execSysReset s
  | .reprog buf ext => Sys2Proof.Machine.execReprog buf ext s
  | .wWave code duty => Sys2Proof.Machine.execWWave code duty s
  | .wFreq f => Sys2Proof.Machine.execWFreq f s
  | .wVol v => Sys2Proof.Machine.execWVol v s
  | .wAlpha a => Sys2Proof.Machine.execWAlpha a s
  | .wBeta mag sign sat => Sys2Proof.Machine.execWBeta mag sign sat s
  | .wGamma g => Sys2Proof.Machine.execWGamma g s
  | .sendByte b => Sys2Proof.Machine.execSendByte b s
  | .strobePulse d => Sys2Proof.Machine.execStrobePulse d s
  | .address k => Sys2Proof.Machine.execAddress k s
  | .broadcast => Sys2Proof.Machine.execBroadcast s
  | .rowFrame len addr flag words => Sys2Proof.Machine.execRowFrame len addr flag words s
  | .termFrame => Sys2Proof.Machine.execTermFrame s
  | .statusPkt => Sys2Proof.Machine.execStatusPkt s

end Sys2Proof.Machine
end

