-- ==== Sys2Proof/Machine/Fetch.lean ====
section
/-! DEFINITION. Which agent moves and what it takes: the watchdog in HALT (60_exceptions.md R247), the
host inside its critical section, else the next section of the agenda (R249, R250), else the engine,
whose period timer brings its next iteration (41_envelope_engine.md R152). -/

namespace Sys2Proof.Machine

/-- What a step finds to do. -/
inductive Turn where
  /-- a step of an agent that runs no operation -/
  | settled (s : State)
  /-- a packet has been taken -/
  | packet (p : Packet) (s : State)
  /-- nothing is scheduled: the engine's own next iteration -/
  | period (s : State)
  deriving DecidableEq, Repr

/-- Whose turn it is, from the status, the lock, the section in progress and the agenda (log 6). A
state in which the engine holds the lock between steps is never reached (log 23). -/
def takeTurn (s : State) : Turn :=
  match s.status, s.lock with
  | .halt, _ => .settled (watchdogRestart s)
  | .run, .engine => .settled s
  | .run, .host =>
    match s.batch with
    | [] => .settled { s with lock := .free }
    | p :: rest => .packet p { s with batch := rest }
  | .run, .free =>
    match s.agenda with
    | [] => .period s
    | .host ops :: rest => .settled { s with lock := .host, batch := ops, agenda := rest }
    | .engine p :: rest => .packet p { s with agenda := rest }

/-- What a packet turns into: an instruction to execute, an ignored transaction (a reserved operation
number or wrong operands, 30_encoding.md R94, 40 R126), or a word of no format (log 10). -/
inductive Fetched where
  | run (i : Instr)
  | ignored
  | bad (e : DecodeError)
  deriving DecidableEq, Repr

/-- The instruction as it begins: TICK reads the counter when the engine's sleep is over (41 R140,
R152); nothing else waits. -/
def started (s : State) (i : Instr) : Instr :=
  match i with
  | .tick now => .tick (startTime s now)
  | j => j

/-- Decoding a packet where it is taken. -/
def fetchPacket (s : State) (p : Packet) : Fetched :=
  match decode s.cfg p with
  | .ok i => .run (started s i)
  | .error e => if p.lane = .op then .ignored else .bad e

/-- The state in which a packet is the next thing taken: TICK as the next section of the engine, any
other packet as the next of a host section in progress, the block running (log 6). -/
def placePacket (p : Packet) (s : State) : State :=
  if p.lane = .op ∧ p.bytes = [0x00] then
    { s with status := .run, lock := .free, agenda := .engine p :: s.agenda }
  else { s with status := .run, lock := .host, batch := p :: s.batch }

end Sys2Proof.Machine
end

