-- ==== Sys2Proof/Machine/Step.lean ====
section
/-! DEFINITION. One step of the machine: the agent whose turn it is moves. -/

namespace Sys2Proof.Machine

/-- Run what a taken packet turned into. -/
def runFetched (f : Fetched) (s : State) : Host.Outcome State Fault Refusal :=
  match f with
  | .run i => exec i s
  | .ignored => .next s
  | .bad e => .refused (.undecodable e)

/-- One step (log 6). -/
def step (s : State) : Host.Outcome State Fault Refusal :=
  match takeTurn s with
  | .settled t => .next t
  | .packet p t => runFetched (fetchPacket t p) t
  | .period t => exec (.tick t.nextTick) t

/-- `s` with the packet that `nbits` bits of the opcode table stand for placed so that the very next
step takes it (log 6, log 8). -/
def State.withFetchWord (s : State) (nbits w : Nat) : State :=
  placePacket (tablePacket s.cfg nbits w) s

end Sys2Proof.Machine
end

