-- ==== Sys2Proof/Safety.lean ====
section
/-! DEFINITION. The terms in which claims about the machine are stated: the invariants between steps
(10_state.md R40), what an operation leaves alone, what an operation queues, and what the chips
receive at each level of the output trace, and the folding of Level 2 into Level 1
(43_flush_and_transport.md R192, R202, R205). No part of the machine uses this file. -/

namespace Sys2Proof.Machine

open Host (Outcome)

/-- The registers of a Channel lie in the ranges of 10_state.md R21, R23 and R26 (invariant I5). -/
abbrev Channel.inRange (g : Cfg) (x : Channel) : Prop :=
  inUnit x.duty ∧ inUnit x.amplitude ∧ inSigned x.pan ∧ inUnit x.resonance ∧ inUnit x.fadeInit ∧
  x.cutoff.toNat ≤ g.cutoffMax ∧ ∀ l ∈ x.linked, l < g.nchip

/-- What holds between steps: the configuration meets its constraints, the arrays have their fixed
sizes, I1, I2, I3 and I5 of 10_state.md R40, the select chain has NCHIP bits, the engine never holds
the lock between steps (log 23), and in RUN the two strobes rest at 0 (43 R197). -/
structure Inv (s : State) : Prop where
  cfgWf : s.cfg.wf
  chCount : s.ch.length = s.cfg.nchip
  slotCount : s.slot.length = s.cfg.nchip
  liveHasNoFade : ∀ x ∈ s.ch, x.instrument.isSome = true → x.fadeLength = 0
  changedIffDirty : s.changed = someDirty s.dirty
  pendingIsDirty : ∀ v ∈ s.slot, ∀ k ∈ SlotClass.all, (v.get k).isSome = true → s.dirty.get k = true
  registersInRange : ∀ x ∈ s.ch, Channel.inRange s.cfg x
  selBits : s.sel < 2 ^ s.cfg.nchip
  lockNotEngine : s.lock ≠ .engine
  strobesRest : s.status = .run → s.pins.stb = false ∧ s.pins.clk = false

/-- Invariant I4 of 10_state.md R40 (as log 13 reads it): the cursors of every live Channel fit the
envelopes of its Patch, where that Patch is defined. -/
def CursorsFit (s : State) : Prop :=
  ∀ x ∈ s.ch, ∀ i, x.instrument = some i → Patch.defined (s.patchAt i) = true →
    ∀ k, 0 < Envelope.count ((s.patchAt i).env.get k) →
      cursorFits ((s.patchAt i).env.get k) x.reloaded (x.tick.get k).toNat (x.point.get k).val = true

/-- TICK can run Channel `x`: if it is live, its Patch is defined (R30), its cursors fit (R142), and no
tick cursor passes 65535 (R148): each stands below it, or holds, or is set back by a loop (log 15). -/
def Playable (s : State) (x : Channel) : Prop :=
  ∀ i, x.instrument = some i →
    Patch.defined (s.patchAt i) = true ∧
    ∀ k, 0 < Envelope.count ((s.patchAt i).env.get k) →
      cursorFits ((s.patchAt i).env.get k) x.reloaded (x.tick.get k).toNat (x.point.get k).val = true ∧
      (advance s.cfg.roundQ ((s.patchAt i).env.get k) (x.tick.get k).toNat (x.point.get k).val
        x.released).1 ≤ 65535

/-- `t` differs from `s` at most in Channel `c`, in the slots of the chips `ps` and classes `ks`, in
the dirty flags of `ks`, and in `changed` if `ks` has a class. -/
structure OnlyWrites (s t : State) (c : Nat) (ps : List Nat) (ks : List SlotClass) : Prop where
  cfg : t.cfg = s.cfg
  patch : t.patch = s.patch
  lock : t.lock = s.lock
  dual : t.dual = s.dual
  now : t.now = s.now
  nextTick : t.nextTick = s.nextTick
  pins : t.pins = s.pins
  sel : t.sel = s.sel
  selShown : t.selShown = s.selShown
  trace : t.trace = s.trace
  pinTrace : t.pinTrace = s.pinTrace
  status : t.status = s.status
  batch : t.batch = s.batch
  agenda : t.agenda = s.agenda
  otherChannels : ∀ d, d ≠ c → t.chan d = s.chan d
  otherSlots : ∀ p k, p ∉ ps ∨ k ∉ ks → t.slotAt p k = s.slotAt p k
  otherDirty : ∀ k, k ∉ ks → t.dirty.get k = s.dirty.get k
  changed : ks = [] → t.changed = s.changed

/-- `t` differs from `s` at most in the pins, the select chain and the two traces. -/
structure OnlyTransmits (s t : State) : Prop where
  cfg : t.cfg = s.cfg
  ch : t.ch = s.ch
  patch : t.patch = s.patch
  slot : t.slot = s.slot
  dirty : t.dirty = s.dirty
  changed : t.changed = s.changed
  lock : t.lock = s.lock
  dual : t.dual = s.dual
  now : t.now = s.now
  nextTick : t.nextTick = s.nextTick
  status : t.status = s.status
  batch : t.batch = s.batch
  agenda : t.agenda = s.agenda

/-- HOST may run an operation: RUN, and the lock is its own (40_host_operations.md R126). -/
abbrev HostHolds (s : State) : Prop := s.status = .run ∧ s.lock = .host

/-- The Level-1 events a slot is sent as (43 R196): the chip is addressed, the command byte follows,
then the data byte of a class that has one. -/
def slotEvents (g : Cfg) (k : SlotClass) (p : Nat) : Option (Byte × Byte) → List Event
  | none => []
  | some (b0, b1) =>
    if g.layout.hasData.get k.cmd then [.select (2 ^ p), .byte b0, .byte b1]
    else [.select (2 ^ p), .byte b0]

/-- The Level-1 events of a flush, read off the queue: dirty classes in order, chips in order (R190). -/
def pendingEvents (s : State) : List Event :=
  SlotClass.all.flatMap fun k =>
    if s.dirty.get k then
      (List.range s.cfg.nchip).flatMap fun p => slotEvents s.cfg k p (s.slotAt p k)
    else []

/-- What the chips receive according to a Level-1 trace, each byte with the set of chips selected for
it (43 R192). The first argument is the set selected before. -/
def deliveries1 : Nat → List Event → List (Nat × Byte)
  | _, [] => []
  | _, .select n :: es => deliveries1 n es
  | sel, .byte b :: es => (sel, b) :: deliveries1 sel es
  | sel, _ :: es => deliveries1 sel es

/-- What the chips receive according to a Level-2 trace (43 R202): the chain shifts on a rising edge
of STB, and on a rising edge of CLK the selected chips sample the data lines. -/
def deliveries2 (n : Nat) : Nat → Pins → List Event → List (Nat × Byte)
  | _, _, [] => []
  | sel, p, .pin .ser v :: es => deliveries2 n sel { p with ser := v } es
  | sel, p, .pin .stb v :: es =>
    deliveries2 n (if v && !p.stb then shiftChain n sel p.ser else sel) { p with stb := v } es
  | sel, p, .pin .clk v :: es =>
    if v && !p.clk then (sel, p.d) :: deliveries2 n sel { p with clk := v } es
    else deliveries2 n sel { p with clk := v } es
  | sel, p, .data b :: es => deliveries2 n sel { p with d := b } es
  | sel, p, _ :: es => deliveries2 n sel p es

/-- What a reader of a trace follows: the set that is selected, the set of the last `Byte` or `Select`
shown, and, at Level 2, the levels of the pins (43 R205). -/
structure Reader where
  sel : Nat
  shown : Nat
  pins : Pins
  deriving DecidableEq, Repr

/-- The pins after reset (10_state.md R41). -/
def Pins.low : Pins := ⟨false, false, false, 0⟩

/-- A reader at the start of a trace, with any chain content (R205 "starting from any value"). -/
def Reader.start (sel : Nat) : Reader := ⟨sel, sel, Pins.low⟩

/-- A byte is read: a `Select` goes before it where the set has changed since the last one shown. -/
def Reader.byte (r : Reader) (b : Byte) : Reader × List Event :=
  ({ r with shown := r.sel }, (if r.sel = r.shown then [] else [.select r.sel]) ++ [.byte b])

/-- One event of Level 2, folded (R205): the chain shifts on a rising edge of STB (R202), a rising edge
of CLK is a `Byte` of the data lines, and `Pin`, `Data` and `Hold` events are dropped. After a halt
only the restart comes, which puts every pin to 0 (60_exceptions.md R246, 70 R270). -/
def Reader.fold (n : Nat) (r : Reader) : Event → Reader × List Event
  | .pin .ser v => ({ r with pins := { r.pins with ser := v } }, [])
  | .pin .stb v =>
    ({ r with
        sel := if v && !r.pins.stb then shiftChain n r.sel r.pins.ser else r.sel
        pins := { r.pins with stb := v } }, [])
  | .pin .clk v =>
    if v && !r.pins.clk then
      ({ (r.byte r.pins.d).1 with pins := { r.pins with clk := v } }, (r.byte r.pins.d).2)
    else ({ r with pins := { r.pins with clk := v } }, [])
  | .data b => ({ r with pins := { r.pins with d := b } }, [])
  | .hold _ => (r, [])
  | .halt c => ({ r with pins := Pins.low }, [.halt c])
  | e => (r, [e])

/-- One event of Level 1, read up to what R205 leaves free: holds, and a `Select` that no byte follows
or that selects the same set again. -/
def Reader.plain (r : Reader) : Event → Reader × List Event
  | .select set => ({ r with sel := set }, [])
  | .byte b => r.byte b
  | .hold _ => (r, [])
  | e => (r, [e])

/-- A whole trace read with one of the two. -/
def Reader.run (f : Reader → Event → Reader × List Event) (r : Reader) :
    List Event → Reader × List Event
  | [] => (r, [])
  | e :: es => ((run f (f r e).1 es).1, (f r e).2 ++ (run f (f r e).1 es).2)

/-- The two levels of the output trace agree (R192, R205): for some chain content at the start, the
Level-2 trace folds to the Level-1 trace, up to holds and repeated `Select` events, and leaves the
chain, the pins (all 0 to come after a halt) and the set shown last as State has them. -/
def LevelsAgree (s : State) : Prop :=
  ∃ sel : Nat,
    (Reader.run (Reader.fold s.cfg.nchip) (.start sel) s.pinTrace).2 =
      (Reader.run Reader.plain (.start sel) s.trace).2 ∧
    (Reader.run (Reader.fold s.cfg.nchip) (.start sel) s.pinTrace).1 =
      ⟨s.sel, (Reader.run Reader.plain (.start sel) s.trace).1.shown,
        if s.status = .run then s.pins else Pins.low⟩ ∧
    (Reader.run Reader.plain (.start sel) s.trace).1.sel = s.selShown

/-- How many `Byte` events a trace holds (43 R191, 44 R231). -/
def byteCount (es : List Event) : Nat :=
  es.countP fun e => match e with | .byte _ => true | _ => false

/-- How many microseconds of holds a trace asks for (43 R203). -/
def holdTime : List Event → Nat
  | [] => 0
  | .hold n :: es => n + holdTime es
  | _ :: es => holdTime es

/-- The instructions issued by HOST that have an operation number below FLUSH's (30_encoding.md R92):
PLOAD to SETNOTE. -/
def isSetting : Instr → Bool
  | .pload _ _ | .setDual _ | .trig _ _ | .rel _ | .clri _ | .fade _ _ _ _ _ | .setWave _ _
  | .setDuty _ _ | .setFreq _ _ | .setAmp _ _ | .setPan _ _ | .setCut _ _ | .setRes _ _
  | .setLink _ _ | .setNote _ _ => true
  | _ => false

/-- The channel operand of an operation that has one (R93). -/
def channelOperand : Instr → Option Nat
  | .trig c _ | .rel c | .clri c | .fade c _ _ _ _ | .setWave c _ | .setDuty c _ | .setFreq c _
  | .setAmp c _ | .setPan c _ | .setCut c _ | .setRes c _ | .setLink c _ | .setNote c _ => some c
  | _ => none

/-- `m` calls of `advance` in a row from given cursors, the first value being that of the point the
cursor stands at (41_envelope_engine.md R144, R153). -/
def advanceRun (r : RoundMode) (e : Envelope) (released : Bool) (t i : Nat) : Nat → Nat × Nat × Int
  | 0 => (t, i, Envelope.y e i)
  | m + 1 =>
    advance r e (advanceRun r e released t i m).1 (advanceRun r e released t i m).2.1 released

/-- The ticks of an envelope's points from `a` to `b` rise strictly. -/
def strictBetween (e : Envelope) (a b : Nat) : Prop :=
  ∀ j, a ≤ j → j < b → Envelope.x e j < Envelope.x e (j + 1)

/-- A wire command of class `k` waits for every chip of Channel `c`, and the flags say so (42 R170,
R171). -/
def Queued (s t : State) (c : Nat) (k : SlotClass) (b0 b1 : Byte) : Prop :=
  (∀ p ∈ s.chips c, t.slotAt p k = some (b0, b1)) ∧ t.dirty.get k = true ∧ t.changed = true

/-- The W.VOL commands of amplitude `a` and pan `p` wait for the chips of Channel `c` (42 R174): one
chip in plain mode, the left and the right chip, each with its own amplitude, in dual mode. -/
def VolumeQueued (s t : State) (c : Nat) (a p : ℚ) : Prop :=
  t.dirty.get .vol = true ∧ t.changed = true ∧
  (s.dual = false → ∃ b : Byte, t.slotAt c .vol = some (b, 0) ∧
    (b.toNat : Int) = 64 * s.cfg.layout.cls.vol.toNat + (a * 63).floor) ∧
  (s.dual = true → ∃ l r : Byte,
    t.slotAt (s.cfg.chipL.getD c 0) .vol = some (l, 0) ∧
    t.slotAt (s.cfg.chipR.getD c 0) .vol = some (r, 0) ∧
    (l.toNat : Int) = 64 * s.cfg.layout.cls.vol.toNat + ((panLaw a p).1 * 63).floor ∧
    (r.toNat : Int) = 64 * s.cfg.layout.cls.vol.toNat + ((panLaw a p).2 * 63).floor)

/-- The three filter commands of cutoff `hz` and resonance `r` wait for every chip of Channel `c`
(42 R176): each first byte is the PARAM class and the parameter's selector. -/
def FilterQueued (s t : State) (c hz : Nat) (r : ℚ) : Prop :=
  ∃ a0 b0 g0 : Byte,
    Queued s t c .alpha a0 (alphaByte s.cfg hz) ∧
    Queued s t c .beta b0 (betaCoefficient s.cfg hz r) ∧
    Queued s t c .gamma g0 (gammaByte s.cfg hz r) ∧
    a0.toNat = 64 * s.cfg.layout.cls.param.toNat + s.cfg.layout.pselAlpha.toNat ∧
    b0.toNat = 64 * s.cfg.layout.cls.param.toNat + s.cfg.layout.pselBeta.toNat ∧
    g0.toNat = 64 * s.cfg.layout.cls.param.toNat + s.cfg.layout.pselGamma.toNat

/-- The W.FREQ command of frequency `f` waits for every chip of Channel `c`: `F14`, saturated at 16383,
its high six bits in the command byte and its low eight in the data byte (30_encoding.md R85, 42
R173). -/
def FrequencyQueued (s t : State) (c : Nat) (f : Int) : Prop :=
  ∃ b0 b1 : Byte, Queued s t c .freq b0 b1 ∧
    (b0.toNat : Int) =
      64 * s.cfg.layout.cls.freq.toNat + min ((f : ℚ) * s.cfg.freqMult).floor 16383 / 256 ∧
    (b1.toNat : Int) = min ((f : ℚ) * s.cfg.freqMult).floor 16383 % 256

/-- A W.WAVE command of wave type `w` and duty `d` waits for every chip of Channel `c` (42 R172). -/
def WaveQueued (s t : State) (c : Nat) (w : WaveType) (d : ℚ) : Prop :=
  ∃ b0 b1 : Byte, Queued s t c .wave b0 b1 ∧
    b0.toNat = 64 * s.cfg.layout.cls.wave.toNat + (s.cfg.layout.waveCode.get w).toNat ∧
    (b1.toNat : Int) = (d * 255).floor

/-- The Level-1 events of a wire command to the selected chips (43 R196). -/
def commandEvents (g : Cfg) (k : CmdClass) (b0 b1 : Byte) : List Event :=
  if g.layout.hasData.get k then [.byte b0, .byte b1] else [.byte b0]

/-- The Level-1 events of RESET_SEQ or BOOT_ENTRY_SEQ, every chip selected throughout, from the level of
CLK and the data lines: its bytes and holds, and a byte for each rising edge of CLK (44 R220, 43
R205). -/
def sequenceEvents (clk : Bool) (d : Byte) : List WireEvent → List Event
  | [] => []
  | .byte b :: es => .byte b :: sequenceEvents false b es
  | .pin .clk v :: es => (if v && !clk then [.byte d] else []) ++ sequenceEvents v d es
  | .pin .ser _ :: es => sequenceEvents clk d es
  | .pin .stb _ :: es => sequenceEvents clk d es
  | .data b :: es => sequenceEvents clk b es
  | .hold n :: es => .hold n :: sequenceEvents clk d es

/-- TICK runs the encoder of track `k` of a Channel that plays Patch `p`: the track has points, or its
static value has not been written yet (41_envelope_engine.md R142, R143, R149). -/
def evaluated (p : Patch) (x : Channel) (k : Track) : Prop :=
  0 < Envelope.count (p.env.get k) ∨ x.tick.get k = 0

/-- TICK from `s` to `t` writes the slots of class `k` of Channel `c`: a track of that class is
evaluated, or the note ends (WAVE), or the Channel fades (VOL) (41 R143, R149 to R151). -/
def TickWrites (s t : State) (c : Nat) (k : SlotClass) : Prop :=
  (∃ i, (s.chan c).instrument = some i ∧
    match k with
    | .wave => evaluated (s.patchAt i) (s.chan c) .duty ∨ (t.chan c).instrument = none
    | .freq => evaluated (s.patchAt i) (s.chan c) .frequency
    | .vol => evaluated (s.patchAt i) (s.chan c) .volume ∨
        (s.dual = true ∧ evaluated (s.patchAt i) (s.chan c) .pan)
    | .alpha | .beta | .gamma => evaluated (s.patchAt i) (s.chan c) .cutoff ∨
        evaluated (s.patchAt i) (s.chan c) .resonance) ∨
  ((s.chan c).instrument = none ∧ (s.chan c).fadeLength ≠ 0 ∧ k = .vol)

/-- The `Done` events of a TICK from `s` to `t`, Channels ascending (10_state.md R37, 41 R141). -/
def tickDones (s t : State) : List Event :=
  (List.range s.chans).flatMap fun c =>
    if (s.chan c).instrument.isSome ∧ (t.chan c).instrument = none then [.done c .envEnd]
    else if (s.chan c).fadeLength ≠ 0 ∧ (t.chan c).fadeLength = 0 then [.done c .fadeEnd]
    else []

/-- The Level-1 events of one row of REPROG: 36 bytes and the inter-row hold (44 R226, R227). -/
def rowEvents (g : Cfg) (buf : WordBuf) (a : Nat) : List Event :=
  (frameBytes g.frameLen (BitVec.ofNat 16 a) g.writeFlag (rowWords buf a)).map Event.byte ++
    [.hold g.tRowUs]

end Sys2Proof.Machine
end

