-- ==== Sys2Proof/Certificates/Slice0/Obligations.lean ====
section
/-! DEFINITION. The statements for the provers. -/

open Sys2Proof Sys2Proof.Machine Host

/-- For every configuration that meets the constraints of R5, the state after reset satisfies Inv
(array sizes, I1, I2, I3, I5 of R40, chain width, idle strobes, lock not with the engine), and its
Level-2 trace folds to its Level-1 trace; so does State.reset itself. The reset values R41 leaves
open are the model's choice (logs 3, 4, 5, 29), and Inv does not depend on which they are within
their ranges. (10_state.md R40, 10_state.md R41, 43_flush_and_transport.md R205.) -/
def Obligations.InvariantHoldsAtBoot : Prop :=
  (∀ g : Cfg, g.wf → Inv (State.boot g) ∧ LevelsAgree (State.boot g)) ∧
  Inv State.reset ∧ LevelsAgree State.reset

/-- After reset every Channel has no instrument, is not released, has all cursors 0 and no fade, and
its parameter registers and note are CH_DEFAULT; the bank is DEFAULT_BANK; every slot is empty and
every flag 0; dual is 0, the lock free, all pins 0; with the board check passed the status is RUN
and the trace empty, with it failed the status is HALT and the trace is Halt(board_rev) alone, at
both levels. That the period timer stands at the counter's value is the model's choice (log 29),
and so is that no byte needs a Select before the first strobe (log 18) and that no Channel carries
the mark of a replaced Patch (log 13). The values that logs 4 and 5 choose are not spoken of.
(10_state.md R41, 70_reset_and_hazards.md R270, 70_reset_and_hazards.md R271.) -/
def Obligations.BootLeavesResetValues : Prop :=
  ∀ g : Cfg,
    (∀ c < g.nchip,
      ((State.boot g).chan c).instrument = none ∧ ((State.boot g).chan c).released = false ∧
      (∀ k, ((State.boot g).chan c).tick.get k = 0 ∧ ((State.boot g).chan c).point.get k = 0) ∧
      ((State.boot g).chan c).fadeLength = 0 ∧ ((State.boot g).chan c).linked = none ∧
      ((State.boot g).chan c).waveType = g.chDefault.waveType ∧
      ((State.boot g).chan c).duty = g.chDefault.duty ∧
      ((State.boot g).chan c).frequency = g.chDefault.frequency ∧
      ((State.boot g).chan c).amplitude = g.chDefault.amplitude ∧
      ((State.boot g).chan c).pan = g.chDefault.pan ∧
      ((State.boot g).chan c).cutoff = g.chDefault.cutoff ∧
      ((State.boot g).chan c).resonance = g.chDefault.resonance ∧
      ((State.boot g).chan c).note = g.chDefault.note ∧
      ((State.boot g).chan c).reloaded = false) ∧
    (State.boot g).ch.length = g.nchip ∧
    (State.boot g).patch = g.defaultBank ∧
    (∀ p k, (State.boot g).slotAt p k = none) ∧
    (∀ k, (State.boot g).dirty.get k = false) ∧ (State.boot g).changed = false ∧
    (State.boot g).dual = false ∧ (State.boot g).lock = .free ∧
    (State.boot g).pins = ⟨false, false, false, 0⟩ ∧
    (g.boardRevOk = true → (State.boot g).status = .run ∧ (State.boot g).trace = [] ∧
      (State.boot g).pinTrace = []) ∧
    (g.boardRevOk = false →
      (State.boot g).status = .halt ∧ (State.boot g).trace = [.halt .boardRev] ∧
      (State.boot g).pinTrace = [.halt .boardRev]) ∧
    (State.boot g).nextTick = (State.boot g).now ∧ (State.boot g).selShown = (State.boot g).sel

/-- In HALT the step is the watchdog restart: every field of the block is as after power-on under the
same configuration, while the select chain and both traces are kept (the traces gain
Halt(board_rev) when the board check fails, and then the status is HALT again). That the counter
and the sections to come are kept is the model's choice (log 17), and so is that the period timer
then stands at the counter's value (log 29) and that the set shown last, which belongs to the
traces, is kept (log 18). (60_exceptions.md R247, 70_reset_and_hazards.md R270.) -/
def Obligations.WatchdogRestartsFromHalt : Prop :=
  ∀ s : State, s.status = .halt →
    ∃ t, step s = .next t ∧
      t.cfg = s.cfg ∧ t.ch = (State.boot s.cfg).ch ∧ t.patch = s.cfg.defaultBank ∧
      t.slot = (State.boot s.cfg).slot ∧ t.dirty = PerClass.all false ∧ t.changed = false ∧
      t.lock = .free ∧ t.dual = false ∧ t.pins = ⟨false, false, false, 0⟩ ∧ t.batch = [] ∧
      t.status = (if s.cfg.boardRevOk then .run else .halt) ∧
      t.sel = s.sel ∧ t.selShown = s.selShown ∧ t.now = s.now ∧ t.nextTick = s.now ∧ t.agenda = s.agenda ∧
      t.trace = s.trace ++ (if s.cfg.boardRevOk then [] else [.halt .boardRev]) ∧
      t.pinTrace = s.pinTrace ++ (if s.cfg.boardRevOk then [] else [.halt .boardRev])

/-- No instruction has an effect in HALT; no instruction but TICK has one unless HOST holds the lock;
TICK has none unless the lock is free. The state is then unchanged (log 22 for what exec answers).
(40_host_operations.md R126, 60_exceptions.md R246, 60_exceptions.md R249, 60_exceptions.md R256.) -/
def Obligations.NothingRunsWithoutRunAndLock : Prop :=
  (∀ i s, s.status = .halt → exec i s = .next s) ∧
  (∀ i s, s.lock ≠ .host → (∀ now, i ≠ .tick now) → exec i s = .next s) ∧
  (∀ now s, s.lock ≠ .free → exec (.tick now) s = .next s)

/-- When the block runs and the next packet (of the host section in progress, or the engine's next
section) decodes to an instruction i, its operands in their domains or not, the step is exec of i
in the state with that packet taken. A TICK of the agenda begins no earlier than the end of the
engine's sleep: it is run at the later of its operand and the period timer. Batch and agenda are
the model's scheduler (log 6), and so is the instant at which a TICK offered early begins (log
16). (60_exceptions.md R249, 60_exceptions.md R250, 30_encoding.md R92, 41_envelope_engine.md
R152, 60_exceptions.md R256.) -/
def Obligations.StepRunsDecodedInstruction : Prop :=
  (∀ (s : State) (p : Packet) (rest : List Packet) (i : Instr),
    s.status = .run → s.lock = .host → s.batch = p :: rest → decode s.cfg p = .ok i →
    step s = exec i { s with batch := rest }) ∧
  (∀ (s : State) (p : Packet) (rest : List Section) (i : Instr),
    s.status = .run → s.lock = .free → s.agenda = .engine p :: rest → decode s.cfg p = .ok i →
    (∀ now, i ≠ .tick now) → step s = exec i { s with agenda := rest }) ∧
  (∀ (s : State) (p : Packet) (rest : List Section) (now : Time),
    s.status = .run → s.lock = .free → s.agenda = .engine p :: rest →
    decode s.cfg p = .ok (.tick now) →
    step s = exec (.tick (if now ≤ s.nextTick then s.nextTick else now)) { s with agenda := rest })

/-- A transaction with operation number 0x13 to 0xFF is rejected by the decoder by name whatever
operands it carries; one with a lower number decodes or is rejected as having the operands of
another operation (log 10). The step that takes a transaction the decoder rejects changes nothing
but the batch, or the agenda, it was taken from; so does the step that takes an operation from
PLOAD to SETNOTE with an operand outside its domain or a channel not below N. (30_encoding.md R92,
30_encoding.md R94, 40_host_operations.md R126.) -/
def Obligations.ReservedOperationNumbersIgnored : Prop :=
  (∀ (g : Cfg) (n : Byte) (args : List Operand),
    (0x12 < n.toNat → decode g (opPacket n args) = .error (.reservedOperation n)) ∧
    (n.toNat ≤ 0x12 → (∃ i, decode g (opPacket n args) = .ok i) ∨
      decode g (opPacket n args) = .error (.badOperands n))) ∧
  (∀ (s : State) (p : Packet) (e : DecodeError) (rest : List Packet),
    s.status = .run → s.lock = .host → s.batch = p :: rest → p.lane = .op →
    decode s.cfg p = .error e → step s = .next { s with batch := rest }) ∧
  (∀ (s : State) (p : Packet) (e : DecodeError) (rest : List Section),
    s.status = .run → s.lock = .free → s.agenda = .engine p :: rest → p.lane = .op →
    decode s.cfg p = .error e → step s = .next { s with agenda := rest }) ∧
  (∀ (s : State) (p : Packet) (i : Instr) (rest : List Packet),
    s.status = .run → s.lock = .host → s.batch = p :: rest → decode s.cfg p = .ok i →
    (isSetting i = true ∧ i.wellFormed s.cfg = false ∨
      ∃ c, channelOperand i = some c ∧ s.chans ≤ c) →
    step s = .next { s with batch := rest })

/-- When the lock is free and a host section is next, the step gives the lock to HOST with that
section's packets; when HOST holds the lock and no packet of its section is left, the step frees
the lock. Nothing else changes. (60_exceptions.md R249, 60_exceptions.md R250, 10_state.md R33.) -/
def Obligations.CriticalSectionsTakeAndGiveTheLock : Prop :=
  (∀ (s : State) (ops : List Packet) (rest : List Section),
    s.status = .run → s.lock = .free → s.agenda = .host ops :: rest →
    step s = .next { s with lock := .host, batch := ops, agenda := rest }) ∧
  (∀ s : State, s.status = .run → s.lock = .host → s.batch = [] →
    step s = .next { s with lock := .free })

/-- When the block runs, the lock is free and nothing is scheduled, the step is TICK at the end of the
period, whatever time a host operation has read from the counter meanwhile. A TICK that is
scheduled begins at a time that is not before its operand or the end of the period, and is one of
them. A TICK that runs lets the next begin 10 000 microseconds after its own start, or at the
counter's value known before it had the lock if that is later (an iteration that overran). That
the idle step is the engine's TICK, when a TICK offered early begins, and what is known of the end
of an iteration are the model's choice (log 16). (41_envelope_engine.md R152, 60_exceptions.md
R256.) -/
def Obligations.EngineTicksOncePerPeriod : Prop :=
  (∀ s : State, s.status = .run → s.lock = .free → s.agenda = [] →
    step s = exec (.tick s.nextTick) s) ∧
  (∀ (s : State) (p : Packet) (rest : List Section) (now : Time),
    s.status = .run → s.lock = .free → s.agenda = .engine p :: rest →
    decode s.cfg p = .ok (.tick now) →
    ∃ start : Time, step s = exec (.tick start) { s with agenda := rest } ∧
      now ≤ start ∧ s.nextTick ≤ start ∧ (start = now ∨ start = s.nextTick)) ∧
  (∀ (s t : State) (now : Time), s.status = .run → s.lock = .free → now.toNat + 10000 < 2 ^ 64 →
    exec (.tick now) s = .next t → t.nextTick.toNat = max (now.toNat + 10000) s.now.toNat)

/-- For every configuration that meets its constraints, every layout a receiver can read, and every
well-formed instruction of all 32 rows, decode of encode is that instruction: no operand and no
bit is dropped. (30_encoding.md R80, 30_encoding.md R82, 30_encoding.md R84, 30_encoding.md R85,
30_encoding.md R86, 30_encoding.md R87, 30_encoding.md R88, 30_encoding.md R92, 30_encoding.md
R95, 43_flush_and_transport.md R199.) -/
def Obligations.DecodeEncodeRoundTrip : Prop :=
  ∀ (g : Cfg) (i : Instr), g.wf → g.layout.readable → i.wellFormed g = true →
    decode g (encode g i) = .ok i

/-- Square with duty byte 7F is 05 7F; 440 Hz is 41 B8; full volume is BF; the beta byte FE is
magnitude 63 with the sign flag; SETAMP is operation 0x0A; all ones select every chip; the
terminating frame and the status packet are their own words. That a word without a format is read
in the first lane that has a row with its bits (0x0A and BF are also single bytes), and that an
operation number stands for zero operands, are the model's choice (logs 8 and 7). (30_encoding.md
R84, 30_encoding.md R85, 30_encoding.md R86, 30_encoding.md R87, 30_encoding.md R88,
30_encoding.md R92, 30_encoding.md R96.) -/
def Obligations.TableWordsDecode : Prop :=
  decodeTableWord 16 0x057F = some (.wWave 5 0x7F) ∧
  decodeTableWord 16 0x41B8 = some (.wFreq 440) ∧
  decodeTableWord 8 0xBF = some (.wVol 63) ∧
  decodeTableWord 16 0xC001 = some (.wAlpha 1) ∧
  decodeTableWord 16 0xC1FE = some (.wBeta 63 true false) ∧
  decodeTableWord 16 0xC23F = some (.wGamma 0x3F) ∧
  decodeTableWord 8 0x0A = some (.setAmp 0 0) ∧
  decodeTableWord 16 0xFFFF = some .broadcast ∧
  decodeTableWord 32 0x00000000 = some .termFrame ∧
  decodeTableWord 32 0x0FFF0000 = some .statusPkt

/-- From every state with Inv, if the step answers a next state then Inv holds there: the arrays keep
their sizes, a live Channel has no fade (I1), changed is the or of the dirty flags (I2), a pending
slot's class is dirty (I3), every register stays in its range (I5), the chain keeps its width, and
in RUN the strobes rest at 0. (10_state.md R40, 42_parameter_encoders.md R170,
43_flush_and_transport.md R190, 43_flush_and_transport.md R197.) -/
def Obligations.StepKeepsInvariant : Prop :=
  ∀ s t : State, Inv s → step s = .next t → Inv t

/-- Invariant I4: from every state with Inv in which the cursors of every live Channel fit its Patch,
every instruction other than PLOAD that answers a next state leaves a state in which they fit. The
tick clause is not asked of the cursors TRIG left on an envelope of one point that no PLOAD has
replaced since (log 13). (10_state.md R40, 40_host_operations.md R112, 41_envelope_engine.md R144,
20_memory.md R71.) -/
def Obligations.ExecKeepsCursorsFit : Prop :=
  ∀ (i : Instr) (s t : State), Inv s → CursorsFit s → (∀ n p, i ≠ .pload n p) →
    exec i s = .next t → CursorsFit t

/-- If a step answers a next state, both levels of the output trace are extended at their end, the
time counter has not decreased, and the configuration is the same. R35 says so of the counter;
what State's counter holds between operations is the model's choice (log 16), and so is that it
goes on through a watchdog restart, where R41 and R254 leave it arbitrary (log 17). (10_state.md
R35, 10_state.md R37, 00_scope.md R10, 10_state.md R39.) -/
def Obligations.StepExtendsHistory : Prop :=
  ∀ s t : State, step s = .next t →
    s.trace <+: t.trace ∧ s.pinTrace <+: t.pinTrace ∧ s.now ≤ t.now ∧ t.cfg = s.cfg

/-- If any instruction other than PLOAD answers a next state, the Patch bank is unchanged.
(10_state.md R27, 40_host_operations.md R110.) -/
def Obligations.OnlyPloadWritesTheBank : Prop :=
  ∀ (i : Instr) (s t : State), (∀ n p, i ≠ .pload n p) → exec i s = .next t → t.patch = s.patch

/-- If any instruction other than SETDUAL answers a next state, dual is unchanged. (10_state.md R34.) -/
def Obligations.OnlySetDualWritesTheMode : Prop :=
  ∀ (i : Instr) (s t : State), (∀ b, i ≠ .setDual b) → exec i s = .next t → t.dual = s.dual

/-- If any instruction answers a next state, every Channel record from N up is as before; in dual mode
these are the records of the upper half. PLOAD may set the model's own mark that a Patch was
replaced (log 13); it is no register of the spec. (10_state.md R20, 70_reset_and_hazards.md R279.) -/
def Obligations.FrozenChannelsAreUntouched : Prop :=
  ∀ (i : Instr) (s t : State) (c : Nat), exec i s = .next t → s.chans ≤ c →
    t.chan c = { s.chan c with reloaded := (t.chan c).reloaded } ∧
    ((∀ n p, i ≠ .pload n p) → t.chan c = s.chan c)

/-- For every operation from PLOAD to SETNOTE, if an operand lies outside the domain its rule states,
or the channel operand is not below N, the state is unchanged. (40_host_operations.md R126,
60_exceptions.md R241, 60_exceptions.md R256.) -/
def Obligations.OutOfDomainOperationsIgnored : Prop :=
  ∀ (i : Instr) (s : State),
    (isSetting i = true ∧ i.wellFormed s.cfg = false ∨
      ∃ c, channelOperand i = some c ∧ s.chans ≤ c) →
    exec i s = .next s

/-- With HOST holding the lock and i at most 127, PLOAD answers the state whose Patch i is P, every
other Patch and every other field as before, whether or not P is well formed or defined; every
Channel keeps its registers and cursors. A Patch equal to the old one changes nothing at all. With
i above 127 it is ignored; its operation number is 0x01. That the Channels which play Patch i
carry a mark when P differs from the old Patch is the model's own bookkeeping and no word of R110
(log 13). (40_host_operations.md R110, 70_reset_and_hazards.md R276.) -/
def Obligations.PloadStoresThePatch : Prop :=
  (∀ (s : State) (i : Fin 128) (p : Patch), HostHolds s →
    ∃ t, exec (.pload i.val p) s = .next t ∧ t = { s with patch := t.patch, ch := t.ch } ∧
      (∀ j : Fin 128, t.patchAt j = if j = i then p else s.patchAt j) ∧
      t.ch.length = s.ch.length ∧
      ∀ c, t.chan c = { s.chan c with
        reloaded := (s.chan c).reloaded ||
          decide ((s.chan c).instrument = some i ∧ s.patchAt i ≠ p) }) ∧
  (∀ (s : State) (i : Fin 128), exec (.pload i.val (s.patchAt i)) s = .next s) ∧
  (∀ (s : State) (i : Nat) (p : Patch), 127 < i → exec (.pload i p) s = .next s) ∧
  (∀ (i : Nat) (p : Patch), decodeOp 0x01 [.index i, .patch p] = .ok (.pload i p))

/-- With HOST holding the lock, b in 0..1 and no Channel live or fading and no slot pending, SETDUAL
answers the state with dual = b and nothing else changed, and N is NCHIP/2 or NCHIP; where b is
the mode already set nothing changes at all. While a Channel is live or fading or a slot pending
it is refused (U5), whichever mode b names (log 14). (40_host_operations.md R111, 10_state.md R20,
60_exceptions.md R256, 70_reset_and_hazards.md R279.) -/
def Obligations.SetDualSwitchesTheIdleBlock : Prop :=
  (∀ (s : State) (b : Int), HostHolds s → (b = 0 ∨ b = 1) →
    (∀ x ∈ s.ch, x.instrument = none ∧ x.fadeLength = 0) → (∀ p k, s.slotAt p k = none) →
    exec (.setDual b) s = .next { s with dual := decide (b = 1) } ∧
    { s with dual := decide (b = 1) : State }.chans =
      (if b = 1 then s.cfg.nchip / 2 else s.cfg.nchip) ∧
    (s.dual = decide (b = 1) → exec (.setDual b) s = .next s)) ∧
  (∀ (s : State) (b : Int), HostHolds s → (b = 0 ∨ b = 1) →
    ((∃ x ∈ s.ch, x.instrument ≠ none ∨ x.fadeLength ≠ 0) ∨ ∃ p k, s.slotAt p k ≠ none) →
    exec (.setDual b) s = .refused .dualChangeWhileBusy)

/-- With HOST holding the lock, c below N and Patch i defined, TRIG sets instrument, clears all twelve
cursors, released and the fade length, copies the wave type, leaves every other register of the
Channel, and queues W.WAVE with the Channel's duty; nothing else changes but the model's mark of a
replaced Patch, which is cleared (log 13). A Patch that is not defined is refused (U14).
(40_host_operations.md R112, 42_parameter_encoders.md R172.) -/
def Obligations.TrigInstallsThePatch : Prop :=
  (∀ (s : State) (c : Nat) (i : Fin 128), Inv s → HostHolds s → c < s.chans →
    Patch.defined (s.patchAt i) = true →
    ∃ t, exec (.trig c i.val) s = .next t ∧
      t.chan c =
        { s.chan c with
          instrument := some i, tick := PerTrack.all 0, point := PerTrack.all 0,
          released := false, fadeLength := 0, waveType := (s.patchAt i).waveType,
          reloaded := false } ∧
      WaveQueued s t c (s.patchAt i).waveType (s.chan c).duty ∧
      OnlyWrites s t c (s.chips c) [.wave]) ∧
  (∀ (s : State) (c : Nat) (i : Fin 128), HostHolds s → c < s.chans →
    Patch.defined (s.patchAt i) = false → exec (.trig c i.val) s = .refused .patchNotDefined)

/-- On a live Channel REL sets released and changes nothing else; on a Channel that is not live it
sets the amplitude to 0 and queues W.VOL of silence for the Channel's chips, leaving a fade
active. (40_host_operations.md R113, 42_parameter_encoders.md R174.) -/
def Obligations.RelReleasesOrSilences : Prop :=
  (∀ (s : State) (c : Nat), Inv s → HostHolds s → c < s.chans → (s.chan c).instrument ≠ none →
    ∃ t, exec (.rel c) s = .next t ∧ t.chan c = { s.chan c with released := true } ∧
      OnlyWrites s t c [] []) ∧
  (∀ (s : State) (c : Nat), Inv s → HostHolds s → c < s.chans → (s.chan c).instrument = none →
    ∃ t, exec (.rel c) s = .next t ∧ t.chan c = { s.chan c with amplitude := 0 } ∧
      VolumeQueued s t c 0 (s.chan c).pan ∧ OnlyWrites s t c (s.chips c) [.vol])

/-- With HOST holding the lock and c below N, CLRI answers the state in which the Channel has no
instrument, its cursors, released and all other registers as before, nothing queued, no flag set
and no event emitted; on a Channel that is not live nothing changes; c not below N is ignored; its
operation number is 0x05. A TICK that follows leaves a Channel with neither instrument nor fade as
it is. (R114.) -/
def Obligations.ClriClearsTheInstrument : Prop :=
  (∀ (s : State) (c : Nat), Inv s → HostHolds s → c < s.chans →
    ∃ t, exec (.clri c) s = .next t ∧ t.chan c = { s.chan c with instrument := none } ∧
      OnlyWrites s t c [] [] ∧ t.dirty = s.dirty ∧ t.slot = s.slot) ∧
  (∀ (s : State) (c : Nat), Inv s → (s.chan c).instrument = none → exec (.clri c) s = .next s) ∧
  (∀ (s : State) (c : Nat), s.chans ≤ c → exec (.clri c) s = .next s) ∧
  (∀ c : Nat, decodeOp 0x05 [.index c] = .ok (.clri c)) ∧
  (∀ (s t : State) (c : Nat) (now : Time), Inv s → (s.chan c).instrument = none →
    (s.chan c).fadeLength = 0 → exec (.tick now) s = .next t → t.chan c = s.chan c)

/-- With operands in their domains FADE clears the instrument, stores init, now, len and dir, leaves
the amplitude and every other register, queues nothing; the time counter does not fall below the
operand now (log 16). That init is stored through Quant, as R126 has every store but R115 does not
spell out, is the model's reading (log 26). Operands outside are ignored. (40_host_operations.md
R115, 40_host_operations.md R126, 10_state.md R23, 10_state.md R35.) -/
def Obligations.FadeArmsAFade : Prop :=
  (∀ (s : State) (c : Nat) (init : ℚ) (len dir : Int) (now : Time), Inv s → HostHolds s →
    c < s.chans → inUnit init → 1 ≤ len → len ≤ 4294967295 → (dir = -1 ∨ dir = 1) →
    ∃ t, exec (.fade c init len dir now) s = .next t ∧
      t.chan c =
        { s.chan c with
          instrument := none, fadeInit := quantise s.cfg init, fadeStart := now,
          fadeLength := BitVec.ofInt 32 len, fadeDir := if dir = 1 then .up else .down } ∧
      ((t.chan c).fadeLength.toNat : Int) = len ∧ t.dirty = s.dirty ∧ t.slot = s.slot ∧
      OnlyWrites { s with now := if s.now ≤ now then now else s.now } t c [] []) ∧
  (∀ (s : State) (c : Nat) (init : ℚ) (len dir : Int) (now : Time),
    (s.chans ≤ c ∨ init < 0 ∨ 1 < init ∨ len ≤ 0 ∨ 4294967295 < len ∨ (dir ≠ -1 ∧ dir ≠ 1)) →
    exec (.fade c init len dir now) s = .next s)

/-- With HOST holding the lock and c below N, SETWAVE stores w and queues the W.WAVE command of w and
the Channel's duty for its chips, raising dirty[WAVE] and changed and nothing else; c not below N
is ignored; its operation number is 0x07. (R116.) -/
def Obligations.SetWaveQueuesTheWave : Prop :=
  (∀ (s : State) (c : Nat) (w : WaveType), Inv s → HostHolds s → c < s.chans →
    ∃ t, exec (.setWave c w) s = .next t ∧ t.chan c = { s.chan c with waveType := w } ∧
      WaveQueued s t c w (s.chan c).duty ∧
      OnlyWrites s t c (s.chips c) [.wave]) ∧
  (∀ (s : State) (c : Nat) (w : WaveType), (s.chans ≤ c) → exec (.setWave c w) s = .next s) ∧
  (∀ (c : Nat) (w : WaveType), decodeOp 0x07 [.index c, .wave w] = .ok (.setWave c w))

/-- With HOST holding the lock, c below N and d in 0..1, SETDUTY stores d (through Quant) and queues
W.WAVE with the Channel's wave type, whichever it is; a duty outside 0..1 or a c not below N is
ignored; its operation number is 0x08. (R117.) -/
def Obligations.SetDutyQueuesTheWave : Prop :=
  (∀ (s : State) (c : Nat) (d : ℚ), Inv s → HostHolds s → c < s.chans → inUnit d →
    ∃ t, exec (.setDuty c d) s = .next t ∧ t.chan c = { s.chan c with duty := quantise s.cfg d } ∧
      WaveQueued s t c (s.chan c).waveType (quantise s.cfg d) ∧
      OnlyWrites s t c (s.chips c) [.wave]) ∧
  (∀ (s : State) (c : Nat) (d : ℚ), (s.chans ≤ c ∨ d < 0 ∨ 1 < d) → exec (.setDuty c d) s = .next s) ∧
  (∀ (c : Nat) (d : ℚ), decodeOp 0x08 [.index c, .rat d] = .ok (.setDuty c d))

/-- With HOST holding the lock, c below N and f in 0..65535, SETFREQ stores f and queues W.FREQ with
F14 = min(floor(f*FREQ_MULT), 16383), high six bits in the command byte and low eight in the data
byte; outside, it is ignored; its operation number is 0x09. (R118.) -/
def Obligations.SetFreqQueuesTheFrequency : Prop :=
  (∀ (s : State) (c : Nat) (f : Int), Inv s → HostHolds s → c < s.chans → 0 ≤ f → f ≤ 65535 →
    ∃ t, exec (.setFreq c f) s = .next t ∧ t.chan c = { s.chan c with frequency := BitVec.ofInt 16 f } ∧
      ((t.chan c).frequency.toNat : Int) = f ∧
      FrequencyQueued s t c f ∧
      OnlyWrites s t c (s.chips c) [.freq]) ∧
  (∀ (s : State) (c : Nat) (f : Int), (s.chans ≤ c ∨ f < 0 ∨ 65535 < f) → exec (.setFreq c f) s = .next s) ∧
  (∀ (c : Nat) (f : Int), decodeOp 0x09 [.index c, .int f] = .ok (.setFreq c f))

/-- With HOST holding the lock, c below N and a in 0..1, SETAMP stores a (through Quant) and queues
W.VOL with floor(a*63) for the Channel's chip, or with each chip's own amplitude in dual mode;
outside, it is ignored; its operation number is 0x0A. On a fading Channel the next TICK overwrites
the amplitude (stated by TickFadesChannels). (R119.) -/
def Obligations.SetAmpQueuesTheVolume : Prop :=
  (∀ (s : State) (c : Nat) (a : ℚ), Inv s → HostHolds s → c < s.chans → inUnit a →
    ∃ t, exec (.setAmp c a) s = .next t ∧ t.chan c = { s.chan c with amplitude := quantise s.cfg a } ∧
      VolumeQueued s t c (quantise s.cfg a) (s.chan c).pan ∧
      OnlyWrites s t c (s.chips c) [.vol]) ∧
  (∀ (s : State) (c : Nat) (a : ℚ), (s.chans ≤ c ∨ a < 0 ∨ 1 < a) → exec (.setAmp c a) s = .next s) ∧
  (∀ (c : Nat) (a : ℚ), decodeOp 0x0A [.index c, .rat a] = .ok (.setAmp c a))

/-- With HOST holding the lock, c below N and p in -1..1: SETPAN stores p (through Quant); in plain
mode nothing else changes; in dual mode the two W.VOL commands are queued with the new pan.
Outside its domain it is ignored; its operation number is 0x0B. (R120.) -/
def Obligations.SetPanQueuesOnlyInDualMode : Prop :=
  (∀ (s : State) (c : Nat) (p : ℚ), Inv s → HostHolds s → c < s.chans → inSigned p →
    s.dual = false →
    ∃ t, exec (.setPan c p) s = .next t ∧ t.chan c = { s.chan c with pan := quantise s.cfg p } ∧
      t.dirty = s.dirty ∧ t.slot = s.slot ∧ OnlyWrites s t c [] []) ∧
  (∀ (s : State) (c : Nat) (p : ℚ), Inv s → HostHolds s → c < s.chans → inSigned p →
    s.dual = true →
    ∃ t, exec (.setPan c p) s = .next t ∧ t.chan c = { s.chan c with pan := quantise s.cfg p } ∧
      VolumeQueued s t c (s.chan c).amplitude (quantise s.cfg p) ∧
      OnlyWrites s t c (s.chips c) [.vol]) ∧
  (∀ (s : State) (c : Nat) (p : ℚ), (s.chans ≤ c ∨ p < -1 ∨ 1 < p) →
    exec (.setPan c p) s = .next s) ∧
  (∀ (c : Nat) (p : ℚ), decodeOp 0x0B [.index c, .rat p] = .ok (.setPan c p))

/-- With HOST holding the lock, c below N and hz in 0..CUTOFF_MAX, SETCUT stores hz and queues
W.ALPHA, W.BETA and W.GAMMA computed from hz and the Channel's resonance; at CUTOFF_MAX alpha is
255 and gamma 0; outside, it is ignored; its operation number is 0x0C. (R121.) -/
def Obligations.SetCutQueuesTheFilter : Prop :=
  (∀ (s : State) (c : Nat) (hz : Int), Inv s → HostHolds s → c < s.chans → 0 ≤ hz → hz ≤ s.cfg.cutoffMax →
    ∃ t, exec (.setCut c hz) s = .next t ∧ t.chan c = { s.chan c with cutoff := BitVec.ofInt 16 hz } ∧
      ((t.chan c).cutoff.toNat : Int) = hz ∧
      (hz = s.cfg.cutoffMax →
        alphaByte s.cfg hz.toNat = 255 ∧ gammaByte s.cfg hz.toNat (s.chan c).resonance = 0) ∧
      FilterQueued s t c hz.toNat (s.chan c).resonance ∧
      OnlyWrites s t c (s.chips c) [.alpha, .beta, .gamma]) ∧
  (∀ (s : State) (c : Nat) (hz : Int), (s.chans ≤ c ∨ hz < 0 ∨ (s.cfg.cutoffMax : Int) < hz) → exec (.setCut c hz) s = .next s) ∧
  (∀ (c : Nat) (hz : Int), decodeOp 0x0C [.index c, .int hz] = .ok (.setCut c hz))

/-- With HOST holding the lock, c below N and r in 0..1, SETRES stores r (through Quant) and queues
W.ALPHA, W.BETA and W.GAMMA computed from the Channel's cutoff and the new resonance; outside, it
is ignored; its operation number is 0x0D. (R122.) -/
def Obligations.SetResQueuesTheFilter : Prop :=
  (∀ (s : State) (c : Nat) (r : ℚ), Inv s → HostHolds s → c < s.chans → inUnit r →
    ∃ t, exec (.setRes c r) s = .next t ∧ t.chan c = { s.chan c with resonance := quantise s.cfg r } ∧
      FilterQueued s t c (s.chan c).cutoff.toNat (quantise s.cfg r) ∧
      OnlyWrites s t c (s.chips c) [.alpha, .beta, .gamma]) ∧
  (∀ (s : State) (c : Nat) (r : ℚ), (s.chans ≤ c ∨ r < 0 ∨ 1 < r) → exec (.setRes c r) s = .next s) ∧
  (∀ (c : Nat) (r : ℚ), decodeOp 0x0D [.index c, .rat r] = .ok (.setRes c r))

/-- With HOST holding the lock, c below N and l none or below NCHIP, SETLINK stores l and changes
nothing else; another l, or a c not below N, is ignored. (40_host_operations.md R123, 10_state.md
R26.) -/
def Obligations.SetLinkStoresTheLink : Prop :=
  (∀ (s : State) (c : Nat) (l : Option Nat), Inv s → HostHolds s → c < s.chans →
    (∀ x, l = some x → x < s.cfg.nchip) →
    ∃ t, exec (.setLink c l) s = .next t ∧ t.chan c = { s.chan c with linked := l } ∧
      t.dirty = s.dirty ∧ t.slot = s.slot ∧ OnlyWrites s t c [] []) ∧
  (∀ (s : State) (c : Nat) (l : Option Nat),
    (s.chans ≤ c ∨ ∃ x, l = some x ∧ s.cfg.nchip ≤ x) → exec (.setLink c l) s = .next s)

/-- With HOST holding the lock, c below N and n in 0..127, SETNOTE stores n and changes nothing else;
another n, or a c not below N, is ignored. (40_host_operations.md R124, 10_state.md R26.) -/
def Obligations.SetNoteStoresTheNote : Prop :=
  (∀ (s : State) (c : Nat) (n : Int), Inv s → HostHolds s → c < s.chans → 0 ≤ n → n ≤ 127 →
    ∃ t, exec (.setNote c n) s = .next t ∧ ((t.chan c).note.val : Int) = n ∧
      t.chan c = { s.chan c with note := (t.chan c).note } ∧
      t.dirty = s.dirty ∧ t.slot = s.slot ∧ OnlyWrites s t c [] []) ∧
  (∀ (s : State) (c : Nat) (n : Int), (s.chans ≤ c ∨ n < 0 ∨ 127 < n) →
    exec (.setNote c n) s = .next s)

/-- With HOST holding the lock, FLUSH answers a state whose Level-1 trace is the old one followed by
exactly the events of the pending slots, dirty classes ascending and chips ascending; every slot
is empty, every flag 0; no Channel, Patch, mode, lock or counter changes. A second FLUSH then
changes nothing at all. (43_flush_and_transport.md R190, 43_flush_and_transport.md R191,
40_host_operations.md R125, 43_flush_and_transport.md R196.) -/
def Obligations.FlushSendsEveryPendingSlot : Prop :=
  ∀ s : State, Inv s → HostHolds s →
    ∃ t, exec .flush s = .next t ∧ t.trace = s.trace ++ pendingEvents s ∧
      (∀ p k, t.slotAt p k = none) ∧ (∀ k, t.dirty.get k = false) ∧ t.changed = false ∧
      t.cfg = s.cfg ∧ t.ch = s.ch ∧ t.patch = s.patch ∧ t.lock = s.lock ∧ t.dual = s.dual ∧
      t.now = s.now ∧ t.nextTick = s.nextTick ∧ t.status = s.status ∧ t.batch = s.batch ∧
      t.agenda = s.agenda ∧ exec .flush t = .next t

/-- Enqueue on a chip of the queue makes that slot the given pair, sets its class's dirty flag and
changed, leaves every other slot and flag, and replaces what was pending: two writes to one slot
leave the state of the second alone. (42_parameter_encoders.md R170, 20_memory.md R66.) -/
def Obligations.EnqueueCoalesces : Prop :=
  ∀ (s : State) (p : Nat) (k : SlotClass) (a0 a1 b0 b1 : Byte), p < s.slot.length →
    (enqueue p k b0 b1 s).slotAt p k = some (b0, b1) ∧
    (enqueue p k b0 b1 s).dirty.get k = true ∧ (enqueue p k b0 b1 s).changed = true ∧
    (∀ q j, q ≠ p ∨ j ≠ k → (enqueue p k b0 b1 s).slotAt q j = s.slotAt q j) ∧
    (∀ j, j ≠ k → (enqueue p k b0 b1 s).dirty.get j = s.dirty.get j) ∧
    enqueue p k b0 b1 (enqueue p k a0 a1 s) = enqueue p k b0 b1 s

/-- With HOST holding the lock, each of the six wire commands answers a state whose Level-1 trace is
extended by a Select where the chain has changed since the last Byte or Select (R205), the command
byte (class code in bits 7:6, the six low bits) and the data byte of a class that has one; the
select chain and everything but the pins and traces are unchanged. A W.WAVE whose code is that of
no wave type is never emitted: it changes nothing (R94 (e)). That these rows run as instructions
of their own is the model's choice (logs 8, 9, 25). (43_flush_and_transport.md R196,
43_flush_and_transport.md R205, 30_encoding.md R84, 30_encoding.md R85, 30_encoding.md R86,
30_encoding.md R87, 30_encoding.md R88, 30_encoding.md R94.) -/
def Obligations.WireCommandsGoToTheSelectedChips : Prop :=
  ∀ s : State, HostHolds s →
    (∀ (code : BitVec 6) (d : Byte), s.cfg.layout.hasWave code = false →
      exec (.wWave code d) s = .next s) ∧
    (∀ (code : BitVec 6) (d : Byte), s.cfg.layout.hasWave code = true → ∃ t, exec (.wWave code d) s = .next t ∧ OnlyTransmits s t ∧
      t.sel = s.sel ∧ ∃ b0 : Byte, b0.toNat = 64 * s.cfg.layout.cls.wave.toNat + code.toNat ∧
      t.trace = s.trace ++ s.unshown ++ commandEvents s.cfg .wave b0 d) ∧
    (∀ f : BitVec 14, ∃ t, exec (.wFreq f) s = .next t ∧ OnlyTransmits s t ∧
      t.sel = s.sel ∧ ∃ b0 b1 : Byte,
      b0.toNat = 64 * s.cfg.layout.cls.freq.toNat + f.toNat / 256 ∧ b1.toNat = f.toNat % 256 ∧
      t.trace = s.trace ++ s.unshown ++ commandEvents s.cfg .freq b0 b1) ∧
    (∀ v : BitVec 6, ∃ t, exec (.wVol v) s = .next t ∧ OnlyTransmits s t ∧
      t.sel = s.sel ∧ ∃ b0 : Byte, b0.toNat = 64 * s.cfg.layout.cls.vol.toNat + v.toNat ∧
      t.trace = s.trace ++ s.unshown ++ commandEvents s.cfg .vol b0 0) ∧
    (∀ a : Byte, ∃ t, exec (.wAlpha a) s = .next t ∧ OnlyTransmits s t ∧
      t.sel = s.sel ∧ ∃ b0 : Byte,
      b0.toNat = 64 * s.cfg.layout.cls.param.toNat + s.cfg.layout.pselAlpha.toNat ∧
      t.trace = s.trace ++ s.unshown ++ commandEvents s.cfg .param b0 a) ∧
    (∀ (m : BitVec 6) (sg st : Bool), ∃ t, exec (.wBeta m sg st) s = .next t ∧
      OnlyTransmits s t ∧ t.sel = s.sel ∧ ∃ b0 b1 : Byte,
      b0.toNat = 64 * s.cfg.layout.cls.param.toNat + s.cfg.layout.pselBeta.toNat ∧
      b1 = BitVec.ofNat 8 (4 * m.toNat) ||| (if sg then s.cfg.layout.betaSignBit else 0) |||
        (if st then s.cfg.layout.betaSatBit else 0) ∧
      t.trace = s.trace ++ s.unshown ++ commandEvents s.cfg .param b0 b1) ∧
    (∀ v : Byte, ∃ t, exec (.wGamma v) s = .next t ∧ OnlyTransmits s t ∧
      t.sel = s.sel ∧ ∃ b0 : Byte,
      b0.toNat = 64 * s.cfg.layout.cls.param.toNat + s.cfg.layout.pselGamma.toNat ∧
      t.trace = s.trace ++ s.unshown ++ commandEvents s.cfg .param b0 v)

/-- With HOST holding the lock, SENDBYTE b appends Byte(b) at Level 1, after a Select of the chain's
content if that has changed since the last Byte or Select; at Level 2, Data(b), the set-up hold,
CLK high, its hold, CLK low, its hold; the data pins keep b, CLK is 0, SER, STB and the select
chain are unchanged, and so is everything else. (43_flush_and_transport.md R195,
43_flush_and_transport.md R201, 43_flush_and_transport.md R205, 20_memory.md R63.) -/
def Obligations.SendByteClocksOneByte : Prop :=
  ∀ (s : State) (b : Byte), HostHolds s →
    ∃ t, exec (.sendByte b) s = .next t ∧ OnlyTransmits s t ∧ t.sel = s.sel ∧
      t.trace = s.trace ++ (if s.sel = s.selShown then [] else [.select s.sel]) ++ [.byte b] ∧
      t.selShown = s.sel ∧
      t.pinTrace = s.pinTrace ++
        [.data b, .hold s.cfg.tDsu, .pin .clk true, .hold s.cfg.tClkh, .pin .clk false,
          .hold s.cfg.tClkl] ∧
      t.pins = { ser := s.pins.ser, stb := s.pins.stb, clk := false, d := b }

/-- With HOST holding the lock, STROBEPULSE d emits the three pin events with their holds in order and
makes sel ((sel << 1) | d) mod 2^NCHIP; nothing appears at Level 1 and nothing else changes but
the pins. (R198.) -/
def Obligations.StrobePulseShiftsTheChain : Prop :=
  ∀ (s : State) (d : Bool), HostHolds s →
    ∃ t, exec (.strobePulse d) s = .next t ∧ OnlyTransmits s t ∧ t.trace = s.trace ∧
      t.selShown = s.selShown ∧
      t.sel = (s.sel <<< 1 ||| d.toNat) % 2 ^ s.cfg.nchip ∧
      t.pinTrace = s.pinTrace ++
        [.pin .ser d, .hold s.cfg.tSsu, .pin .stb true, .hold s.cfg.tStbh, .pin .stb false,
          .hold s.cfg.tStbl] ∧
      t.pins = { ser := d, stb := false, clk := s.pins.clk, d := s.pins.d }

/-- With HOST holding the lock and k below NCHIP, ADDRESS k makes the chain onehot(k) from any earlier
content, emits Select(onehot(k)) at Level 1 and, at Level 2, NCHIP-1-k pulses of 0, one of 1, then
k of 0; nothing else changes but the pins. (R193, R199.) -/
def Obligations.AddressSelectsOneChip : Prop :=
  ∀ (s : State) (k : Nat), HostHolds s → k < s.cfg.nchip →
    ∃ t, exec (.address k) s = .next t ∧ OnlyTransmits s t ∧ t.sel = 2 ^ k ∧
      t.selShown = 2 ^ k ∧
      t.trace = s.trace ++ [.select (2 ^ k)] ∧
      t.pinTrace = s.pinTrace ++
        ((List.replicate (s.cfg.nchip - 1 - k) (strobeEvents s.cfg false)).flatten ++
          strobeEvents s.cfg true ++ (List.replicate k (strobeEvents s.cfg false)).flatten) ∧
      t.pins = { ser := decide (k = 0), stb := false, clk := s.pins.clk, d := s.pins.d }

/-- With HOST holding the lock and a configuration that meets its constraints, BROADCAST makes the
chain all ones from any earlier content, emits Select(ones(NCHIP)) at Level 1 and NCHIP pulses of
1 at Level 2; nothing else changes but the pins. (43_flush_and_transport.md R194,
43_flush_and_transport.md R200.) -/
def Obligations.BroadcastSelectsEveryChip : Prop :=
  ∀ s : State, s.cfg.wf → HostHolds s →
    ∃ t, exec .broadcast s = .next t ∧ OnlyTransmits s t ∧ t.sel = 2 ^ s.cfg.nchip - 1 ∧
      t.selShown = 2 ^ s.cfg.nchip - 1 ∧
      t.trace = s.trace ++ [.select (2 ^ s.cfg.nchip - 1)] ∧
      t.pinTrace = s.pinTrace ++ (List.replicate s.cfg.nchip (strobeEvents s.cfg true)).flatten ∧
      t.pins = { ser := true, stb := false, clk := s.pins.clk, d := s.pins.d }

/-- With HOST holding the lock: a row frame sends length, address high, address low, write flag, then
each word low byte first; the terminating frame sends four zero bytes; a Select goes before the
first byte where the chain has changed since the last Byte or Select (R205); the status packet
emits MidiOut(0F, FF, 00, 00). Nothing else changes but pins and traces. That these rows run as
instructions of their own is the model's choice (logs 8, 25), and so is that a row frame by itself
takes no inter-row hold (log 25). (30_encoding.md R95, 30_encoding.md R96,
43_flush_and_transport.md R205, 44_system_sequences.md R226, 44_system_sequences.md R228,
44_system_sequences.md R229.) -/
def Obligations.FramesAndStatusGoOut : Prop :=
  ∀ s : State, HostHolds s →
    (∀ (len : Byte) (a : Word16) (flag : Byte) (ws : List Word16),
      ∃ t, exec (.rowFrame len a flag ws) s = .next t ∧ OnlyTransmits s t ∧ t.sel = s.sel ∧
        t.trace = s.trace ++ s.unshown ++
          ([len, BitVec.ofNat 8 (a.toNat / 256), BitVec.ofNat 8 (a.toNat % 256), flag] ++
            ws.flatMap fun w =>
              [BitVec.ofNat 8 (w.toNat % 256), BitVec.ofNat 8 (w.toNat / 256)]).map Event.byte) ∧
    (∃ t, exec .termFrame s = .next t ∧ OnlyTransmits s t ∧ t.sel = s.sel ∧
      t.trace = s.trace ++ s.unshown ++ [.byte 0, .byte 0, .byte 0, .byte 0]) ∧
    (∃ t, exec .statusPkt s = .next t ∧ OnlyTransmits s t ∧ t.sel = s.sel ∧ t.pins = s.pins ∧
      t.trace = s.trace ++ [.midiOut 0x0F 0xFF 0x00 0x00])

/-- From a state with Inv, with HOST holding the lock, SYSRESET appends Select(ones), the Level-1
events of RESET_SEQ in order (its bytes and holds, a byte for each rising edge of CLK) and
Halt(sysreset), sets HALT, keeps the lock with HOST, leaves the chain all ones, and touches no
Channel, Patch, slot, flag or mode: nothing is flushed. That RESET_SEQ keeps every chip selected
is among the constraints on Cfg (log 19). (44_system_sequences.md R220, 44_system_sequences.md
R231, 43_flush_and_transport.md R205, 60_exceptions.md R246.) -/
def Obligations.SysResetBroadcastsAndHalts : Prop :=
  ∀ s : State, Inv s → HostHolds s →
    ∃ t, exec .sysReset s = .next t ∧ t.status = .halt ∧ t.lock = .host ∧
      t.sel = 2 ^ s.cfg.nchip - 1 ∧
      t.trace = s.trace ++ .select (2 ^ s.cfg.nchip - 1) ::
        sequenceEvents false s.pins.d s.cfg.resetSeq ++ [.halt .sysreset] ∧
      OnlyTransmits s { t with status := .run }

/-- From a state with Inv, with HOST holding the lock and at most 16 extents in their domain, REPROG
appends Select(ones), the Level-1 events of the entry sequence, the command bytes, for each row
not protected 36 bytes and one hold, four zero bytes, the status packet and Halt(reprog_done),
sets HALT, keeps the lock, leaves the chain all ones, and touches no Channel, Patch, slot or flag.
More extents, or one outside the domain, and it is ignored. That BOOT_ENTRY_SEQ keeps every chip
selected is among the constraints on Cfg (log 19). (44_system_sequences.md R221,
44_system_sequences.md R225, 44_system_sequences.md R226, 44_system_sequences.md R227,
44_system_sequences.md R228, 44_system_sequences.md R229, 44_system_sequences.md R230,
44_system_sequences.md R231, 43_flush_and_transport.md R205.) -/
def Obligations.ReprogSendsTheRowsAndHalts : Prop :=
  (∀ (s : State) (buf : WordBuf) (ext : List Extent), Inv s → HostHolds s → ext.length ≤ 16 →
    (∀ e ∈ ext, e.1 < e.2 ∧ e.2 ≤ 65536 ∧ e.1 % 16 = 0 ∧ e.2 % 16 = 0) →
    ∃ t, exec (.reprog buf ext) s = .next t ∧ t.status = .halt ∧ t.lock = .host ∧
      t.sel = 2 ^ s.cfg.nchip - 1 ∧
      t.trace = s.trace ++ .select (2 ^ s.cfg.nchip - 1) ::
        sequenceEvents false s.pins.d s.cfg.bootEntrySeq ++ s.cfg.enterBootCmd.map Event.byte ++
        (sentRows s.cfg.protLimit ext).flatMap (rowEvents s.cfg buf) ++
        [.byte 0, .byte 0, .byte 0, .byte 0, .midiOut 0x0F 0xFF 0x00 0x00, .halt .reprogDone] ∧
      (∀ a, byteCount (rowEvents s.cfg buf a) = 36) ∧
      OnlyTransmits s { t with status := .run }) ∧
  (∀ (s : State) (buf : WordBuf) (ext : List Extent),
    (16 < ext.length ∨ ∃ e ∈ ext, ¬ Extent.valid e) → exec (.reprog buf ext) s = .next s)

/-- For extents in their domain, the rows sent are, extent by extent in list order, the multiples of
16 inside the extent that are not below the protected limit, ascending: a row that two extents
name is sent twice, and a row address is sent if and only if it is such a multiple of some extent.
(44_system_sequences.md R224, 44_system_sequences.md R225, 44_system_sequences.md R231.) -/
def Obligations.ReprogNeverSendsAProtectedRow : Prop :=
  ∀ (limit : Nat) (ext : List Extent), (∀ e ∈ ext, Extent.valid e) →
    sentRows limit ext =
      (ext.flatMap fun e => (List.range e.2).filter fun a =>
        decide (e.1 ≤ a ∧ a % 16 = 0 ∧ limit ≤ a)) ∧
    ∀ a, a ∈ sentRows limit ext ↔ limit ≤ a ∧ a % 16 = 0 ∧ ∃ e ∈ ext, e.1 ≤ a ∧ a < e.2

/-- From every state with Inv whose Level-2 trace folds to its Level-1 trace (up to holds and to
Select events that select the same set again or that no byte follows), if the step answers a next
state, the two traces of that state agree in the same way. And whatever instruction answers a next
state in RUN, what it appends to the two traces delivers to the chips, shifting on STB and
sampling on CLK, exactly the bytes of the Level-1 events, each at the same set of chips.
(43_flush_and_transport.md R192, 43_flush_and_transport.md R202, 43_flush_and_transport.md R205,
43_flush_and_transport.md R197, 44_system_sequences.md R220.) -/
def Obligations.BothLevelsDeliverTheSame : Prop :=
  (∀ s t : State, Inv s → LevelsAgree s → step s = .next t → LevelsAgree t) ∧
  (∀ (i : Instr) (s t : State), Inv s → s.status = .run → exec i s = .next t →
    ∃ e1 e2, t.trace = s.trace ++ e1 ∧ t.pinTrace = s.pinTrace ++ e2 ∧
      deliveries2 s.cfg.nchip s.sel s.pins e2 = deliveries1 s.selShown e1)

/-- Addressing chip p and sending a command of class k appends Level-2 events whose holds add up to
NCHIP*(T_SSU+T_STBH+T_STBL) + n*(T_DSU+T_CLKH+T_CLKL), n being 2 for a class with a data byte and
1 otherwise. (43_flush_and_transport.md R203, 43_flush_and_transport.md R198,
43_flush_and_transport.md R199, 43_flush_and_transport.md R201.) -/
def Obligations.CommandHoldTime : Prop :=
  ∀ (s : State) (p : Nat) (k : CmdClass) (b0 b1 : Byte), p < s.cfg.nchip →
    ∃ es, (sendCommand k b0 b1 (address p s)).pinTrace = s.pinTrace ++ es ∧
      holdTime es =
        s.cfg.nchip * (s.cfg.tSsu + s.cfg.tStbh + s.cfg.tStbl) +
          (if s.cfg.layout.hasData.get k then 2 else 1) *
            (s.cfg.tDsu + s.cfg.tClkh + s.cfg.tClkl)

/-- Below CUTOFF_MAX the rational bounds enclose e^(-2*pi*hz/CLOCK_HZ), so that wherever both bounds
have the same floor (or the exponent is at least 6) the alpha byte is floor((1 - e^(-x))*255) over
the reals. Where they differ the byte is one of the two floors, and which of them is a free choice
(log 12). (42_parameter_encoders.md R176, 42_parameter_encoders.md R177, 42_parameter_encoders.md
R180.) -/
def Obligations.AlphaIsTheExactFloor : Prop :=
  ∀ (g : Cfg) (hz : Nat), g.wf → hz < g.cutoffMax →
    (6 ≤ 2 * piLo * turns g hz ∨
      ((1 - expNegHi (turns g hz)) * 255).floor = ((1 - expNegLo (turns g hz)) * 255).floor →
      ((alphaByte g hz).toNat : Int) =
        ⌊(1 - Real.exp (-(2 * Real.pi * (hz : ℝ) / (g.clockHz : ℝ)))) * 255⌋) ∧
    (2 * piLo * turns g hz < 6 →
      ((alphaByte g hz).toNat : Int) = ((1 - expNegHi (turns g hz)) * 255).floor ∨
      ((alphaByte g hz).toNat : Int) = ((1 - expNegLo (turns g hz)) * 255).floor) ∧
    (expNegLo (turns g hz) : ℝ) ≤ Real.exp (-(2 * Real.pi * (hz : ℝ) / (g.clockHz : ℝ))) ∧
    Real.exp (-(2 * Real.pi * (hz : ℝ) / (g.clockHz : ℝ))) ≤ (expNegHi (turns g hz) : ℝ)

/-- For a resonance in 0..1, wherever the rational bounds on the cosine decide the floor, the beta
byte is made of m = floor(|beta_raw|*63) with beta_raw = 2*r*cos(2*pi*hz/CLOCK_HZ) over the reals:
bits 7:2 hold m mod 64, the sign bit is set exactly when beta_raw is negative, the saturate bit
exactly when m is above the configured bound (63 by default). Where the bounds do not decide, the
choice is free (log 12). (42_parameter_encoders.md R176, 42_parameter_encoders.md R178,
42_parameter_encoders.md R180.) -/
def Obligations.BetaIsTheExactByte : Prop :=
  ∀ (g : Cfg) (hz : Nat) (r : ℚ) (m : Nat) (negative : Bool), g.wf → inUnit r →
    (126 * r * (cosBounds (foldedAngle (turns g hz))).1).floor =
      (126 * r * (cosBounds (foldedAngle (turns g hz))).2).floor →
    (m : Int) =
      ⌊|2 * (r : ℝ) * Real.cos (2 * Real.pi * (hz : ℝ) / (g.clockHz : ℝ))| * 63⌋ →
    (negative = true ↔
      2 * (r : ℝ) * Real.cos (2 * Real.pi * (hz : ℝ) / (g.clockHz : ℝ)) < 0) →
    betaCoefficient g hz r =
      BitVec.ofNat 8 (4 * (m % 64)) ||| (if negative then g.layout.betaSignBit else 0) |||
        (if g.satAbove < m then g.layout.betaSatBit else 0)

/-- At CUTOFF_MAX gamma is 0 and alpha 255 whatever the resonance; elsewhere, for a resonance in 0..1,
gamma is floor(r*r*255). (42_parameter_encoders.md R179, 42_parameter_encoders.md R177.) -/
def Obligations.GammaAndBypass : Prop :=
  (∀ (g : Cfg) (r : ℚ), gammaByte g g.cutoffMax r = 0 ∧ alphaByte g g.cutoffMax = 255) ∧
  (∀ (g : Cfg) (hz : Nat) (r : ℚ), hz ≠ g.cutoffMax → inUnit r →
    ((gammaByte g hz r).toNat : Int) = (r * r * 255).floor)

/-- A cursor at its last point, or at the sustain point of a note not released, holds: cursors and
value unchanged. Otherwise, when the next tick reaches the next point, the cursor moves there, or,
if that is loop_end with loop_start below 12 and the note not released, to loop_start with that
point's tick; the value is that of the point it ends on. (41_envelope_engine.md R144,
41_envelope_engine.md R145, 41_envelope_engine.md R146.) -/
def Obligations.AdvanceBranches : Prop :=
  ∀ (m : RoundMode) (e : Envelope) (t i : Nat) (r : Bool),
    ((i = e.sustainIndex.toNat ∧ r = false) ∨ i = Envelope.count e - 1 →
      advance m e t i r = (t, i, Envelope.y e i)) ∧
    (¬ ((i = e.sustainIndex.toNat ∧ r = false) ∨ i = Envelope.count e - 1) →
      Envelope.x e (i + 1) ≤ t + 1 →
      (i + 1 = e.loopEnd.toNat ∧ e.loopStart.toNat < 12 ∧ r = false →
        advance m e t i r =
          (Envelope.x e e.loopStart.toNat, e.loopStart.toNat, Envelope.y e e.loopStart.toNat)) ∧
      (¬ (i + 1 = e.loopEnd.toNat ∧ e.loopStart.toNat < 12 ∧ r = false) →
        advance m e t i r = (t + 1, i + 1, Envelope.y e (i + 1))))

/-- When the cursor neither holds nor reaches the next point, and stands at or after its current
point, advance counts one tick, keeps the point, and its value lies between the two points' values
inclusive, for every rounding. (41_envelope_engine.md R147, 41_envelope_engine.md R148.) -/
def Obligations.InterpolationStaysBetweenThePoints : Prop :=
  ∀ (m : RoundMode) (e : Envelope) (t i : Nat) (r : Bool),
    ¬ ((i = e.sustainIndex.toNat ∧ r = false) ∨ i = Envelope.count e - 1) →
    Envelope.x e i ≤ t → t + 1 < Envelope.x e (i + 1) →
    (advance m e t i r).1 = t + 1 ∧ (advance m e t i r).2.1 = i ∧
    min (Envelope.y e i) (Envelope.y e (i + 1)) ≤ (advance m e t i r).2.2 ∧
    (advance m e t i r).2.2 ≤ max (Envelope.y e i) (Envelope.y e (i + 1))

/-- For a defined envelope with at least two points, strictly increasing ticks, no sustain and no
loop, m calls from the cursors TRIG leaves give tick min(m, last tick); inside segment j the value
is the interpolation between points j and j+1; from the last tick on it is the last point's value.
(41_envelope_engine.md R153, 41_envelope_engine.md R147, 41_envelope_engine.md R145.) -/
def Obligations.AdvanceIsPiecewiseLinear : Prop :=
  ∀ (r : RoundMode) (e : Envelope) (m : Nat), Envelope.defined e = true → 2 ≤ Envelope.count e →
    strictBetween e 0 (Envelope.count e - 1) →
    12 ≤ e.sustainIndex.toNat → 12 ≤ e.loopStart.toNat →
    (advanceRun r e false 0 0 m).1 = min m (Envelope.x e (Envelope.count e - 1)) ∧
    (∀ j, j + 1 < Envelope.count e → Envelope.x e j ≤ m → m < Envelope.x e (j + 1) →
      (advanceRun r e false 0 0 m).2 =
        (j, Envelope.y e j +
          roundQuotient r ((Envelope.y e (j + 1) - Envelope.y e j) * ((m : Int) - Envelope.x e j))
            ((Envelope.x e (j + 1) : Int) - Envelope.x e j))) ∧
    (Envelope.x e (Envelope.count e - 1) ≤ m →
      (advanceRun r e false 0 0 m).2 =
        (Envelope.count e - 1, Envelope.y e (Envelope.count e - 1)))

/-- For a loop from a point to a later one inside the envelope, ticks strictly increasing between them
and no sustain point in it, the cursor at the loop start is back there, with that point's tick and
value, after exactly the difference of the two ticks calls. (41_envelope_engine.md R146,
41_envelope_engine.md R153.) -/
def Obligations.LoopCyclesWhileHeld : Prop :=
  ∀ (r : RoundMode) (e : Envelope), Envelope.defined e = true →
    e.loopStart.toNat < e.loopEnd.toNat → e.loopEnd.toNat < Envelope.count e →
    strictBetween e e.loopStart.toNat e.loopEnd.toNat →
    (e.sustainIndex.toNat < e.loopStart.toNat ∨ e.loopEnd.toNat ≤ e.sustainIndex.toNat) →
    advanceRun r e false (Envelope.x e e.loopStart.toNat) e.loopStart.toNat
        (Envelope.x e e.loopEnd.toNat - Envelope.x e e.loopStart.toNat) =
      (Envelope.x e e.loopStart.toNat, e.loopStart.toNat, Envelope.y e e.loopStart.toNat)

/-- In RUN with the lock free, if every live Channel in use has a defined Patch and fitting cursors,
none of which TICK would move past 65535, TICK answers a next state: the lock is free again, every
slot is empty and every flag 0, the Patch bank, the mode, the status, the configuration, the
batch, the agenda and the Channels not in use are as before. What fits is log 13. A cursor is not
moved past 65535 when it stands below, holds, or is set back by a loop; that the last is no
overflow, though the increment inside advance passes 65535, is the model's reading of R148 and U6
(log 15). (41_envelope_engine.md R140, 41_envelope_engine.md R142, 41_envelope_engine.md R148,
43_flush_and_transport.md R191, 60_exceptions.md R249.) -/
def Obligations.TickCompletes : Prop :=
  ∀ (s : State) (now : Time), Inv s → s.status = .run → s.lock = .free →
    (∀ c < s.chans, Playable s (s.chan c)) →
    ∃ t, exec (.tick now) s = .next t ∧ t.lock = .free ∧ t.status = .run ∧
      (∀ p k, t.slotAt p k = none) ∧ (∀ k, t.dirty.get k = false) ∧ t.changed = false ∧
      t.patch = s.patch ∧ t.dual = s.dual ∧ t.cfg = s.cfg ∧ t.batch = s.batch ∧
      t.agenda = s.agenda ∧ ∀ c, s.chans ≤ c → t.chan c = s.chan c

/-- In RUN with the lock free, if no Channel in use is live or fading and changed is 0, TICK answers
the same state but for the time counter and the engine's period timer (log 16): nothing is
emitted. (41_envelope_engine.md R140, 41_envelope_engine.md R141.) -/
def Obligations.TickWithNothingToPlay : Prop :=
  ∀ (s : State) (now : Time), s.status = .run → s.lock = .free → s.changed = false →
    (∀ c < s.chans, (s.chan c).instrument = none ∧ (s.chan c).fadeLength = 0) →
    ∃ t, exec (.tick now) s = .next t ∧ t = { s with now := t.now, nextTick := t.nextTick }

/-- If TICK runs and answers a next state, then for every live Channel in use and every track: with
points, the cursors are those advance gives from the old ones; without, the point stays and the
tick is the write-once guard, 0 becoming 1. (41_envelope_engine.md R142, 41_envelope_engine.md
R143, 41_envelope_engine.md R144, 00_scope.md R2.) -/
def Obligations.TickAdvancesEveryTrack : Prop :=
  ∀ (s t : State) (now : Time) (c : Nat) (i : Fin 128) (k : Track), Inv s → s.status = .run →
    s.lock = .free → exec (.tick now) s = .next t → c < s.chans → (s.chan c).instrument = some i →
    (0 < Envelope.count ((s.patchAt i).env.get k) →
      (((t.chan c).tick.get k).toNat, ((t.chan c).point.get k).val) =
        ((advance s.cfg.roundQ ((s.patchAt i).env.get k) ((s.chan c).tick.get k).toNat
            ((s.chan c).point.get k).val (s.chan c).released).1,
          (advance s.cfg.roundQ ((s.patchAt i).env.get k) ((s.chan c).tick.get k).toNat
            ((s.chan c).point.get k).val (s.chan c).released).2.1)) ∧
    (Envelope.count ((s.patchAt i).env.get k) = 0 →
      (t.chan c).tick.get k =
          (if (s.chan c).tick.get k = 0 then 1 else (s.chan c).tick.get k) ∧
        (t.chan c).point.get k = (s.chan c).point.get k)

/-- If TICK runs and answers a next state, then for every live Channel in use each parameter register
whose track has points holds the converted, clamped value of that track's advance, a fraction
through Quant (log 26), and each whose track has none is as before; released, the fade registers,
the link and the note are as before. (41_envelope_engine.md R149, 41_envelope_engine.md R142,
41_envelope_engine.md R148, 40_host_operations.md R126.) -/
def Obligations.TickStoresEnvelopeValues : Prop :=
  ∀ (s t : State) (now : Time) (c : Nat) (i : Fin 128), Inv s → s.status = .run →
    s.lock = .free → exec (.tick now) s = .next t → c < s.chans → (s.chan c).instrument = some i →
    ∀ v : Track → Int,
      (∀ k, v k = (advance s.cfg.roundQ ((s.patchAt i).env.get k) ((s.chan c).tick.get k).toNat
        ((s.chan c).point.get k).val (s.chan c).released).2.2) →
      (t.chan c).amplitude =
        (if 0 < Envelope.count (s.patchAt i).env.volume
          then quantise s.cfg (clampRat ((v .volume : ℚ) / s.cfg.envUnit) 0 1)
          else (s.chan c).amplitude) ∧
      (t.chan c).pan =
        (if 0 < Envelope.count (s.patchAt i).env.pan
          then quantise s.cfg (clampRat ((v .pan : ℚ) / s.cfg.envUnit) (-1) 1)
          else (s.chan c).pan) ∧
      ((t.chan c).frequency.toNat : Int) =
        (if 0 < Envelope.count (s.patchAt i).env.frequency
          then clampInt (v .frequency) 0 65535 else (s.chan c).frequency.toNat) ∧
      (t.chan c).duty =
        (if 0 < Envelope.count (s.patchAt i).env.duty
          then quantise s.cfg (clampRat ((v .duty : ℚ) / s.cfg.envUnit) 0 1)
          else (s.chan c).duty) ∧
      ((t.chan c).cutoff.toNat : Int) =
        (if 0 < Envelope.count (s.patchAt i).env.cutoff
          then clampInt (v .cutoff) 0 s.cfg.cutoffMax else (s.chan c).cutoff.toNat) ∧
      (t.chan c).resonance =
        (if 0 < Envelope.count (s.patchAt i).env.resonance
          then quantise s.cfg (clampRat ((v .resonance : ℚ) / s.cfg.envUnit) 0 1)
          else (s.chan c).resonance) ∧
      (t.chan c).released = (s.chan c).released ∧ (t.chan c).fadeInit = (s.chan c).fadeInit ∧
      (t.chan c).fadeStart = (s.chan c).fadeStart ∧
      (t.chan c).fadeLength = (s.chan c).fadeLength ∧ (t.chan c).fadeDir = (s.chan c).fadeDir ∧
      (t.chan c).linked = (s.chan c).linked ∧ (t.chan c).note = (s.chan c).note

/-- If TICK runs and answers a next state, a live Channel in use loses its instrument exactly when
some track has points and every track with points has its new point cursor at the last point, or
the volume track has no points and the note is released; its wave type is then None, else
unchanged, and Done(c, env_end) is among the new events exactly then. (41_envelope_engine.md R150,
41_envelope_engine.md R153, 10_state.md R37.) -/
def Obligations.TickEndsFinishedNotes : Prop :=
  ∀ (s t : State) (now : Time) (c : Nat) (i : Fin 128), Inv s → s.status = .run →
    s.lock = .free → exec (.tick now) s = .next t → c < s.chans → (s.chan c).instrument = some i →
    ((t.chan c).instrument = none ↔
      ((∃ k, 0 < Envelope.count ((s.patchAt i).env.get k)) ∧
        ∀ k, 0 < Envelope.count ((s.patchAt i).env.get k) →
          ((t.chan c).point.get k).val = Envelope.count ((s.patchAt i).env.get k) - 1) ∨
      (Envelope.count (s.patchAt i).env.volume = 0 ∧ (s.chan c).released = true)) ∧
    ((t.chan c).instrument ≠ none →
      (t.chan c).instrument = some i ∧ (t.chan c).waveType = (s.chan c).waveType) ∧
    ((t.chan c).instrument = none → (t.chan c).waveType = .none) ∧
    (Event.done c .envEnd ∈ t.trace.drop s.trace.length ↔ (t.chan c).instrument = none)

/-- If TICK runs and answers a next state, a Channel in use with no instrument and an active fade has,
with el the time since the fade started (0 if the counter is behind) and L its length: before L,
the amplitude clamp(init + el/L*dir) through Quant (log 26) and the fade still active; from L on,
clamp(init + dir) through Quant, the fade length 0 and Done(c, fade_end) among the new events,
which it is exactly then. No other register changes. The W.VOL of each such TICK is stated by
TickSendsEveryEvaluatedTrack. (41_envelope_engine.md R151, 10_state.md R23, 10_state.md R37,
40_host_operations.md R126.) -/
def Obligations.TickFadesChannels : Prop :=
  ∀ (s t : State) (now : Time) (c : Nat), Inv s → s.status = .run →
    s.lock = .free → exec (.tick now) s = .next t → c < s.chans →
    (s.chan c).instrument = none → (s.chan c).fadeLength ≠ 0 →
    (now.toNat - (s.chan c).fadeStart.toNat < (s.chan c).fadeLength.toNat →
      t.chan c = { s.chan c with
        amplitude := quantise s.cfg (clampRat ((s.chan c).fadeInit +
          ((now.toNat - (s.chan c).fadeStart.toNat : Nat) : ℚ) / ((s.chan c).fadeLength.toNat : ℚ) *
            (if (s.chan c).fadeDir = .up then 1 else -1)) 0 1) }) ∧
    ((s.chan c).fadeLength.toNat ≤ now.toNat - (s.chan c).fadeStart.toNat →
      t.chan c = { s.chan c with
        amplitude := quantise s.cfg (clampRat ((s.chan c).fadeInit +
          (if (s.chan c).fadeDir = .up then 1 else -1)) 0 1)
        fadeLength := 0 }) ∧
    (Event.done c .fadeEnd ∈ t.trace.drop s.trace.length ↔
      (s.chan c).fadeLength.toNat ≤ now.toNat - (s.chan c).fadeStart.toNat)

/-- In RUN with the lock free, if some live Channel in use plays a Patch that is not defined, or has a
point cursor beyond its envelope or a tick cursor before its point's tick (I4 of R40), or a tick
cursor that TICK would move past 65535, TICK is refused by one of the three names. The tick clause
of I4 is not asked of the cursors TRIG left on an envelope of one point, unless a PLOAD has
replaced the Patch since (log 13). That a cursor which a loop sets back does not overflow is the
model's reading (log 15). (41_envelope_engine.md R142, 41_envelope_engine.md R148, 10_state.md
R30, 10_state.md R40, 70_reset_and_hazards.md R276, 93_implementation_defined.md U1 to U4 and U6.) -/
def Obligations.TickRefusesWhatTheSpecLeavesOpen : Prop :=
  ∀ (s : State) (now : Time) (c : Nat) (i : Fin 128), Inv s → s.status = .run → s.lock = .free →
    c < s.chans → (s.chan c).instrument = some i →
    (Patch.defined (s.patchAt i) = false ∨
      ∃ k, 0 < Envelope.count ((s.patchAt i).env.get k) ∧
        (Envelope.count ((s.patchAt i).env.get k) ≤ ((s.chan c).point.get k).val ∨
          (((s.chan c).tick.get k).toNat <
              Envelope.x ((s.patchAt i).env.get k) ((s.chan c).point.get k).val ∧
            (2 ≤ Envelope.count ((s.patchAt i).env.get k) ∨ (s.chan c).tick.get k ≠ 0 ∨
              (s.chan c).reloaded = true)) ∨
          65535 < (advance s.cfg.roundQ ((s.patchAt i).env.get k) ((s.chan c).tick.get k).toNat
            ((s.chan c).point.get k).val (s.chan c).released).1)) →
    ∃ r, exec (.tick now) s = .refused r ∧
      (r = .patchNotDefined ∨ r = .cursorDoesNotFit ∨ r = .tickCursorOverflow)

/-- If TICK runs and answers a next state, the Level-1 trace is the old one, then the Done events,
then the flush of a queue in which, for every Channel in use, the commands of each class that TICK
writes wait with the Channel's new values: WAVE when the duty track is evaluated or the note ends,
FREQ, VOL (in dual mode for the pan track too), the three filter classes when the cutoff or
resonance track is; VOL at every tick of a fade. A track is evaluated when it has points or its
static value has not been written yet. Every other slot is as it was, and a class is dirty exactly
when it was or was written. (41_envelope_engine.md R142, 41_envelope_engine.md R143,
41_envelope_engine.md R149, 41_envelope_engine.md R150, 41_envelope_engine.md R151,
41_envelope_engine.md R140, 43_flush_and_transport.md R190.) -/
def Obligations.TickSendsEveryEvaluatedTrack : Prop :=
  ∀ (s t : State) (now : Time), Inv s → s.status = .run → s.lock = .free →
    exec (.tick now) s = .next t →
    ∃ q : State, q.cfg = s.cfg ∧ t.trace = s.trace ++ tickDones s t ++ pendingEvents q ∧
      (∀ c < s.chans,
        (TickWrites s t c .wave → WaveQueued s q c (t.chan c).waveType (t.chan c).duty) ∧
        (TickWrites s t c .freq → FrequencyQueued s q c (t.chan c).frequency.toNat) ∧
        (TickWrites s t c .vol → VolumeQueued s q c (t.chan c).amplitude (t.chan c).pan) ∧
        (TickWrites s t c .alpha →
          FilterQueued s q c (t.chan c).cutoff.toNat (t.chan c).resonance)) ∧
      (∀ p k, (∀ c < s.chans, TickWrites s t c k → p ∉ s.chips c) →
        q.slotAt p k = s.slotAt p k) ∧
      (∀ k, q.dirty.get k = true ↔
        s.dirty.get k = true ∨ ∃ c < s.chans, TickWrites s t c k)
end

