-- ==== Sys2Proof/Laws/State.lean ====
section
/-! SUPPORT. One lemma per field per state update, each true by rfl, so that no proof unfolds a record
update. Updates that a field does not take part in leave it alone. -/

namespace Sys2Proof.Machine

/-! ### raiseDirty -/

@[simp] theorem raiseDirty_cfg (k : SlotClass) (s : State) :
    (raiseDirty k s).cfg = s.cfg := rfl
@[simp] theorem raiseDirty_ch (k : SlotClass) (s : State) :
    (raiseDirty k s).ch = s.ch := rfl
@[simp] theorem raiseDirty_patch (k : SlotClass) (s : State) :
    (raiseDirty k s).patch = s.patch := rfl
@[simp] theorem raiseDirty_slot (k : SlotClass) (s : State) :
    (raiseDirty k s).slot = s.slot := rfl
@[simp] theorem raiseDirty_dirty (k : SlotClass) (s : State) :
    (raiseDirty k s).dirty = s.dirty.set k true := rfl
@[simp] theorem raiseDirty_changed (k : SlotClass) (s : State) :
    (raiseDirty k s).changed = true := rfl
@[simp] theorem raiseDirty_lock (k : SlotClass) (s : State) :
    (raiseDirty k s).lock = s.lock := rfl
@[simp] theorem raiseDirty_dual (k : SlotClass) (s : State) :
    (raiseDirty k s).dual = s.dual := rfl
@[simp] theorem raiseDirty_now (k : SlotClass) (s : State) :
    (raiseDirty k s).now = s.now := rfl
@[simp] theorem raiseDirty_nextTick (k : SlotClass) (s : State) :
    (raiseDirty k s).nextTick = s.nextTick := rfl
@[simp] theorem raiseDirty_pins (k : SlotClass) (s : State) :
    (raiseDirty k s).pins = s.pins := rfl
@[simp] theorem raiseDirty_sel (k : SlotClass) (s : State) :
    (raiseDirty k s).sel = s.sel := rfl
@[simp] theorem raiseDirty_selShown (k : SlotClass) (s : State) :
    (raiseDirty k s).selShown = s.selShown := rfl
@[simp] theorem raiseDirty_trace (k : SlotClass) (s : State) :
    (raiseDirty k s).trace = s.trace := rfl
@[simp] theorem raiseDirty_pinTrace (k : SlotClass) (s : State) :
    (raiseDirty k s).pinTrace = s.pinTrace := rfl
@[simp] theorem raiseDirty_status (k : SlotClass) (s : State) :
    (raiseDirty k s).status = s.status := rfl
@[simp] theorem raiseDirty_batch (k : SlotClass) (s : State) :
    (raiseDirty k s).batch = s.batch := rfl
@[simp] theorem raiseDirty_agenda (k : SlotClass) (s : State) :
    (raiseDirty k s).agenda = s.agenda := rfl

/-! ### clearDirty -/

@[simp] theorem clearDirty_cfg (k : SlotClass) (s : State) :
    (clearDirty k s).cfg = s.cfg := rfl
@[simp] theorem clearDirty_ch (k : SlotClass) (s : State) :
    (clearDirty k s).ch = s.ch := rfl
@[simp] theorem clearDirty_patch (k : SlotClass) (s : State) :
    (clearDirty k s).patch = s.patch := rfl
@[simp] theorem clearDirty_slot (k : SlotClass) (s : State) :
    (clearDirty k s).slot = s.slot := rfl
@[simp] theorem clearDirty_dirty (k : SlotClass) (s : State) :
    (clearDirty k s).dirty = s.dirty.set k false := rfl
@[simp] theorem clearDirty_changed (k : SlotClass) (s : State) :
    (clearDirty k s).changed = s.changed := rfl
@[simp] theorem clearDirty_lock (k : SlotClass) (s : State) :
    (clearDirty k s).lock = s.lock := rfl
@[simp] theorem clearDirty_dual (k : SlotClass) (s : State) :
    (clearDirty k s).dual = s.dual := rfl
@[simp] theorem clearDirty_now (k : SlotClass) (s : State) :
    (clearDirty k s).now = s.now := rfl
@[simp] theorem clearDirty_nextTick (k : SlotClass) (s : State) :
    (clearDirty k s).nextTick = s.nextTick := rfl
@[simp] theorem clearDirty_pins (k : SlotClass) (s : State) :
    (clearDirty k s).pins = s.pins := rfl
@[simp] theorem clearDirty_sel (k : SlotClass) (s : State) :
    (clearDirty k s).sel = s.sel := rfl
@[simp] theorem clearDirty_selShown (k : SlotClass) (s : State) :
    (clearDirty k s).selShown = s.selShown := rfl
@[simp] theorem clearDirty_trace (k : SlotClass) (s : State) :
    (clearDirty k s).trace = s.trace := rfl
@[simp] theorem clearDirty_pinTrace (k : SlotClass) (s : State) :
    (clearDirty k s).pinTrace = s.pinTrace := rfl
@[simp] theorem clearDirty_status (k : SlotClass) (s : State) :
    (clearDirty k s).status = s.status := rfl
@[simp] theorem clearDirty_batch (k : SlotClass) (s : State) :
    (clearDirty k s).batch = s.batch := rfl
@[simp] theorem clearDirty_agenda (k : SlotClass) (s : State) :
    (clearDirty k s).agenda = s.agenda := rfl

/-! ### clearChanged -/

@[simp] theorem clearChanged_cfg (s : State) :
    (clearChanged s).cfg = s.cfg := rfl
@[simp] theorem clearChanged_ch (s : State) :
    (clearChanged s).ch = s.ch := rfl
@[simp] theorem clearChanged_patch (s : State) :
    (clearChanged s).patch = s.patch := rfl
@[simp] theorem clearChanged_slot (s : State) :
    (clearChanged s).slot = s.slot := rfl
@[simp] theorem clearChanged_dirty (s : State) :
    (clearChanged s).dirty = s.dirty := rfl
@[simp] theorem clearChanged_changed (s : State) :
    (clearChanged s).changed = false := rfl
@[simp] theorem clearChanged_lock (s : State) :
    (clearChanged s).lock = s.lock := rfl
@[simp] theorem clearChanged_dual (s : State) :
    (clearChanged s).dual = s.dual := rfl
@[simp] theorem clearChanged_now (s : State) :
    (clearChanged s).now = s.now := rfl
@[simp] theorem clearChanged_nextTick (s : State) :
    (clearChanged s).nextTick = s.nextTick := rfl
@[simp] theorem clearChanged_pins (s : State) :
    (clearChanged s).pins = s.pins := rfl
@[simp] theorem clearChanged_sel (s : State) :
    (clearChanged s).sel = s.sel := rfl
@[simp] theorem clearChanged_selShown (s : State) :
    (clearChanged s).selShown = s.selShown := rfl
@[simp] theorem clearChanged_trace (s : State) :
    (clearChanged s).trace = s.trace := rfl
@[simp] theorem clearChanged_pinTrace (s : State) :
    (clearChanged s).pinTrace = s.pinTrace := rfl
@[simp] theorem clearChanged_status (s : State) :
    (clearChanged s).status = s.status := rfl
@[simp] theorem clearChanged_batch (s : State) :
    (clearChanged s).batch = s.batch := rfl
@[simp] theorem clearChanged_agenda (s : State) :
    (clearChanged s).agenda = s.agenda := rfl

/-! ### emit -/

@[simp] theorem emit_cfg (e : Event) (s : State) :
    (emit e s).cfg = s.cfg := rfl
@[simp] theorem emit_ch (e : Event) (s : State) :
    (emit e s).ch = s.ch := rfl
@[simp] theorem emit_patch (e : Event) (s : State) :
    (emit e s).patch = s.patch := rfl
@[simp] theorem emit_slot (e : Event) (s : State) :
    (emit e s).slot = s.slot := rfl
@[simp] theorem emit_dirty (e : Event) (s : State) :
    (emit e s).dirty = s.dirty := rfl
@[simp] theorem emit_changed (e : Event) (s : State) :
    (emit e s).changed = s.changed := rfl
@[simp] theorem emit_lock (e : Event) (s : State) :
    (emit e s).lock = s.lock := rfl
@[simp] theorem emit_dual (e : Event) (s : State) :
    (emit e s).dual = s.dual := rfl
@[simp] theorem emit_now (e : Event) (s : State) :
    (emit e s).now = s.now := rfl
@[simp] theorem emit_nextTick (e : Event) (s : State) :
    (emit e s).nextTick = s.nextTick := rfl
@[simp] theorem emit_pins (e : Event) (s : State) :
    (emit e s).pins = s.pins := rfl
@[simp] theorem emit_sel (e : Event) (s : State) :
    (emit e s).sel = s.sel := rfl
@[simp] theorem emit_selShown (e : Event) (s : State) :
    (emit e s).selShown = s.selShown := rfl
@[simp] theorem emit_trace (e : Event) (s : State) :
    (emit e s).trace = s.trace ++ [e] := rfl
@[simp] theorem emit_pinTrace (e : Event) (s : State) :
    (emit e s).pinTrace = s.pinTrace ++ [e] := rfl
@[simp] theorem emit_status (e : Event) (s : State) :
    (emit e s).status = s.status := rfl
@[simp] theorem emit_batch (e : Event) (s : State) :
    (emit e s).batch = s.batch := rfl
@[simp] theorem emit_agenda (e : Event) (s : State) :
    (emit e s).agenda = s.agenda := rfl

/-! ### emitPins -/

@[simp] theorem emitPins_cfg (e : Event) (s : State) :
    (emitPins e s).cfg = s.cfg := rfl
@[simp] theorem emitPins_ch (e : Event) (s : State) :
    (emitPins e s).ch = s.ch := rfl
@[simp] theorem emitPins_patch (e : Event) (s : State) :
    (emitPins e s).patch = s.patch := rfl
@[simp] theorem emitPins_slot (e : Event) (s : State) :
    (emitPins e s).slot = s.slot := rfl
@[simp] theorem emitPins_dirty (e : Event) (s : State) :
    (emitPins e s).dirty = s.dirty := rfl
@[simp] theorem emitPins_changed (e : Event) (s : State) :
    (emitPins e s).changed = s.changed := rfl
@[simp] theorem emitPins_lock (e : Event) (s : State) :
    (emitPins e s).lock = s.lock := rfl
@[simp] theorem emitPins_dual (e : Event) (s : State) :
    (emitPins e s).dual = s.dual := rfl
@[simp] theorem emitPins_now (e : Event) (s : State) :
    (emitPins e s).now = s.now := rfl
@[simp] theorem emitPins_nextTick (e : Event) (s : State) :
    (emitPins e s).nextTick = s.nextTick := rfl
@[simp] theorem emitPins_pins (e : Event) (s : State) :
    (emitPins e s).pins = s.pins := rfl
@[simp] theorem emitPins_sel (e : Event) (s : State) :
    (emitPins e s).sel = s.sel := rfl
@[simp] theorem emitPins_selShown (e : Event) (s : State) :
    (emitPins e s).selShown = s.selShown := rfl
@[simp] theorem emitPins_trace (e : Event) (s : State) :
    (emitPins e s).trace = s.trace := rfl
@[simp] theorem emitPins_pinTrace (e : Event) (s : State) :
    (emitPins e s).pinTrace = s.pinTrace ++ [e] := rfl
@[simp] theorem emitPins_status (e : Event) (s : State) :
    (emitPins e s).status = s.status := rfl
@[simp] theorem emitPins_batch (e : Event) (s : State) :
    (emitPins e s).batch = s.batch := rfl
@[simp] theorem emitPins_agenda (e : Event) (s : State) :
    (emitPins e s).agenda = s.agenda := rfl

/-! ### showSelect -/

@[simp] theorem showSelect_cfg (n : Nat) (s : State) :
    (showSelect n s).cfg = s.cfg := rfl
@[simp] theorem showSelect_ch (n : Nat) (s : State) :
    (showSelect n s).ch = s.ch := rfl
@[simp] theorem showSelect_patch (n : Nat) (s : State) :
    (showSelect n s).patch = s.patch := rfl
@[simp] theorem showSelect_slot (n : Nat) (s : State) :
    (showSelect n s).slot = s.slot := rfl
@[simp] theorem showSelect_dirty (n : Nat) (s : State) :
    (showSelect n s).dirty = s.dirty := rfl
@[simp] theorem showSelect_changed (n : Nat) (s : State) :
    (showSelect n s).changed = s.changed := rfl
@[simp] theorem showSelect_lock (n : Nat) (s : State) :
    (showSelect n s).lock = s.lock := rfl
@[simp] theorem showSelect_dual (n : Nat) (s : State) :
    (showSelect n s).dual = s.dual := rfl
@[simp] theorem showSelect_now (n : Nat) (s : State) :
    (showSelect n s).now = s.now := rfl
@[simp] theorem showSelect_nextTick (n : Nat) (s : State) :
    (showSelect n s).nextTick = s.nextTick := rfl
@[simp] theorem showSelect_pins (n : Nat) (s : State) :
    (showSelect n s).pins = s.pins := rfl
@[simp] theorem showSelect_sel (n : Nat) (s : State) :
    (showSelect n s).sel = s.sel := rfl
@[simp] theorem showSelect_selShown (n : Nat) (s : State) :
    (showSelect n s).selShown = n := rfl
@[simp] theorem showSelect_trace (n : Nat) (s : State) :
    (showSelect n s).trace = s.trace ++ [.select n] := rfl
@[simp] theorem showSelect_pinTrace (n : Nat) (s : State) :
    (showSelect n s).pinTrace = s.pinTrace := rfl
@[simp] theorem showSelect_status (n : Nat) (s : State) :
    (showSelect n s).status = s.status := rfl
@[simp] theorem showSelect_batch (n : Nat) (s : State) :
    (showSelect n s).batch = s.batch := rfl
@[simp] theorem showSelect_agenda (n : Nat) (s : State) :
    (showSelect n s).agenda = s.agenda := rfl

/-! ### strobePulse -/

@[simp] theorem strobePulse_cfg (d : Bool) (s : State) :
    (strobePulse d s).cfg = s.cfg := rfl
@[simp] theorem strobePulse_ch (d : Bool) (s : State) :
    (strobePulse d s).ch = s.ch := rfl
@[simp] theorem strobePulse_patch (d : Bool) (s : State) :
    (strobePulse d s).patch = s.patch := rfl
@[simp] theorem strobePulse_slot (d : Bool) (s : State) :
    (strobePulse d s).slot = s.slot := rfl
@[simp] theorem strobePulse_dirty (d : Bool) (s : State) :
    (strobePulse d s).dirty = s.dirty := rfl
@[simp] theorem strobePulse_changed (d : Bool) (s : State) :
    (strobePulse d s).changed = s.changed := rfl
@[simp] theorem strobePulse_lock (d : Bool) (s : State) :
    (strobePulse d s).lock = s.lock := rfl
@[simp] theorem strobePulse_dual (d : Bool) (s : State) :
    (strobePulse d s).dual = s.dual := rfl
@[simp] theorem strobePulse_now (d : Bool) (s : State) :
    (strobePulse d s).now = s.now := rfl
@[simp] theorem strobePulse_nextTick (d : Bool) (s : State) :
    (strobePulse d s).nextTick = s.nextTick := rfl
@[simp] theorem strobePulse_pins (d : Bool) (s : State) :
    (strobePulse d s).pins = { s.pins with ser := d, stb := false } := rfl
@[simp] theorem strobePulse_sel (d : Bool) (s : State) :
    (strobePulse d s).sel = shiftChain s.cfg.nchip s.sel d := rfl
@[simp] theorem strobePulse_selShown (d : Bool) (s : State) :
    (strobePulse d s).selShown = s.selShown := rfl
@[simp] theorem strobePulse_trace (d : Bool) (s : State) :
    (strobePulse d s).trace = s.trace := rfl
@[simp] theorem strobePulse_pinTrace (d : Bool) (s : State) :
    (strobePulse d s).pinTrace = s.pinTrace ++ strobeEvents s.cfg d := rfl
@[simp] theorem strobePulse_status (d : Bool) (s : State) :
    (strobePulse d s).status = s.status := rfl
@[simp] theorem strobePulse_batch (d : Bool) (s : State) :
    (strobePulse d s).batch = s.batch := rfl
@[simp] theorem strobePulse_agenda (d : Bool) (s : State) :
    (strobePulse d s).agenda = s.agenda := rfl

/-! ### showByte -/

@[simp] theorem showByte_cfg (b : Byte) (s : State) :
    (showByte b s).cfg = s.cfg := rfl
@[simp] theorem showByte_ch (b : Byte) (s : State) :
    (showByte b s).ch = s.ch := rfl
@[simp] theorem showByte_patch (b : Byte) (s : State) :
    (showByte b s).patch = s.patch := rfl
@[simp] theorem showByte_slot (b : Byte) (s : State) :
    (showByte b s).slot = s.slot := rfl
@[simp] theorem showByte_dirty (b : Byte) (s : State) :
    (showByte b s).dirty = s.dirty := rfl
@[simp] theorem showByte_changed (b : Byte) (s : State) :
    (showByte b s).changed = s.changed := rfl
@[simp] theorem showByte_lock (b : Byte) (s : State) :
    (showByte b s).lock = s.lock := rfl
@[simp] theorem showByte_dual (b : Byte) (s : State) :
    (showByte b s).dual = s.dual := rfl
@[simp] theorem showByte_now (b : Byte) (s : State) :
    (showByte b s).now = s.now := rfl
@[simp] theorem showByte_nextTick (b : Byte) (s : State) :
    (showByte b s).nextTick = s.nextTick := rfl
@[simp] theorem showByte_pins (b : Byte) (s : State) :
    (showByte b s).pins = s.pins := rfl
@[simp] theorem showByte_sel (b : Byte) (s : State) :
    (showByte b s).sel = s.sel := rfl
@[simp] theorem showByte_selShown (b : Byte) (s : State) :
    (showByte b s).selShown = s.sel := rfl
@[simp] theorem showByte_trace (b : Byte) (s : State) :
    (showByte b s).trace = s.trace ++ (s.unshown ++ [.byte b]) := rfl
@[simp] theorem showByte_pinTrace (b : Byte) (s : State) :
    (showByte b s).pinTrace = s.pinTrace := rfl
@[simp] theorem showByte_status (b : Byte) (s : State) :
    (showByte b s).status = s.status := rfl
@[simp] theorem showByte_batch (b : Byte) (s : State) :
    (showByte b s).batch = s.batch := rfl
@[simp] theorem showByte_agenda (b : Byte) (s : State) :
    (showByte b s).agenda = s.agenda := rfl

/-! ### sendByte -/

@[simp] theorem sendByte_cfg (b : Byte) (s : State) :
    (sendByte b s).cfg = s.cfg := rfl
@[simp] theorem sendByte_ch (b : Byte) (s : State) :
    (sendByte b s).ch = s.ch := rfl
@[simp] theorem sendByte_patch (b : Byte) (s : State) :
    (sendByte b s).patch = s.patch := rfl
@[simp] theorem sendByte_slot (b : Byte) (s : State) :
    (sendByte b s).slot = s.slot := rfl
@[simp] theorem sendByte_dirty (b : Byte) (s : State) :
    (sendByte b s).dirty = s.dirty := rfl
@[simp] theorem sendByte_changed (b : Byte) (s : State) :
    (sendByte b s).changed = s.changed := rfl
@[simp] theorem sendByte_lock (b : Byte) (s : State) :
    (sendByte b s).lock = s.lock := rfl
@[simp] theorem sendByte_dual (b : Byte) (s : State) :
    (sendByte b s).dual = s.dual := rfl
@[simp] theorem sendByte_now (b : Byte) (s : State) :
    (sendByte b s).now = s.now := rfl
@[simp] theorem sendByte_nextTick (b : Byte) (s : State) :
    (sendByte b s).nextTick = s.nextTick := rfl
@[simp] theorem sendByte_pins (b : Byte) (s : State) :
    (sendByte b s).pins = { s.pins with d := b, clk := false } := rfl
@[simp] theorem sendByte_sel (b : Byte) (s : State) :
    (sendByte b s).sel = s.sel := rfl
@[simp] theorem sendByte_selShown (b : Byte) (s : State) :
    (sendByte b s).selShown = s.sel := rfl
@[simp] theorem sendByte_trace (b : Byte) (s : State) :
    (sendByte b s).trace = s.trace ++ (s.unshown ++ [.byte b]) := rfl
@[simp] theorem sendByte_pinTrace (b : Byte) (s : State) :
    (sendByte b s).pinTrace = s.pinTrace ++ byteEvents s.cfg b := rfl
@[simp] theorem sendByte_status (b : Byte) (s : State) :
    (sendByte b s).status = s.status := rfl
@[simp] theorem sendByte_batch (b : Byte) (s : State) :
    (sendByte b s).batch = s.batch := rfl
@[simp] theorem sendByte_agenda (b : Byte) (s : State) :
    (sendByte b s).agenda = s.agenda := rfl

/-! ### enqueue -/

@[simp] theorem enqueue_cfg (p : Nat) (k : SlotClass) (b0 b1 : Byte) (s : State) :
    (enqueue p k b0 b1 s).cfg = s.cfg := rfl
@[simp] theorem enqueue_ch (p : Nat) (k : SlotClass) (b0 b1 : Byte) (s : State) :
    (enqueue p k b0 b1 s).ch = s.ch := rfl
@[simp] theorem enqueue_patch (p : Nat) (k : SlotClass) (b0 b1 : Byte) (s : State) :
    (enqueue p k b0 b1 s).patch = s.patch := rfl
@[simp] theorem enqueue_slot (p : Nat) (k : SlotClass) (b0 b1 : Byte) (s : State) :
    (enqueue p k b0 b1 s).slot = (s.setSlot p k (some (b0, b1))).slot := rfl
@[simp] theorem enqueue_dirty (p : Nat) (k : SlotClass) (b0 b1 : Byte) (s : State) :
    (enqueue p k b0 b1 s).dirty = s.dirty.set k true := rfl
@[simp] theorem enqueue_changed (p : Nat) (k : SlotClass) (b0 b1 : Byte) (s : State) :
    (enqueue p k b0 b1 s).changed = true := rfl
@[simp] theorem enqueue_lock (p : Nat) (k : SlotClass) (b0 b1 : Byte) (s : State) :
    (enqueue p k b0 b1 s).lock = s.lock := rfl
@[simp] theorem enqueue_dual (p : Nat) (k : SlotClass) (b0 b1 : Byte) (s : State) :
    (enqueue p k b0 b1 s).dual = s.dual := rfl
@[simp] theorem enqueue_now (p : Nat) (k : SlotClass) (b0 b1 : Byte) (s : State) :
    (enqueue p k b0 b1 s).now = s.now := rfl
@[simp] theorem enqueue_nextTick (p : Nat) (k : SlotClass) (b0 b1 : Byte) (s : State) :
    (enqueue p k b0 b1 s).nextTick = s.nextTick := rfl
@[simp] theorem enqueue_pins (p : Nat) (k : SlotClass) (b0 b1 : Byte) (s : State) :
    (enqueue p k b0 b1 s).pins = s.pins := rfl
@[simp] theorem enqueue_sel (p : Nat) (k : SlotClass) (b0 b1 : Byte) (s : State) :
    (enqueue p k b0 b1 s).sel = s.sel := rfl
@[simp] theorem enqueue_selShown (p : Nat) (k : SlotClass) (b0 b1 : Byte) (s : State) :
    (enqueue p k b0 b1 s).selShown = s.selShown := rfl
@[simp] theorem enqueue_trace (p : Nat) (k : SlotClass) (b0 b1 : Byte) (s : State) :
    (enqueue p k b0 b1 s).trace = s.trace := rfl
@[simp] theorem enqueue_pinTrace (p : Nat) (k : SlotClass) (b0 b1 : Byte) (s : State) :
    (enqueue p k b0 b1 s).pinTrace = s.pinTrace := rfl
@[simp] theorem enqueue_status (p : Nat) (k : SlotClass) (b0 b1 : Byte) (s : State) :
    (enqueue p k b0 b1 s).status = s.status := rfl
@[simp] theorem enqueue_batch (p : Nat) (k : SlotClass) (b0 b1 : Byte) (s : State) :
    (enqueue p k b0 b1 s).batch = s.batch := rfl
@[simp] theorem enqueue_agenda (p : Nat) (k : SlotClass) (b0 b1 : Byte) (s : State) :
    (enqueue p k b0 b1 s).agenda = s.agenda := rfl

/-! ### observeTime -/

@[simp] theorem observeTime_cfg (t : Time) (s : State) :
    (observeTime t s).cfg = s.cfg := rfl
@[simp] theorem observeTime_ch (t : Time) (s : State) :
    (observeTime t s).ch = s.ch := rfl
@[simp] theorem observeTime_patch (t : Time) (s : State) :
    (observeTime t s).patch = s.patch := rfl
@[simp] theorem observeTime_slot (t : Time) (s : State) :
    (observeTime t s).slot = s.slot := rfl
@[simp] theorem observeTime_dirty (t : Time) (s : State) :
    (observeTime t s).dirty = s.dirty := rfl
@[simp] theorem observeTime_changed (t : Time) (s : State) :
    (observeTime t s).changed = s.changed := rfl
@[simp] theorem observeTime_lock (t : Time) (s : State) :
    (observeTime t s).lock = s.lock := rfl
@[simp] theorem observeTime_dual (t : Time) (s : State) :
    (observeTime t s).dual = s.dual := rfl
@[simp] theorem observeTime_now (t : Time) (s : State) :
    (observeTime t s).now = if s.now ≤ t then t else s.now := rfl
@[simp] theorem observeTime_nextTick (t : Time) (s : State) :
    (observeTime t s).nextTick = s.nextTick := rfl
@[simp] theorem observeTime_pins (t : Time) (s : State) :
    (observeTime t s).pins = s.pins := rfl
@[simp] theorem observeTime_sel (t : Time) (s : State) :
    (observeTime t s).sel = s.sel := rfl
@[simp] theorem observeTime_selShown (t : Time) (s : State) :
    (observeTime t s).selShown = s.selShown := rfl
@[simp] theorem observeTime_trace (t : Time) (s : State) :
    (observeTime t s).trace = s.trace := rfl
@[simp] theorem observeTime_pinTrace (t : Time) (s : State) :
    (observeTime t s).pinTrace = s.pinTrace := rfl
@[simp] theorem observeTime_status (t : Time) (s : State) :
    (observeTime t s).status = s.status := rfl
@[simp] theorem observeTime_batch (t : Time) (s : State) :
    (observeTime t s).batch = s.batch := rfl
@[simp] theorem observeTime_agenda (t : Time) (s : State) :
    (observeTime t s).agenda = s.agenda := rfl

/-! ### haltWith -/

@[simp] theorem haltWith_cfg (h : HaltCause) (s : State) :
    (haltWith h s).cfg = s.cfg := rfl
@[simp] theorem haltWith_ch (h : HaltCause) (s : State) :
    (haltWith h s).ch = s.ch := rfl
@[simp] theorem haltWith_patch (h : HaltCause) (s : State) :
    (haltWith h s).patch = s.patch := rfl
@[simp] theorem haltWith_slot (h : HaltCause) (s : State) :
    (haltWith h s).slot = s.slot := rfl
@[simp] theorem haltWith_dirty (h : HaltCause) (s : State) :
    (haltWith h s).dirty = s.dirty := rfl
@[simp] theorem haltWith_changed (h : HaltCause) (s : State) :
    (haltWith h s).changed = s.changed := rfl
@[simp] theorem haltWith_lock (h : HaltCause) (s : State) :
    (haltWith h s).lock = s.lock := rfl
@[simp] theorem haltWith_dual (h : HaltCause) (s : State) :
    (haltWith h s).dual = s.dual := rfl
@[simp] theorem haltWith_now (h : HaltCause) (s : State) :
    (haltWith h s).now = s.now := rfl
@[simp] theorem haltWith_nextTick (h : HaltCause) (s : State) :
    (haltWith h s).nextTick = s.nextTick := rfl
@[simp] theorem haltWith_pins (h : HaltCause) (s : State) :
    (haltWith h s).pins = s.pins := rfl
@[simp] theorem haltWith_sel (h : HaltCause) (s : State) :
    (haltWith h s).sel = s.sel := rfl
@[simp] theorem haltWith_selShown (h : HaltCause) (s : State) :
    (haltWith h s).selShown = s.selShown := rfl
@[simp] theorem haltWith_trace (h : HaltCause) (s : State) :
    (haltWith h s).trace = s.trace ++ [.halt h] := rfl
@[simp] theorem haltWith_pinTrace (h : HaltCause) (s : State) :
    (haltWith h s).pinTrace = s.pinTrace ++ [.halt h] := rfl
@[simp] theorem haltWith_status (h : HaltCause) (s : State) :
    (haltWith h s).status = .halt := rfl
@[simp] theorem haltWith_batch (h : HaltCause) (s : State) :
    (haltWith h s).batch = s.batch := rfl
@[simp] theorem haltWith_agenda (h : HaltCause) (s : State) :
    (haltWith h s).agenda = s.agenda := rfl

/-! ### beginTick -/

@[simp] theorem beginTick_cfg (t : Time) (s : State) :
    (beginTick t s).cfg = s.cfg := rfl
@[simp] theorem beginTick_ch (t : Time) (s : State) :
    (beginTick t s).ch = s.ch := rfl
@[simp] theorem beginTick_patch (t : Time) (s : State) :
    (beginTick t s).patch = s.patch := rfl
@[simp] theorem beginTick_slot (t : Time) (s : State) :
    (beginTick t s).slot = s.slot := rfl
@[simp] theorem beginTick_dirty (t : Time) (s : State) :
    (beginTick t s).dirty = s.dirty := rfl
@[simp] theorem beginTick_changed (t : Time) (s : State) :
    (beginTick t s).changed = s.changed := rfl
@[simp] theorem beginTick_lock (t : Time) (s : State) :
    (beginTick t s).lock = .engine := rfl
@[simp] theorem beginTick_dual (t : Time) (s : State) :
    (beginTick t s).dual = s.dual := rfl
@[simp] theorem beginTick_now (t : Time) (s : State) :
    (beginTick t s).now = if s.now ≤ t then t else s.now := rfl
@[simp] theorem beginTick_nextTick (t : Time) (s : State) :
    (beginTick t s).nextTick = nextStart t s.now := by
  simp only [beginTick]
@[simp] theorem beginTick_pins (t : Time) (s : State) :
    (beginTick t s).pins = s.pins := rfl
@[simp] theorem beginTick_sel (t : Time) (s : State) :
    (beginTick t s).sel = s.sel := rfl
@[simp] theorem beginTick_selShown (t : Time) (s : State) :
    (beginTick t s).selShown = s.selShown := rfl
@[simp] theorem beginTick_trace (t : Time) (s : State) :
    (beginTick t s).trace = s.trace := rfl
@[simp] theorem beginTick_pinTrace (t : Time) (s : State) :
    (beginTick t s).pinTrace = s.pinTrace := rfl
@[simp] theorem beginTick_status (t : Time) (s : State) :
    (beginTick t s).status = s.status := rfl
@[simp] theorem beginTick_batch (t : Time) (s : State) :
    (beginTick t s).batch = s.batch := rfl
@[simp] theorem beginTick_agenda (t : Time) (s : State) :
    (beginTick t s).agenda = s.agenda := rfl

/-! ### endTick -/

@[simp] theorem endTick_cfg (s : State) :
    (endTick s).cfg = s.cfg := rfl
@[simp] theorem endTick_ch (s : State) :
    (endTick s).ch = s.ch := rfl
@[simp] theorem endTick_patch (s : State) :
    (endTick s).patch = s.patch := rfl
@[simp] theorem endTick_slot (s : State) :
    (endTick s).slot = s.slot := rfl
@[simp] theorem endTick_dirty (s : State) :
    (endTick s).dirty = s.dirty := rfl
@[simp] theorem endTick_changed (s : State) :
    (endTick s).changed = s.changed := rfl
@[simp] theorem endTick_lock (s : State) :
    (endTick s).lock = .free := rfl
@[simp] theorem endTick_dual (s : State) :
    (endTick s).dual = s.dual := rfl
@[simp] theorem endTick_now (s : State) :
    (endTick s).now = s.now := rfl
@[simp] theorem endTick_nextTick (s : State) :
    (endTick s).nextTick = s.nextTick := rfl
@[simp] theorem endTick_pins (s : State) :
    (endTick s).pins = s.pins := rfl
@[simp] theorem endTick_sel (s : State) :
    (endTick s).sel = s.sel := rfl
@[simp] theorem endTick_selShown (s : State) :
    (endTick s).selShown = s.selShown := rfl
@[simp] theorem endTick_trace (s : State) :
    (endTick s).trace = s.trace := rfl
@[simp] theorem endTick_pinTrace (s : State) :
    (endTick s).pinTrace = s.pinTrace := rfl
@[simp] theorem endTick_status (s : State) :
    (endTick s).status = s.status := rfl
@[simp] theorem endTick_batch (s : State) :
    (endTick s).batch = s.batch := rfl
@[simp] theorem endTick_agenda (s : State) :
    (endTick s).agenda = s.agenda := rfl

/-! ### State.setChan -/

@[simp] theorem State.setChan_cfg (s : State) (c : Nat) (x : Channel) :
    (s.setChan c x).cfg = s.cfg := rfl
@[simp] theorem State.setChan_ch (s : State) (c : Nat) (x : Channel) :
    (s.setChan c x).ch = s.ch.set c x := rfl
@[simp] theorem State.setChan_patch (s : State) (c : Nat) (x : Channel) :
    (s.setChan c x).patch = s.patch := rfl
@[simp] theorem State.setChan_slot (s : State) (c : Nat) (x : Channel) :
    (s.setChan c x).slot = s.slot := rfl
@[simp] theorem State.setChan_dirty (s : State) (c : Nat) (x : Channel) :
    (s.setChan c x).dirty = s.dirty := rfl
@[simp] theorem State.setChan_changed (s : State) (c : Nat) (x : Channel) :
    (s.setChan c x).changed = s.changed := rfl
@[simp] theorem State.setChan_lock (s : State) (c : Nat) (x : Channel) :
    (s.setChan c x).lock = s.lock := rfl
@[simp] theorem State.setChan_dual (s : State) (c : Nat) (x : Channel) :
    (s.setChan c x).dual = s.dual := rfl
@[simp] theorem State.setChan_now (s : State) (c : Nat) (x : Channel) :
    (s.setChan c x).now = s.now := rfl
@[simp] theorem State.setChan_nextTick (s : State) (c : Nat) (x : Channel) :
    (s.setChan c x).nextTick = s.nextTick := rfl
@[simp] theorem State.setChan_pins (s : State) (c : Nat) (x : Channel) :
    (s.setChan c x).pins = s.pins := rfl
@[simp] theorem State.setChan_sel (s : State) (c : Nat) (x : Channel) :
    (s.setChan c x).sel = s.sel := rfl
@[simp] theorem State.setChan_selShown (s : State) (c : Nat) (x : Channel) :
    (s.setChan c x).selShown = s.selShown := rfl
@[simp] theorem State.setChan_trace (s : State) (c : Nat) (x : Channel) :
    (s.setChan c x).trace = s.trace := rfl
@[simp] theorem State.setChan_pinTrace (s : State) (c : Nat) (x : Channel) :
    (s.setChan c x).pinTrace = s.pinTrace := rfl
@[simp] theorem State.setChan_status (s : State) (c : Nat) (x : Channel) :
    (s.setChan c x).status = s.status := rfl
@[simp] theorem State.setChan_batch (s : State) (c : Nat) (x : Channel) :
    (s.setChan c x).batch = s.batch := rfl
@[simp] theorem State.setChan_agenda (s : State) (c : Nat) (x : Channel) :
    (s.setChan c x).agenda = s.agenda := rfl

/-! ### State.setSlot -/

@[simp] theorem State.setSlot_cfg (s : State) (p : Nat) (k : SlotClass) (v : Option (Byte × Byte)) :
    (s.setSlot p k v).cfg = s.cfg := rfl
@[simp] theorem State.setSlot_ch (s : State) (p : Nat) (k : SlotClass) (v : Option (Byte × Byte)) :
    (s.setSlot p k v).ch = s.ch := rfl
@[simp] theorem State.setSlot_patch (s : State) (p : Nat) (k : SlotClass) (v : Option (Byte × Byte)) :
    (s.setSlot p k v).patch = s.patch := rfl
@[simp] theorem State.setSlot_slot (s : State) (p : Nat) (k : SlotClass) (v : Option (Byte × Byte)) :
    (s.setSlot p k v).slot = s.slot.set p ((s.slot.getD p (PerClass.all none)).set k v) := rfl
@[simp] theorem State.setSlot_dirty (s : State) (p : Nat) (k : SlotClass) (v : Option (Byte × Byte)) :
    (s.setSlot p k v).dirty = s.dirty := rfl
@[simp] theorem State.setSlot_changed (s : State) (p : Nat) (k : SlotClass) (v : Option (Byte × Byte)) :
    (s.setSlot p k v).changed = s.changed := rfl
@[simp] theorem State.setSlot_lock (s : State) (p : Nat) (k : SlotClass) (v : Option (Byte × Byte)) :
    (s.setSlot p k v).lock = s.lock := rfl
@[simp] theorem State.setSlot_dual (s : State) (p : Nat) (k : SlotClass) (v : Option (Byte × Byte)) :
    (s.setSlot p k v).dual = s.dual := rfl
@[simp] theorem State.setSlot_now (s : State) (p : Nat) (k : SlotClass) (v : Option (Byte × Byte)) :
    (s.setSlot p k v).now = s.now := rfl
@[simp] theorem State.setSlot_nextTick (s : State) (p : Nat) (k : SlotClass) (v : Option (Byte × Byte)) :
    (s.setSlot p k v).nextTick = s.nextTick := rfl
@[simp] theorem State.setSlot_pins (s : State) (p : Nat) (k : SlotClass) (v : Option (Byte × Byte)) :
    (s.setSlot p k v).pins = s.pins := rfl
@[simp] theorem State.setSlot_sel (s : State) (p : Nat) (k : SlotClass) (v : Option (Byte × Byte)) :
    (s.setSlot p k v).sel = s.sel := rfl
@[simp] theorem State.setSlot_selShown (s : State) (p : Nat) (k : SlotClass) (v : Option (Byte × Byte)) :
    (s.setSlot p k v).selShown = s.selShown := rfl
@[simp] theorem State.setSlot_trace (s : State) (p : Nat) (k : SlotClass) (v : Option (Byte × Byte)) :
    (s.setSlot p k v).trace = s.trace := rfl
@[simp] theorem State.setSlot_pinTrace (s : State) (p : Nat) (k : SlotClass) (v : Option (Byte × Byte)) :
    (s.setSlot p k v).pinTrace = s.pinTrace := rfl
@[simp] theorem State.setSlot_status (s : State) (p : Nat) (k : SlotClass) (v : Option (Byte × Byte)) :
    (s.setSlot p k v).status = s.status := rfl
@[simp] theorem State.setSlot_batch (s : State) (p : Nat) (k : SlotClass) (v : Option (Byte × Byte)) :
    (s.setSlot p k v).batch = s.batch := rfl
@[simp] theorem State.setSlot_agenda (s : State) (p : Nat) (k : SlotClass) (v : Option (Byte × Byte)) :
    (s.setSlot p k v).agenda = s.agenda := rfl

end Sys2Proof.Machine
end

