-- ==== Sys2Proof/Laws/Words.lean ====
section
/-! SUPPORT. Reading and writing one of six like things, and the byte strings of frames and wire
commands: what each helper gives back. -/

namespace Sys2Proof

@[simp] theorem Track.mem_all (k : Track) : k ∈ Track.all := by cases k <;> decide

@[simp] theorem SlotClass.mem_all (k : SlotClass) : k ∈ SlotClass.all := by cases k <;> decide

@[simp] theorem PerTrack.get_all {α : Type} (a : α) (k : Track) : (PerTrack.all a).get k = a := by
  cases k <;> rfl

theorem PerTrack.get_set {α : Type} (v : PerTrack α) (j k : Track) (a : α) :
    (v.set j a).get k = if k = j then a else v.get k := by
  cases j <;> cases k <;> rfl

@[simp] theorem PerTrack.get_set_self {α : Type} (v : PerTrack α) (k : Track) (a : α) :
    (v.set k a).get k = a := by cases k <;> rfl

@[simp] theorem PerClass.get_all {α : Type} (a : α) (k : SlotClass) :
    (PerClass.all a).get k = a := by cases k <;> rfl

theorem PerClass.get_set {α : Type} (v : PerClass α) (j k : SlotClass) (a : α) :
    (v.set j a).get k = if k = j then a else v.get k := by
  cases j <;> cases k <;> rfl

@[simp] theorem PerClass.get_set_self {α : Type} (v : PerClass α) (k : SlotClass) (a : α) :
    (v.set k a).get k = a := by cases k <;> rfl

@[simp] theorem PerClass.set_set {α : Type} (v : PerClass α) (k : SlotClass) (a b : α) :
    (v.set k a).set k b = v.set k b := by cases k <;> rfl

@[simp] theorem natToBytes_length (n v : Nat) : (natToBytes n v).length = n := by
  induction n generalizing v with
  | zero => rfl
  | succ n ih => simp [natToBytes, ih]

/-- Reading back the big-endian bytes of a number gives it modulo their range. -/
theorem bytesToNat_natToBytes (n v : Nat) : bytesToNat (natToBytes n v) = v % 256 ^ n := by
  induction n generalizing v with
  | zero => simp [natToBytes, bytesToNat, Nat.mod_one]
  | succ n ih =>
    simp only [natToBytes, bytesToNat, natToBytes_length, ih, BitVec.toNat_ofNat]
    have h : v % 256 ^ (n + 1) = v % 256 ^ n + 256 ^ n * (v / 256 ^ n % 256) := by
      rw [Nat.pow_succ, Nat.mod_mul]
    rw [h]
    norm_num
    ring

@[simp] theorem wordBytes_length (ws : List Word16) : (wordBytes ws).length = 2 * ws.length := by
  induction ws with
  | nil => rfl
  | cons w ws ih => simp [wordBytes, ih]; omega

/-- The two bytes of a word, high part first, are the word. -/
theorem word_of_bytes (w : Word16) : (w.extractLsb' 8 8 ++ w.extractLsb' 0 8 : BitVec 16) = w := by
  ext i hi
  simp only [BitVec.getElem_append, BitVec.getElem_extractLsb']
  split
  · simp [BitVec.getLsbD_eq_getElem hi]
  · rename_i h
    have : 8 + (i - 8) = i := by omega
    simp [this, BitVec.getLsbD_eq_getElem hi]

/-- Words come back from their bytes. -/
@[simp] theorem pairWords_wordBytes (ws : List Word16) : pairWords (wordBytes ws) = ws := by
  induction ws with
  | nil => rfl
  | cons w ws ih => simp only [wordBytes, pairWords, ih, word_of_bytes]

/-- The class field and the six low bits of a command byte. -/
@[simp] theorem commandByte_cls (k : BitVec 2) (low : BitVec 6) :
    (commandByte k low).extractLsb' 6 2 = k := by
  revert k low; decide +kernel

@[simp] theorem commandByte_low (k : BitVec 2) (low : BitVec 6) :
    (commandByte k low).extractLsb' 0 6 = low := by
  revert k low; decide +kernel

theorem commandByte_toNat (k : BitVec 2) (low : BitVec 6) :
    (commandByte k low).toNat = 64 * k.toNat + low.toNat := by
  revert k low; decide +kernel

/-- A wire command's bytes, by class. -/
theorem wireBytes_eq (l : Layout) (c : CmdClass) (low : BitVec 6) (data : Byte) :
    wireBytes l c low data =
      commandByte (l.cls.get c) low :: if l.hasData.get c then [data] else [] := by
  unfold wireBytes
  split <;> rfl

end Sys2Proof
end

