-- ==== Sys2Proof/Laws/Ops.lean ====
section
/-! SUPPORT. One lemma per shared operation of Machine/Ops.lean and Machine/Operands.lean that says once
everything it can do. -/

namespace Sys2Proof.Machine

open Host (Outcome)

/-! ### Channels and slots -/

theorem chan_setChan (s : State) (c d : Nat) (x : Channel) (h : c < s.ch.length) :
    (s.setChan c x).chan d = if d = c then x else s.chan d := by
  simp only [State.chan, State.setChan, List.getD_eq_getElem?_getD, List.getElem?_set]
  by_cases hd : d = c
  · subst hd; simp [h]
  · simp [hd, Ne.symm hd]

theorem chan_setChan_ne (s : State) {c d : Nat} (x : Channel) (h : d ≠ c) :
    (s.setChan c x).chan d = s.chan d := by
  simp [State.chan, State.setChan, List.getD_eq_getElem?_getD, Ne.symm h]

/-- Writing back what is there changes nothing. -/
theorem setChan_self (s : State) (c : Nat) (h : c < s.ch.length) : s.setChan c (s.chan c) = s := by
  simp [State.setChan, State.chan, h]

/-- Every Channel after a PLOAD has replaced Patch `i`: its own record, marked if it plays the Patch. -/
theorem chan_map_markReloaded (s : State) (i : Fin 128) (c : Nat) :
    (s.ch.map (markReloaded i)).getD c Channel.absent = markReloaded i (s.chan c) := by
  simp only [State.chan, List.getD_eq_getElem?_getD, List.getElem?_map]
  cases s.ch[c]? <;> rfl

theorem chan_mem (s : State) {c : Nat} (h : c < s.ch.length) : s.chan c ∈ s.ch := by
  simp [State.chan, h]

/-- Every member of the Channel array is some `ch[c]`. -/
theorem mem_ch (s : State) {x : Channel} (h : x ∈ s.ch) : ∃ c < s.ch.length, s.chan c = x := by
  obtain ⟨c, hc, rfl⟩ := List.getElem_of_mem h
  exact ⟨c, hc, by simp [State.chan, hc]⟩

theorem slotAt_setSlot (s : State) (p q : Nat) (k j : SlotClass) (v : Option (Byte × Byte))
    (h : p < s.slot.length) :
    (s.setSlot p k v).slotAt q j = if q = p ∧ j = k then v else s.slotAt q j := by
  simp only [State.slotAt, State.setSlot, List.getD_eq_getElem?_getD, List.getElem?_set]
  by_cases hq : q = p
  · subst hq; simp [h, PerClass.get_set]
  · simp [hq, Ne.symm hq]

theorem slotAt_setSlot_ne (s : State) {p q : Nat} {k j : SlotClass} (v : Option (Byte × Byte))
    (h : q ≠ p ∨ j ≠ k) : (s.setSlot p k v).slotAt q j = s.slotAt q j := by
  by_cases hp : p < s.slot.length
  · rw [slotAt_setSlot _ _ _ _ _ _ hp, if_neg]; rintro ⟨rfl, rfl⟩; simp at h
  · simp [State.setSlot, List.set_eq_of_length_le (Nat.not_lt.mp hp), State.slotAt]

/-! ### The gate -/

/-- What a host operation answers: its effect where HOST holds the lock in RUN and the operands are in
their domains, else the state as it was. -/
theorem hostRun_cases (s : State) (d : Prop) [Decidable d] (e : State) :
    (HostHolds s ∧ d ∧ hostRun s d e = .next e) ∨
    (¬ (HostHolds s ∧ d) ∧ hostRun s d e = .next s) := by
  unfold hostRun
  split
  · rename_i h; exact .inl ⟨⟨h.1, h.2.1⟩, h.2.2, rfl⟩
  · rename_i h; exact .inr ⟨fun ⟨⟨a, b⟩, c⟩ => h ⟨a, b, c⟩, rfl⟩

theorem hostRun_run {s : State} {d : Prop} [Decidable d] (e : State) (h : HostHolds s) (hd : d) :
    hostRun s d e = .next e := if_pos ⟨h.1, h.2, hd⟩

theorem hostRun_ignored {s : State} {d : Prop} [Decidable d] (e : State)
    (h : ¬ (HostHolds s ∧ d)) : hostRun s d e = .next s :=
  if_neg fun ⟨a, b, c⟩ => h ⟨⟨a, b⟩, c⟩

/-- The next state of a host operation is its effect or the old state. -/
theorem hostRun_next {s t : State} {d : Prop} [Decidable d] {e : State}
    (h : hostRun s d e = .next t) : (HostHolds s ∧ d ∧ t = e) ∨ t = s := by
  rcases hostRun_cases s d e with ⟨h1, h2, h3⟩ | ⟨_, h3⟩
  · rw [h3] at h; exact .inl ⟨h1, h2, by injection h with h; exact h.symm⟩
  · rw [h3] at h; exact .inr (by injection h with h; exact h.symm)

/-! ### The producer side of the queue -/

theorem enqueue_slotAt (p : Nat) (k : SlotClass) (b0 b1 : Byte) (s : State) (q : Nat)
    (j : SlotClass) (h : p < s.slot.length) :
    (enqueue p k b0 b1 s).slotAt q j = if q = p ∧ j = k then some (b0, b1) else s.slotAt q j :=
  slotAt_setSlot s p q k j (some (b0, b1)) h

theorem enqueue_slotAt_ne {p q : Nat} {k j : SlotClass} (b0 b1 : Byte) (s : State)
    (h : q ≠ p ∨ j ≠ k) : (enqueue p k b0 b1 s).slotAt q j = s.slotAt q j :=
  slotAt_setSlot_ne s _ h

theorem enqueue_slot_length (p : Nat) (k : SlotClass) (b0 b1 : Byte) (s : State) :
    (enqueue p k b0 b1 s).slot.length = s.slot.length := by simp

/-- What any number of enqueues can do to a state: slots, dirty flags and `changed`, nothing else. -/
structure OnlyQueues (s t : State) : Prop where
  eq : t = { s with slot := t.slot, dirty := t.dirty, changed := t.changed }
  slotCount : t.slot.length = s.slot.length
  changedUp : s.changed = true → t.changed = true
  dirtyUp : ∀ k, s.dirty.get k = true → t.dirty.get k = true

theorem OnlyQueues.refl (s : State) : OnlyQueues s s := ⟨rfl, rfl, id, fun _ => id⟩

theorem OnlyQueues.trans {s t u : State} (h : OnlyQueues s t) (g : OnlyQueues t u) :
    OnlyQueues s u := by
  refine ⟨?_, g.slotCount.trans h.slotCount, g.changedUp ∘ h.changedUp,
    fun k => g.dirtyUp k ∘ h.dirtyUp k⟩
  have := g.eq
  rw [h.eq] at this
  exact this

theorem enqueue_onlyQueues (p : Nat) (k : SlotClass) (b0 b1 : Byte) (s : State) :
    OnlyQueues s (enqueue p k b0 b1 s) :=
  ⟨rfl, by simp, fun _ => rfl, fun j h => by
    rw [enqueue_dirty, PerClass.get_set]; split <;> simp [h]⟩

section OnlyQueues
variable {s t : State} (h : OnlyQueues s t)
include h

theorem OnlyQueues.cfg : t.cfg = s.cfg := by rw [h.eq]
theorem OnlyQueues.ch : t.ch = s.ch := by rw [h.eq]
theorem OnlyQueues.chan (c : Nat) : t.chan c = s.chan c := by rw [h.eq]; rfl
theorem OnlyQueues.patch : t.patch = s.patch := by rw [h.eq]
theorem OnlyQueues.lock : t.lock = s.lock := by rw [h.eq]
theorem OnlyQueues.dual : t.dual = s.dual := by rw [h.eq]
theorem OnlyQueues.now : t.now = s.now := by rw [h.eq]
theorem OnlyQueues.nextTick : t.nextTick = s.nextTick := by rw [h.eq]
theorem OnlyQueues.pins : t.pins = s.pins := by rw [h.eq]
theorem OnlyQueues.sel : t.sel = s.sel := by rw [h.eq]
theorem OnlyQueues.selShown : t.selShown = s.selShown := by rw [h.eq]
theorem OnlyQueues.trace : t.trace = s.trace := by rw [h.eq]
theorem OnlyQueues.pinTrace : t.pinTrace = s.pinTrace := by rw [h.eq]
theorem OnlyQueues.status : t.status = s.status := by rw [h.eq]
theorem OnlyQueues.batch : t.batch = s.batch := by rw [h.eq]
theorem OnlyQueues.agenda : t.agenda = s.agenda := by rw [h.eq]
theorem OnlyQueues.chips (c : Nat) : t.chips c = s.chips c := by rw [h.eq]; rfl

end OnlyQueues

@[simp] theorem enqueueAll_nil (k : SlotClass) (b0 b1 : Byte) (s : State) :
    enqueueAll [] k b0 b1 s = s := rfl

@[simp] theorem enqueueAll_cons (p : Nat) (ps : List Nat) (k : SlotClass) (b0 b1 : Byte) (s : State) :
    enqueueAll (p :: ps) k b0 b1 s = enqueueAll ps k b0 b1 (enqueue p k b0 b1 s) := rfl

theorem enqueueAll_onlyQueues (ps : List Nat) (k : SlotClass) (b0 b1 : Byte) (s : State) :
    OnlyQueues s (enqueueAll ps k b0 b1 s) := by
  induction ps generalizing s with
  | nil => exact .refl s
  | cons p ps ih => exact (enqueue_onlyQueues p k b0 b1 s).trans (ih _)

theorem enqueueAll_slotAt (ps : List Nat) (k : SlotClass) (b0 b1 : Byte) (s : State) (q : Nat)
    (j : SlotClass) (h : ∀ p ∈ ps, p < s.slot.length) :
    (enqueueAll ps k b0 b1 s).slotAt q j =
      if q ∈ ps ∧ j = k then some (b0, b1) else s.slotAt q j := by
  induction ps generalizing s with
  | nil => simp
  | cons p ps ih =>
    rw [enqueueAll_cons, ih _ (by rw [enqueue_slot_length]; exact fun r hr => h r (.tail _ hr)),
      enqueue_slotAt _ _ _ _ _ _ _ (h p (.head _))]
    by_cases h1 : q ∈ ps <;> by_cases h2 : j = k <;> simp [h1, h2]

theorem enqueueAll_dirty (ps : List Nat) (k : SlotClass) (b0 b1 : Byte) (s : State)
    (h : ps ≠ []) :
    (enqueueAll ps k b0 b1 s).dirty = s.dirty.set k true ∧
    (enqueueAll ps k b0 b1 s).changed = true := by
  induction ps generalizing s with
  | nil => simp at h
  | cons p ps ih =>
    rw [enqueueAll_cons]
    by_cases hp : ps = []
    · subst hp; simp
    · simpa using ih (enqueue p k b0 b1 s) hp

/-- A Channel drives at least one chip. -/
theorem chips_ne_nil (s : State) (c : Nat) : s.chips c ≠ [] := by
  unfold State.chips; split <;> simp

theorem getD_mem_of_lt {l : List Nat} {c d : Nat} (h : c < l.length) : l.getD c d ∈ l := by
  simp [List.getD_eq_getElem?_getD, h]

/-- The chips of a Channel in use are chips of the chain. -/
theorem chips_lt {s : State} (h : Inv s) {c : Nat} (hc : c < s.chans) :
    ∀ p ∈ s.chips c, p < s.slot.length := by
  obtain ⟨hl, hr, -, hm⟩ := h.cfgWf.2.2.2.2.2.1
  rw [h.slotCount]
  unfold State.chips State.chans at *
  cases hd : s.dual <;> simp only [hd] at hc ⊢
  · simpa using hc
  · simp only [if_true] at hc
    have hL : s.cfg.chipL.getD c 0 ∈ s.cfg.chipL := getD_mem_of_lt (by omega)
    have hR : s.cfg.chipR.getD c 0 ∈ s.cfg.chipR := getD_mem_of_lt (by omega)
    simp only [if_true, List.mem_cons, List.not_mem_nil, or_false]
    rintro p (rfl | rfl)
    · exact hm _ (List.mem_append_left _ hL)
    · exact hm _ (List.mem_append_right _ hR)

/-- The two chips of a Channel in use in dual mode differ. -/
theorem chipL_ne_chipR {s : State} (h : Inv s) {c : Nat} (hc : c < s.chans) (hd : s.dual = true) :
    s.cfg.chipL.getD c 0 ≠ s.cfg.chipR.getD c 0 := by
  obtain ⟨hl, hr, hn, -⟩ := h.cfgWf.2.2.2.2.2.1
  simp only [State.chans, hd, if_true] at hc
  intro e
  have hL : s.cfg.chipL.getD c 0 ∈ s.cfg.chipL := getD_mem_of_lt (by omega)
  have hR : s.cfg.chipR.getD c 0 ∈ s.cfg.chipR := getD_mem_of_lt (by omega)
  exact List.disjoint_of_nodup_append hn hL (e ▸ hR)

theorem chans_le (s : State) : s.chans ≤ s.cfg.nchip := by
  unfold State.chans; split <;> omega

theorem lt_ch_length {s : State} (h : Inv s) {c : Nat} (hc : c < s.chans) : c < s.ch.length := by
  rw [h.chCount]; exact lt_of_lt_of_le hc (chans_le s)

/-! ### The transport -/

@[simp] theorem strobePulses_nil (s : State) : strobePulses [] s = s := rfl

@[simp] theorem strobePulses_cons (d : Bool) (ds : List Bool) (s : State) :
    strobePulses (d :: ds) s = strobePulses ds (strobePulse d s) := rfl

/-- A run of pulses in one equation: the chain shifts once per bit, each pulse adds its events, and
SER keeps the last bit. -/
theorem strobePulses_eq (ds : List Bool) (s : State) :
    strobePulses ds s =
      { s with
        sel := ds.foldl (shiftChain s.cfg.nchip) s.sel
        pinTrace := s.pinTrace ++ ds.flatMap (strobeEvents s.cfg)
        pins := if ds = [] then s.pins
          else { s.pins with ser := ds.getLastD s.pins.ser, stb := false } } := by
  induction ds generalizing s with
  | nil => simp
  | cons d ds ih =>
    rw [strobePulses_cons, ih]
    cases ds <;> simp [strobePulse, List.getLast?_cons]

@[simp] theorem sendBytes_nil (s : State) : sendBytes [] s = s := rfl

@[simp] theorem sendBytes_cons (b : Byte) (bs : List Byte) (s : State) :
    sendBytes (b :: bs) s = sendBytes bs (sendByte b s) := rfl

theorem sendBytes_append (as bs : List Byte) (s : State) :
    sendBytes (as ++ bs) s = sendBytes bs (sendBytes as s) := by simp [sendBytes]

/-- A run of bytes in one equation. -/
theorem sendBytes_eq (bs : List Byte) (s : State) :
    sendBytes bs s =
      { s with
        trace := s.trace ++ (if bs = [] then [] else s.unshown) ++ bs.map .byte
        selShown := if bs = [] then s.selShown else s.sel
        pinTrace := s.pinTrace ++ bs.flatMap (byteEvents s.cfg)
        pins := if bs = [] then s.pins
          else { s.pins with d := bs.getLastD s.pins.d, clk := false } } := by
  induction bs generalizing s with
  | nil => simp
  | cons b bs ih =>
    rw [sendBytes_cons, ih]
    cases bs <;> simp [sendByte, State.unshown, List.getLast?_cons]

theorem shiftChain_false (n x : Nat) : shiftChain n x false = x * 2 % 2 ^ n := rfl

theorem shiftChain_true (n x : Nat) : shiftChain n x true = (x * 2 + 1) % 2 ^ n := rfl

theorem shiftChain_lt (n x : Nat) (d : Bool) : shiftChain n x d < 2 ^ n :=
  Nat.mod_lt _ (Nat.two_pow_pos n)

/-- The number whose bits, first to last, have been shifted into `x`. -/
def shiftedIn (x : Nat) (ds : List Bool) : Nat := ds.foldl (fun a d => a * 2 + d.toNat) x

/-- The chain after a run of pulses. -/
theorem foldl_shiftChain (n : Nat) (ds : List Bool) (x : Nat) :
    ds.foldl (shiftChain n) x % 2 ^ n = shiftedIn x ds % 2 ^ n := by
  induction ds generalizing x with
  | nil => rfl
  | cons d ds ih =>
    rw [List.foldl_cons, ih]
    have key : ∀ (ds : List Bool) (a b : Nat), a % 2 ^ n = b % 2 ^ n →
        shiftedIn a ds % 2 ^ n = shiftedIn b ds % 2 ^ n := by
      intro ds
      induction ds with
      | nil => exact fun _ _ h => h
      | cons e es ih2 =>
        intro a b h
        exact ih2 _ _ (by rw [Nat.add_mod, Nat.mul_mod, h, ← Nat.mul_mod, ← Nat.add_mod])
    exact key ds _ _ (by simp [shiftChain])

theorem shiftedIn_replicate_false (k x : Nat) :
    shiftedIn x (List.replicate k false) = x * 2 ^ k := by
  induction k generalizing x with
  | zero => simp [shiftedIn]
  | succ k ih =>
    have : shiftedIn x (List.replicate (k + 1) false) = shiftedIn (x * 2) (List.replicate k false) := by
      simp [shiftedIn, List.replicate_succ]
    rw [this, ih, Nat.pow_succ]; ring

theorem shiftedIn_replicate_true (k x : Nat) :
    shiftedIn x (List.replicate k true) + 1 = (x + 1) * 2 ^ k := by
  induction k generalizing x with
  | zero => simp [shiftedIn]
  | succ k ih =>
    have : shiftedIn x (List.replicate (k + 1) true) =
        shiftedIn (x * 2 + 1) (List.replicate k true) := by
      simp [shiftedIn, List.replicate_succ]
    rw [this, ih, Nat.pow_succ]; ring

theorem foldl_shiftChain_lt (n : Nat) {ds : List Bool} (h : ds ≠ []) (x : Nat) :
    ds.foldl (shiftChain n) x < 2 ^ n := by
  induction ds generalizing x with
  | nil => simp at h
  | cons d ds ih =>
    cases ds with
    | nil => exact shiftChain_lt n x d
    | cons e es => exact ih (by simp) _

/-- `NCHIP` pulses with a single 1 leave the chain one-hot, whatever it held. -/
theorem addressBits_sel {n k : Nat} (h : k < n) (x : Nat) :
    (addressBits n k).foldl (shiftChain n) x = 2 ^ k := by
  have hne : addressBits n k ≠ [] := by simp [addressBits]
  have hv : shiftedIn x (addressBits n k) = x * 2 ^ n + 2 ^ k := by
    have : shiftedIn x (addressBits n k) =
        shiftedIn (shiftedIn x (List.replicate (n - 1 - k) false) * 2 + 1)
          (List.replicate k false) := by simp [addressBits, shiftedIn]
    rw [this, shiftedIn_replicate_false, shiftedIn_replicate_false]
    have hn : 2 ^ n = 2 ^ (n - 1 - k) * 2 * 2 ^ k := by
      rw [← Nat.pow_succ, ← Nat.pow_add]; congr 1; omega
    rw [hn]; ring
  have h2 : 2 ^ k < 2 ^ n := Nat.pow_lt_pow_right (by norm_num) h
  have := foldl_shiftChain n (addressBits n k) x
  rwa [Nat.mod_eq_of_lt (foldl_shiftChain_lt n hne x), hv, Nat.mul_comm, Nat.mul_add_mod, Nat.mod_eq_of_lt h2] at this

/-- `NCHIP` pulses of 1 leave the chain all ones. -/
theorem broadcast_sel {n : Nat} (h : 0 < n) (x : Nat) :
    (List.replicate n true).foldl (shiftChain n) x = 2 ^ n - 1 := by
  have hne : List.replicate n true ≠ [] := by simp; omega
  have := foldl_shiftChain n (List.replicate n true) x
  rw [Nat.mod_eq_of_lt (foldl_shiftChain_lt n hne x)] at this
  have hv := shiftedIn_replicate_true n x
  have hp := Nat.two_pow_pos n
  have hx : shiftedIn x (List.replicate n true) = 2 ^ n * x + (2 ^ n - 1) := by
    have : (x + 1) * 2 ^ n = 2 ^ n * x + 2 ^ n := by ring
    omega
  rw [this, hx, Nat.mul_add_mod, Nat.mod_eq_of_lt (by omega)]

/-- `Address(k)` in one equation (R193, R199). -/
theorem address_eq {k : Nat} {s : State} (h : k < s.cfg.nchip) :
    address k s =
      { s with
        sel := 2 ^ k
        selShown := 2 ^ k
        trace := s.trace ++ [.select (2 ^ k)]
        pinTrace := s.pinTrace ++ (addressBits s.cfg.nchip k).flatMap (strobeEvents s.cfg)
        pins := { s.pins with ser := decide (k = 0), stb := false } } := by
  have hne : addressBits s.cfg.nchip k ≠ [] := by simp [addressBits]
  have hlast : (addressBits s.cfg.nchip k).getLastD s.pins.ser = decide (k = 0) := by
    rcases k with _ | k
    · simp [addressBits]
    · rw [List.getLastD_eq_getLast?]
      simp [addressBits, List.getLast?_cons, List.replicate_succ']
  simp only [address, strobePulses_eq, showSelect, addressBits_sel h, if_neg hne, hlast]

/-- `Broadcast()` in one equation (R194, R200). -/
theorem broadcast_eq {s : State} (h : 0 < s.cfg.nchip) :
    broadcast s =
      { s with
        sel := 2 ^ s.cfg.nchip - 1
        selShown := 2 ^ s.cfg.nchip - 1
        trace := s.trace ++ [.select (2 ^ s.cfg.nchip - 1)]
        pinTrace := s.pinTrace ++
          (List.replicate s.cfg.nchip true).flatMap (strobeEvents s.cfg)
        pins := { s.pins with ser := true, stb := false } } := by
  have hne : List.replicate s.cfg.nchip true ≠ [] := by simp; omega
  have hlast : (List.replicate s.cfg.nchip true).getLastD s.pins.ser = true := by
    obtain ⟨n, hn⟩ := Nat.exists_eq_succ_of_ne_zero (Nat.ne_of_gt h)
    rw [List.getLastD_eq_getLast?, hn, List.replicate_succ']
    simp
  simp only [broadcast, strobePulses_eq, showSelect, broadcast_sel h, if_neg hne, hlast]

/-- A broadcast without any premise: pins, chain and traces are all it touches. -/
theorem broadcast_onlyTransmits (s : State) : OnlyTransmits s (broadcast s) := by
  constructor <;> simp [broadcast, strobePulses_eq]

theorem address_onlyTransmits (k : Nat) (s : State) : OnlyTransmits s (address k s) := by
  constructor <;> simp [address, strobePulses_eq]

theorem sendBytes_onlyTransmits (bs : List Byte) (s : State) : OnlyTransmits s (sendBytes bs s) := by
  constructor <;> simp [sendBytes_eq]

theorem OnlyTransmits.refl (s : State) : OnlyTransmits s s := by constructor <;> rfl

theorem OnlyTransmits.trans {s t u : State} (h : OnlyTransmits s t) (g : OnlyTransmits t u) :
    OnlyTransmits s u :=
  ⟨g.cfg.trans h.cfg, g.ch.trans h.ch, g.patch.trans h.patch, g.slot.trans h.slot,
    g.dirty.trans h.dirty, g.changed.trans h.changed, g.lock.trans h.lock, g.dual.trans h.dual,
    g.now.trans h.now, g.nextTick.trans h.nextTick, g.status.trans h.status, g.batch.trans h.batch,
    g.agenda.trans h.agenda⟩

theorem OnlyTransmits.chan {s t : State} (h : OnlyTransmits s t) (c : Nat) : t.chan c = s.chan c := by
  unfold State.chan; rw [h.ch]

theorem OnlyTransmits.slotAt {s t : State} (h : OnlyTransmits s t) (p : Nat) (k : SlotClass) :
    t.slotAt p k = s.slotAt p k := by
  unfold State.slotAt; rw [h.slot]

/-- `emit` of one event. -/
theorem emit_onlyTransmits (e : Event) (s : State) : OnlyTransmits s (emit e s) := by
  constructor <;> rfl

theorem emitWire_onlyTransmits (e : WireEvent) (s : State) : OnlyTransmits s (emitWire e s) := by
  cases e with
  | byte b => exact sendBytes_onlyTransmits [b] s
  | pin p v =>
    cases p
    · constructor <;> rfl
    · constructor <;> rfl
    · unfold emitWire drivePin; dsimp only; split <;> constructor <;> rfl
  | data b => constructor <;> rfl
  | hold n => constructor <;> rfl

theorem emitWires_onlyTransmits (es : List WireEvent) (s : State) :
    OnlyTransmits s (emitWires es s) := by
  induction es generalizing s with
  | nil => exact .refl s
  | cons e es ih => exact (emitWire_onlyTransmits e s).trans (ih _)

end Sys2Proof.Machine
end

