-- ==== Sys2Proof/Laws/Encoders.lean ====
section
/-! SUPPORT. The per-parameter encoders: what each queues, and that it does nothing else; the ranges of
quantised and converted values. -/

namespace Sys2Proof.Machine

/-! ### Ranges -/

theorem clampRat_mem {x lo hi : ℚ} (h : lo ≤ hi) : lo ≤ clampRat x lo hi ∧ clampRat x lo hi ≤ hi := by
  unfold clampRat
  split
  · exact ⟨le_refl _, h⟩
  · split
    · exact ⟨h, le_refl _⟩
    · exact ⟨not_lt.mp ‹_›, not_lt.mp ‹_›⟩

theorem clampInt_mem {x lo hi : Int} (h : lo ≤ hi) : lo ≤ clampInt x lo hi ∧ clampInt x lo hi ≤ hi := by
  unfold clampInt; split
  · omega
  · split <;> omega

theorem clampInt_self {x lo hi : Int} (h1 : lo ≤ x) (h2 : x ≤ hi) : clampInt x lo hi = x := by
  unfold clampInt; split
  · omega
  · split <;> omega

/-- Quantisation keeps an interval whose ends are whole numbers. -/
theorem quantise_mem (g : Cfg) {x : ℚ} {lo hi : Int} (h1 : (lo : ℚ) ≤ x) (h2 : x ≤ hi) :
    (lo : ℚ) ≤ quantise g x ∧ quantise g x ≤ hi := by
  unfold quantise
  split
  · exact ⟨h1, h2⟩
  · rename_i n _
    have hn : (0 : ℚ) < (n : ℚ) + 1 := by positivity
    have e1 : ((lo * ((n : Int) + 1) : Int) : ℚ) = (lo : ℚ) * ((n : ℚ) + 1) := by push_cast; ring
    have hfl : lo * ((n : Int) + 1) ≤ (x * ((n : ℚ) + 1)).floor :=
      Int.le_floor (a := x * ((n : ℚ) + 1)) |>.mpr
        (e1.trans_le (mul_le_mul_of_nonneg_right h1 hn.le))
    have hfh : ((x * ((n : ℚ) + 1)).floor : ℚ) ≤ x * ((n : ℚ) + 1) := Int.floor_le _
    constructor
    · rw [le_div_iff₀ hn, ← e1]; exact_mod_cast hfl
    · rw [div_le_iff₀ hn]
      exact hfh.trans (mul_le_mul_of_nonneg_right h2 hn.le)

theorem quantise_unit (g : Cfg) {x : ℚ} (h : inUnit x) : inUnit (quantise g x) := by
  simpa using quantise_mem g (lo := 0) (hi := 1) (by simpa using h.1) (by simpa using h.2)

theorem quantise_signed (g : Cfg) {x : ℚ} (h : inSigned x) : inSigned (quantise g x) := by
  simpa using quantise_mem g (lo := -1) (hi := 1) (by simpa using h.1) (by simpa using h.2)

@[simp] theorem quantise_zero (g : Cfg) : quantise g 0 = 0 := by
  unfold quantise
  split
  · rfl
  · have : (0 : ℚ).floor = 0 := rfl
    simp [this]

/-- A floor that fits its field is the field's value. -/
theorem floorBits_toNat {n : Nat} {x : ℚ} (h0 : 0 ≤ x) (h1 : x.floor < 2 ^ n) :
    ((floorBits n x).toNat : Int) = x.floor := by
  have : 0 ≤ x.floor := Int.floor_nonneg.mpr h0
  unfold floorBits
  rw [BitVec.toNat_ofInt, Int.emod_eq_of_lt this (by exact_mod_cast h1), Int.toNat_of_nonneg this]

/-- A fraction scaled by 63 fits six bits, by 255 eight. -/
theorem floorBits_unit {n : Nat} {x : ℚ} {m : Nat} (hx : inUnit x) (hm : m < 2 ^ n) :
    ((floorBits n (x * (m : ℚ))).toNat : Int) = (x * (m : ℚ)).floor := by
  have hm0 : (0 : ℚ) ≤ m := by positivity
  refine floorBits_toNat (mul_nonneg hx.1 hm0) ?_
  have : (x * (m : ℚ)).floor ≤ (m : Int) :=
    Int.floor_le_iff (a := x * (m : ℚ)) |>.mpr (by
      have h3 := mul_le_mul_of_nonneg_right hx.2 hm0
      push_cast
      linarith)
  have : (m : Int) < 2 ^ n := by exact_mod_cast hm
  omega

theorem panLaw_unit (a p : ℚ) : inUnit (panLaw a p).1 ∧ inUnit (panLaw a p).2 := by
  unfold panLaw
  split
  · exact ⟨⟨le_refl _, zero_le_one⟩, le_refl _, zero_le_one⟩
  · exact ⟨clampRat_mem (by norm_num), clampRat_mem (by norm_num)⟩

@[simp] theorem panLaw_zero (p : ℚ) : panLaw 0 p = (0, 0) := if_pos rfl

/-! ### What each encoder queues -/

theorem updWave_onlyQueues (c : Nat) (s : State) : OnlyQueues s (updWave c s) :=
  enqueueAll_onlyQueues _ _ _ _ _

theorem updFreq_onlyQueues (c : Nat) (s : State) : OnlyQueues s (updFreq c s) :=
  enqueueAll_onlyQueues _ _ _ _ _

theorem updVol_onlyQueues (c : Nat) (s : State) : OnlyQueues s (updVol c s) := by
  unfold updVol; dsimp only; split
  · exact (enqueue_onlyQueues _ _ _ _ _).trans (enqueue_onlyQueues _ _ _ _ _)
  · exact enqueue_onlyQueues _ _ _ _ _

theorem enqueueFilter_onlyQueues (a b v : Byte) (p : Nat) (s : State) :
    OnlyQueues s (enqueueFilter a b v p s) :=
  ((enqueue_onlyQueues _ _ _ _ _).trans (enqueue_onlyQueues _ _ _ _ _)).trans
    (enqueue_onlyQueues _ _ _ _ _)

theorem foldl_enqueueFilter_onlyQueues (a b v : Byte) (ps : List Nat) (s : State) :
    OnlyQueues s (ps.foldl (fun t p => enqueueFilter a b v p t) s) := by
  induction ps generalizing s with
  | nil => exact .refl s
  | cons p ps ih => exact (enqueueFilter_onlyQueues a b v p s).trans (ih _)

theorem updFilter_onlyQueues (c : Nat) (s : State) : OnlyQueues s (updFilter c s) :=
  foldl_enqueueFilter_onlyQueues _ _ _ _ _

theorem updTrack_onlyQueues (k : Track) (c : Nat) (s : State) : OnlyQueues s (updTrack k c s) := by
  cases k
  case pan =>
    show OnlyQueues s (if s.dual = true then updVol c s else s)
    split
    · exact updVol_onlyQueues c s
    · exact .refl s
  case volume => exact updVol_onlyQueues c s
  case frequency => exact updFreq_onlyQueues c s
  case duty => exact updWave_onlyQueues c s
  case cutoff => exact updFilter_onlyQueues c s
  case resonance => exact updFilter_onlyQueues c s

/-- The slots and dirty flags of one enqueued command class for a Channel's chips. -/
theorem enqueueAll_queued (c : Nat) (k : SlotClass) (b0 b1 : Byte) (s : State)
    (h : ∀ p ∈ s.chips c, p < s.slot.length) :
    Queued s (enqueueAll (s.chips c) k b0 b1 s) c k b0 b1 := by
  obtain ⟨h1, h2⟩ := enqueueAll_dirty (s.chips c) k b0 b1 s (chips_ne_nil s c)
  exact ⟨fun p hp => by rw [enqueueAll_slotAt _ _ _ _ _ _ _ h]; simp [hp], by rw [h1]; simp, h2⟩

/-- What an enqueue for one class leaves alone. -/
theorem enqueueAll_other (ps : List Nat) (k : SlotClass) (b0 b1 : Byte) (s : State) :
    (∀ q j, q ∉ ps ∨ j ≠ k → (enqueueAll ps k b0 b1 s).slotAt q j = s.slotAt q j) ∧
    (∀ j, j ≠ k → (enqueueAll ps k b0 b1 s).dirty.get j = s.dirty.get j) := by
  induction ps generalizing s with
  | nil => exact ⟨fun _ _ _ => rfl, fun _ _ => rfl⟩
  | cons p ps ih =>
    rw [enqueueAll_cons]
    refine ⟨fun q j h => ?_, fun j h => ?_⟩
    · rw [(ih _).1 q j (h.imp_left fun h m => h (.tail _ m)), enqueue_slotAt_ne]
      exact h.imp_left fun h e => h (e ▸ .head _)
    · rw [(ih _).2 j h, enqueue_dirty, PerClass.get_set, if_neg h]

/-- `UpdFilter` chip by chip: the three slots of each chip of the list, and nothing else. -/
theorem foldl_enqueueFilter_slotAt (a b v : Byte) (ps : List Nat) (s : State) (q : Nat)
    (j : SlotClass) (h : ∀ p ∈ ps, p < s.slot.length) :
    (ps.foldl (fun t p => enqueueFilter a b v p t) s).slotAt q j =
      if q ∈ ps ∧ j = .alpha then some (firstByte s.cfg .param s.cfg.layout.pselAlpha, a)
      else if q ∈ ps ∧ j = .beta then some (firstByte s.cfg .param s.cfg.layout.pselBeta, b)
      else if q ∈ ps ∧ j = .gamma then some (firstByte s.cfg .param s.cfg.layout.pselGamma, v)
      else s.slotAt q j := by
  induction ps generalizing s with
  | nil => simp
  | cons p ps ih =>
    have hp := h p (.head _)
    rw [List.foldl_cons, ih]
    · have hs : (enqueueFilter a b v p s).slotAt q j =
          if q = p ∧ j = .alpha then some (firstByte s.cfg .param s.cfg.layout.pselAlpha, a)
          else if q = p ∧ j = .beta then some (firstByte s.cfg .param s.cfg.layout.pselBeta, b)
          else if q = p ∧ j = .gamma then some (firstByte s.cfg .param s.cfg.layout.pselGamma, v)
          else s.slotAt q j := by
        unfold enqueueFilter
        rw [enqueue_slotAt _ _ _ _ _ _ _ (by simpa using hp),
          enqueue_slotAt _ _ _ _ _ _ _ (by simpa using hp), enqueue_slotAt _ _ _ _ _ _ _ hp]
        by_cases h1 : q = p <;> cases j <;> simp [h1]
      rw [hs]
      have hc : (enqueueFilter a b v p s).cfg = s.cfg := (enqueueFilter_onlyQueues a b v p s).cfg
      rw [hc]
      by_cases h1 : q ∈ ps <;> by_cases h2 : q = p <;> cases j <;> simp [h1, h2]
    · rw [(enqueueFilter_onlyQueues a b v p s).slotCount]
      exact fun r hr => h r (.tail _ hr)

theorem enqueueFilter_dirty (a b v : Byte) (p : Nat) (s : State) :
    (enqueueFilter a b v p s).dirty =
      ((s.dirty.set .alpha true).set .beta true).set .gamma true ∧
    (enqueueFilter a b v p s).changed = true := ⟨rfl, rfl⟩

theorem foldl_enqueueFilter_dirty (a b v : Byte) (ps : List Nat) (s : State) (h : ps ≠ []) :
    (ps.foldl (fun t p => enqueueFilter a b v p t) s).dirty =
      ((s.dirty.set .alpha true).set .beta true).set .gamma true ∧
    (ps.foldl (fun t p => enqueueFilter a b v p t) s).changed = true := by
  induction ps generalizing s with
  | nil => simp at h
  | cons p ps ih =>
    rw [List.foldl_cons]
    by_cases hp : ps = []
    · subst hp; exact enqueueFilter_dirty a b v p s
    · obtain ⟨h1, h2⟩ := ih (enqueueFilter a b v p s) hp
      refine ⟨h1.trans ?_, h2⟩
      rw [(enqueueFilter_dirty a b v p s).1]; rfl

/-- Where a slot is filled after an encoder but was not before, its class is dirty. -/
theorem enqueue_pending (p : Nat) (k : SlotClass) (b0 b1 : Byte) (s : State)
    (h : ∀ v ∈ s.slot, ∀ j, (v.get j).isSome = true → s.dirty.get j = true) :
    ∀ v ∈ (enqueue p k b0 b1 s).slot, ∀ j, (v.get j).isSome = true →
      (enqueue p k b0 b1 s).dirty.get j = true := by
  intro v hv j hj
  rw [enqueue_dirty, PerClass.get_set]
  split
  · rfl
  · rename_i hk
    rw [enqueue_slot] at hv
    rcases List.mem_or_eq_of_mem_set hv with hv | rfl
    · exact h v hv j hj
    · rw [PerClass.get_set, if_neg hk] at hj
      by_cases hp : p < s.slot.length
      · exact h _ (by simp [hp]) j hj
      · simp [List.getD_eq_getElem?_getD, hp] at hj

/-! ### One track's encoder -/

/-- The slot classes the encoder of a track writes (41_envelope_engine.md R149's table). -/
def trackClasses (dual : Bool) : Track → List SlotClass
  | .volume => [.vol]
  | .pan => if dual then [.vol] else []
  | .frequency => [.freq]
  | .duty => [.wave]
  | .cutoff | .resonance => [.alpha, .beta, .gamma]

/-- The pair that an encoder leaves in the slot of class `k` of chip `p` of Channel `c`, for the
registers `x`. -/
def slotBytes (s : State) (c : Nat) (x : Channel) (k : SlotClass) (p : Nat) : Byte × Byte :=
  match k with
  | .wave =>
    (firstByte s.cfg .wave (s.cfg.layout.waveCode.get x.waveType), floorBits 8 (x.duty * 255))
  | .freq =>
    (firstByte s.cfg .freq ((freq14 s.cfg x.frequency).extractLsb' 8 6),
      (freq14 s.cfg x.frequency).extractLsb' 0 8)
  | .vol =>
    (volByte s.cfg
      (if s.dual then
        if p = s.cfg.chipR.getD c 0 then (panLaw x.amplitude x.pan).2
        else (panLaw x.amplitude x.pan).1
      else x.amplitude), 0)
  | .alpha => (firstByte s.cfg .param s.cfg.layout.pselAlpha, alphaByte s.cfg x.cutoff.toNat)
  | .beta =>
    (firstByte s.cfg .param s.cfg.layout.pselBeta, betaCoefficient s.cfg x.cutoff.toNat x.resonance)
  | .gamma =>
    (firstByte s.cfg .param s.cfg.layout.pselGamma, gammaByte s.cfg x.cutoff.toNat x.resonance)

theorem updVol_slotAt {c : Nat} {s : State} (h : ∀ p ∈ s.chips c, p < s.slot.length)
    (q : Nat) (j : SlotClass) :
    (updVol c s).slotAt q j =
      if q ∈ s.chips c ∧ j = .vol then some (slotBytes s c (s.chan c) .vol q) else s.slotAt q j := by
  unfold updVol State.chips slotBytes at *
  cases hd : s.dual with
  | false =>
    simp only [hd, Bool.false_eq_true, if_false, List.mem_singleton] at h ⊢
    rw [enqueue_slotAt _ _ _ _ _ _ _ (h c rfl)]
  | true =>
    simp only [hd, if_true, List.mem_cons, List.not_mem_nil, or_false] at h ⊢
    rw [enqueue_slotAt _ _ _ _ _ _ _ (by rw [enqueue_slot_length]; exact h _ (.inr rfl)),
      enqueue_slotAt _ _ _ _ _ _ _ (h _ (.inl rfl))]
    generalize s.cfg.chipR.getD c 0 = r
    generalize s.cfg.chipL.getD c 0 = l
    by_cases h3 : j = .vol
    · by_cases h1 : q = r
      · simp [h1, h3]
      · by_cases h2 : q = l
        · subst h2; simp [h1, h3]
        · simp [h1, h2, h3]
    · simp [h3]

/-- Everything one track's encoder does to the slots: its classes of the Channel's chips are filled from
the Channel's registers, every other slot is as before. -/
theorem updTrack_slotAt (k : Track) {c : Nat} {s : State} (h : ∀ p ∈ s.chips c, p < s.slot.length)
    (q : Nat) (j : SlotClass) :
    (updTrack k c s).slotAt q j =
      if q ∈ s.chips c ∧ j ∈ trackClasses s.dual k then some (slotBytes s c (s.chan c) j q)
      else s.slotAt q j := by
  have filter : (updFilter c s).slotAt q j =
      if q ∈ s.chips c ∧ j ∈ [SlotClass.alpha, .beta, .gamma] then
        some (slotBytes s c (s.chan c) j q) else s.slotAt q j := by
    unfold updFilter
    rw [foldl_enqueueFilter_slotAt _ _ _ _ _ _ _ h]
    by_cases hq : q ∈ s.chips c <;> cases j <;> simp [hq, slotBytes]
  have vol : (updVol c s).slotAt q j =
      if q ∈ s.chips c ∧ j ∈ [SlotClass.vol] then some (slotBytes s c (s.chan c) j q)
      else s.slotAt q j := by
    rw [updVol_slotAt h]
    by_cases hj : j = .vol <;> simp [hj]
  cases k with
  | volume => exact vol
  | pan =>
    show (if s.dual = true then updVol c s else s).slotAt q j = _
    unfold trackClasses
    cases hd : s.dual with
    | false => simp
    | true => simpa [hd] using vol
  | frequency =>
    show (updFreq c s).slotAt q j = _
    unfold updFreq
    rw [enqueueAll_slotAt _ _ _ _ _ _ _ h]
    by_cases hj : j = .freq <;> simp [hj, trackClasses, slotBytes]
  | duty =>
    show (updWave c s).slotAt q j = _
    unfold updWave
    rw [enqueueAll_slotAt _ _ _ _ _ _ _ h]
    by_cases hj : j = .wave <;> simp [hj, trackClasses, slotBytes]
  | cutoff => exact filter
  | resonance => exact filter

/-- Everything one track's encoder does to the dirty flags. -/
theorem updTrack_dirty (k : Track) (c : Nat) (s : State) (j : SlotClass) :
    (updTrack k c s).dirty.get j =
      (s.dirty.get j || decide (j ∈ trackClasses s.dual k)) := by
  have vol : (updVol c s).dirty.get j = (s.dirty.get j || decide (j ∈ [SlotClass.vol])) := by
    unfold updVol
    dsimp only
    split <;> simp only [enqueue_dirty, PerClass.get_set] <;>
      by_cases hj : j = .vol <;> simp [hj]
  have filter : (updFilter c s).dirty.get j =
      (s.dirty.get j || decide (j ∈ [SlotClass.alpha, .beta, .gamma])) := by
    unfold updFilter
    rw [(foldl_enqueueFilter_dirty _ _ _ _ _ (chips_ne_nil s c)).1]
    cases j <;> simp [PerClass.get_set]
  have one : ∀ (m : SlotClass) (b0 b1 : Byte),
      (enqueueAll (s.chips c) m b0 b1 s).dirty.get j = (s.dirty.get j || decide (j ∈ [m])) := by
    intro m b0 b1
    rw [(enqueueAll_dirty _ m b0 b1 s (chips_ne_nil s c)).1, PerClass.get_set]
    by_cases hj : j = m <;> simp [hj]
  cases k with
  | volume => exact vol
  | pan =>
    show (if s.dual = true then updVol c s else s).dirty.get j = _
    unfold trackClasses
    cases hd : s.dual with
    | false => simp
    | true => simpa using vol
  | frequency => exact one _ _ _
  | duty => exact one _ _ _
  | cutoff => exact filter
  | resonance => exact filter

end Sys2Proof.Machine
end

