-- ==== Sys2Proof/Laws/Flush.lean ====
section
/-! SUPPORT. The flush: which fields it can touch at all, and, from a consistent queue, exactly what it
sends and what it leaves. -/

namespace Sys2Proof.Machine

/-- What any part of a flush can do: transmit and empty slots and flags. -/
structure OnlyFlushes (s t : State) : Prop where
  cfg : t.cfg = s.cfg
  ch : t.ch = s.ch
  patch : t.patch = s.patch
  lock : t.lock = s.lock
  dual : t.dual = s.dual
  now : t.now = s.now
  nextTick : t.nextTick = s.nextTick
  status : t.status = s.status
  batch : t.batch = s.batch
  agenda : t.agenda = s.agenda
  slotCount : t.slot.length = s.slot.length
  traceGrows : s.trace <+: t.trace
  pinTraceGrows : s.pinTrace <+: t.pinTrace
  noDone : ∀ c d, Event.done c d ∈ t.trace.drop s.trace.length → False
  selBits : s.sel < 2 ^ s.cfg.nchip → t.sel < 2 ^ s.cfg.nchip
  stbRests : s.pins.stb = false → t.pins.stb = false
  clkRests : s.pins.clk = false → t.pins.clk = false

theorem OnlyFlushes.refl (s : State) : OnlyFlushes s s := by
  constructor <;> simp

theorem OnlyFlushes.chan {s t : State} (h : OnlyFlushes s t) (c : Nat) : t.chan c = s.chan c := by
  unfold State.chan; rw [h.ch]

theorem drop_append_of_prefixes {a b c : List Event} (h1 : a <+: b) (h2 : b <+: c) :
    c.drop a.length = b.drop a.length ++ c.drop b.length := by
  obtain ⟨x, rfl⟩ := h1
  obtain ⟨y, rfl⟩ := h2
  simp

theorem OnlyFlushes.trans {s t u : State} (h : OnlyFlushes s t) (g : OnlyFlushes t u) :
    OnlyFlushes s u where
  cfg := g.cfg.trans h.cfg
  ch := g.ch.trans h.ch
  patch := g.patch.trans h.patch
  lock := g.lock.trans h.lock
  dual := g.dual.trans h.dual
  now := g.now.trans h.now
  nextTick := g.nextTick.trans h.nextTick
  status := g.status.trans h.status
  batch := g.batch.trans h.batch
  agenda := g.agenda.trans h.agenda
  slotCount := g.slotCount.trans h.slotCount
  traceGrows := h.traceGrows.trans g.traceGrows
  pinTraceGrows := h.pinTraceGrows.trans g.pinTraceGrows
  noDone := fun c d hm => by
    rw [drop_append_of_prefixes h.traceGrows g.traceGrows, List.mem_append] at hm
    exact hm.elim (h.noDone c d) (g.noDone c d)
  selBits := fun hs => by have := g.selBits; rw [h.cfg] at this; exact this (h.selBits hs)
  stbRests := g.stbRests ∘ h.stbRests
  clkRests := g.clkRests ∘ h.clkRests

/-- One slot of the flush in one equation, for a chip of the chain. -/
theorem flushSlot_eq {k : SlotClass} {s : State} {p : Nat} (h : p < s.cfg.nchip) :
    ∃ pins sel selShown pinTrace,
      flushSlot k s p =
        { s with
          slot := (flushSlot k s p).slot
          pins := pins
          sel := sel
          selShown := selShown
          trace := s.trace ++ slotEvents s.cfg k p (s.slotAt p k)
          pinTrace := s.pinTrace ++ pinTrace } ∧
      (s.sel < 2 ^ s.cfg.nchip → sel < 2 ^ s.cfg.nchip) ∧
      (s.pins.stb = false → pins.stb = false) ∧ (s.pins.clk = false → pins.clk = false) := by
  unfold flushSlot
  cases hs : s.slotAt p k with
  | none => exact ⟨s.pins, s.sel, s.selShown, [], by simp [slotEvents], id, id, id⟩
  | some bb =>
    obtain ⟨b0, b1⟩ := bb
    have hb : 2 ^ p < 2 ^ s.cfg.nchip := Nat.pow_lt_pow_right (by norm_num) h
    simp only [sendCommand, sendBytes_eq, address_eq h, slotEvents, State.unshown, if_true]
    split
    · exact ⟨⟨decide (p = 0), false, false, b1⟩, 2 ^ p, 2 ^ p,
        (addressBits s.cfg.nchip p).flatMap (strobeEvents s.cfg) ++
          (byteEvents s.cfg b0 ++ byteEvents s.cfg b1),
        by simp [State.setSlot], fun _ => hb, fun _ => rfl, fun _ => rfl⟩
    · exact ⟨⟨decide (p = 0), false, false, b0⟩, 2 ^ p, 2 ^ p,
        (addressBits s.cfg.nchip p).flatMap (strobeEvents s.cfg) ++ byteEvents s.cfg b0,
        by simp [State.setSlot], fun _ => hb, fun _ => rfl, fun _ => rfl⟩

theorem slotEvents_noDone (g : Cfg) (k : SlotClass) (p : Nat) (v : Option (Byte × Byte)) (c : Nat)
    (d : DoneCause) : Event.done c d ∉ slotEvents g k p v := by
  rcases v with _ | ⟨b0, b1⟩
  · simp [slotEvents]
  · simp only [slotEvents]; split <;> simp

theorem flushSlot_slot (k : SlotClass) (s : State) (p : Nat) :
    (flushSlot k s p).slot = (s.setSlot p k none).slot ∨
    ((flushSlot k s p).slot = s.slot ∧ s.slotAt p k = none) := by
  unfold flushSlot
  cases hs : s.slotAt p k with
  | none => exact .inr ⟨rfl, rfl⟩
  | some bb =>
    refine .inl ?_
    simp [sendCommand, sendBytes_eq, address, strobePulses_eq]

theorem flushSlot_slotAt (k : SlotClass) (s : State) (p q : Nat) (j : SlotClass)
    (h : p < s.slot.length) :
    (flushSlot k s p).slotAt q j = if q = p ∧ j = k then none else s.slotAt q j := by
  rcases flushSlot_slot k s p with h1 | ⟨h1, h2⟩
  · have : (flushSlot k s p).slotAt q j = (s.setSlot p k none).slotAt q j := by
      unfold State.slotAt; rw [h1]
    rw [this, slotAt_setSlot _ _ _ _ _ _ h]
  · have : (flushSlot k s p).slotAt q j = s.slotAt q j := by unfold State.slotAt; rw [h1]
    rw [this]; split
    · rename_i h; rw [h.1, h.2, h2]
    · rfl

theorem flushSlot_slot_length (k : SlotClass) (s : State) (p : Nat) :
    (flushSlot k s p).slot.length = s.slot.length := by
  rcases flushSlot_slot k s p with h1 | ⟨h1, _⟩ <;> simp [h1]

theorem flushSlot_onlyFlushes {k : SlotClass} {s : State} {p : Nat} (h : p < s.cfg.nchip) :
    OnlyFlushes s (flushSlot k s p) ∧ (flushSlot k s p).dirty = s.dirty ∧
    (flushSlot k s p).changed = s.changed ∧
    (flushSlot k s p).trace = s.trace ++ slotEvents s.cfg k p (s.slotAt p k) := by
  obtain ⟨pins, sel, _, pt, he, hsel, hstb, hclk⟩ := flushSlot_eq (k := k) h
  have hl := flushSlot_slot_length k s p
  rw [he]
  refine ⟨?_, rfl, rfl, rfl⟩
  constructor <;> try rfl
  · exact hl
  · exact List.prefix_append _ _
  · exact List.prefix_append _ _
  · intro c d; simpa using slotEvents_noDone _ _ _ _ c d
  · exact hsel
  · exact hstb
  · exact hclk

/-- The chips of one class, in any order, each once. -/
theorem foldl_flushSlot (k : SlotClass) (ps : List Nat) (s : State)
    (h : ∀ p ∈ ps, p < s.cfg.nchip) (hl : s.slot.length = s.cfg.nchip) (hn : ps.Nodup) :
    OnlyFlushes s (ps.foldl (flushSlot k) s) ∧
    (ps.foldl (flushSlot k) s).dirty = s.dirty ∧
    (ps.foldl (flushSlot k) s).changed = s.changed ∧
    (ps.foldl (flushSlot k) s).trace =
      s.trace ++ ps.flatMap (fun p => slotEvents s.cfg k p (s.slotAt p k)) ∧
    ∀ q j, (ps.foldl (flushSlot k) s).slotAt q j =
      if q ∈ ps ∧ j = k then none else s.slotAt q j := by
  induction ps generalizing s with
  | nil => exact ⟨.refl s, rfl, rfl, by simp, by simp⟩
  | cons p ps ih =>
    have hp := h p (.head _)
    obtain ⟨f1, f2, f3, f4⟩ := flushSlot_onlyFlushes (k := k) hp
    have hsl := fun q j => flushSlot_slotAt k s p q j (hl ▸ hp)
    obtain ⟨g1, g2, g3, g4, g5⟩ := ih (flushSlot k s p)
      (by rw [f1.cfg]; exact fun r hr => h r (.tail _ hr))
      (by rw [f1.slotCount, f1.cfg]; exact hl) (List.nodup_cons.mp hn).2
    rw [List.foldl_cons]
    refine ⟨f1.trans g1, g2.trans f2, g3.trans f3, ?_, fun q j => ?_⟩
    · rw [g4, f4, f1.cfg, List.flatMap_cons, List.append_assoc]
      congr 2
      apply List.flatMap_congr
      intro q hq
      have : q ≠ p := fun e => (List.nodup_cons.mp hn).1 (e ▸ hq)
      rw [hsl, if_neg fun hh => this hh.1]
    · rw [g5, hsl]
      by_cases h1 : q ∈ ps <;> by_cases h2 : q = p <;> by_cases h3 : j = k <;> simp [h1, h2, h3]

/-- One class of the flush. -/
theorem flushClass_spec (s : State) (k : SlotClass) (hl : s.slot.length = s.cfg.nchip) :
    OnlyFlushes s (flushClass s k) ∧ (flushClass s k).changed = s.changed ∧
    (flushClass s k).dirty = (if s.dirty.get k then s.dirty.set k false else s.dirty) ∧
    (flushClass s k).trace = s.trace ++
      (if s.dirty.get k then
        (List.range s.cfg.nchip).flatMap fun p => slotEvents s.cfg k p (s.slotAt p k) else []) ∧
    ∀ q j, (flushClass s k).slotAt q j =
      if s.dirty.get k = true ∧ j = k ∧ q < s.cfg.nchip then none else s.slotAt q j := by
  unfold flushClass
  split
  · rename_i hd
    obtain ⟨f1, f2, f3, f4, f5⟩ := foldl_flushSlot k (List.range s.cfg.nchip) s
      (fun p hp => List.mem_range.mp hp) hl List.nodup_range
    refine ⟨⟨f1.cfg, f1.ch, f1.patch, f1.lock, f1.dual, f1.now, f1.nextTick, f1.status, f1.batch,
      f1.agenda, f1.slotCount, f1.traceGrows, f1.pinTraceGrows, f1.noDone, f1.selBits, f1.stbRests,
      f1.clkRests⟩, f3, by simp [f2], f4, fun q j => ?_⟩
    have : (clearDirty k ((List.range s.cfg.nchip).foldl (flushSlot k) s)).slotAt q j =
      ((List.range s.cfg.nchip).foldl (flushSlot k) s).slotAt q j := rfl
    rw [this, f5]
    simp only [List.mem_range, hd, true_and]
    by_cases h1 : q < s.cfg.nchip <;> by_cases h2 : j = k <;> simp [h1, h2]
  · rename_i hd
    exact ⟨.refl s, rfl, rfl, by simp, by simp [hd]⟩

/-- The classes of a list, in order, each once. -/
theorem foldl_flushClass (ks : List SlotClass) (s : State) (hl : s.slot.length = s.cfg.nchip)
    (hn : ks.Nodup) :
    OnlyFlushes s (ks.foldl flushClass s) ∧ (ks.foldl flushClass s).changed = s.changed ∧
    (∀ k, (ks.foldl flushClass s).dirty.get k = if k ∈ ks then false else s.dirty.get k) ∧
    (ks.foldl flushClass s).trace = s.trace ++
      ks.flatMap (fun k => if s.dirty.get k then
        (List.range s.cfg.nchip).flatMap fun p => slotEvents s.cfg k p (s.slotAt p k) else []) ∧
    ∀ q j, (ks.foldl flushClass s).slotAt q j =
      if s.dirty.get j = true ∧ j ∈ ks ∧ q < s.cfg.nchip then none else s.slotAt q j := by
  induction ks generalizing s with
  | nil => exact ⟨.refl s, rfl, by simp, by simp, by simp⟩
  | cons k ks ih =>
    obtain ⟨f1, f2, f3, f4, f5⟩ := flushClass_spec s k hl
    obtain ⟨g1, g2, g3, g4, g5⟩ := ih (flushClass s k) (by rw [f1.slotCount, f1.cfg]; exact hl)
      (List.nodup_cons.mp hn).2
    have hk := (List.nodup_cons.mp hn).1
    have hdirty : ∀ j, (flushClass s k).dirty.get j = if j = k then false else s.dirty.get j := by
      intro j
      rw [f3]; split
      · rw [PerClass.get_set]
      · rename_i h; split
        · rename_i e; rw [e]; simpa using h
        · rfl
    rw [List.foldl_cons]
    refine ⟨f1.trans g1, g2.trans f2, fun j => ?_, ?_, fun q j => ?_⟩
    · rw [g3, hdirty]
      by_cases h1 : j ∈ ks <;> by_cases h2 : j = k <;> simp [h1, h2]
    · rw [g4, f4, List.flatMap_cons, List.append_assoc]
      congr 2
      apply List.flatMap_congr
      intro j hj
      have hjk : j ≠ k := fun e => hk (e ▸ hj)
      rw [hdirty, if_neg hjk, f1.cfg]
      split
      · apply List.flatMap_congr
        intro q _
        rw [f5, if_neg fun hh => hjk hh.2.1]
      · rfl
    · rw [g5, hdirty, f5, f1.cfg]
      by_cases h2 : j = k
      · subst h2; simp [hk]
      · by_cases h1 : j ∈ ks <;> simp [h1, h2]

/-- A consistent queue: the array has its size, and invariants I2 and I3 of 10_state.md R40 hold. -/
structure QueueOk (s : State) : Prop where
  slotCount : s.slot.length = s.cfg.nchip
  changedIffDirty : s.changed = someDirty s.dirty
  pendingIsDirty : ∀ v ∈ s.slot, ∀ k ∈ SlotClass.all, (v.get k).isSome = true → s.dirty.get k = true

theorem Inv.queueOk {s : State} (h : Inv s) : QueueOk s :=
  ⟨h.slotCount, h.changedIffDirty, h.pendingIsDirty⟩

theorem QueueOk.slotAt_none {s : State} (h : QueueOk s) (p : Nat) (k : SlotClass)
    (hd : s.dirty.get k = false) : s.slotAt p k = none := by
  by_contra hne
  have hs : (s.slotAt p k).isSome = true := by
    cases hv : s.slotAt p k with
    | none => exact absurd hv hne
    | some _ => rfl
  by_cases hp : p < s.slot.length
  · have hm : s.slot.getD p (PerClass.all none) ∈ s.slot := by
      simp [List.getD_eq_getElem?_getD, hp]
    rw [h.pendingIsDirty _ hm k (SlotClass.mem_all k) hs] at hd
    cases hd
  · simp [State.slotAt, List.getD_eq_getElem?_getD, hp] at hs

theorem someDirty_false {d : PerClass Bool} : someDirty d = false ↔ ∀ k, d.get k = false := by
  constructor
  · intro h k
    simp only [someDirty, Bool.or_eq_false_iff] at h
    obtain ⟨⟨⟨⟨⟨h1, h2⟩, h3⟩, h4⟩, h5⟩, h6⟩ := h
    cases k <;> assumption
  · intro h
    simp only [someDirty, Bool.or_eq_false_iff]
    exact ⟨⟨⟨⟨⟨h .wave, h .freq⟩, h .vol⟩, h .alpha⟩, h .beta⟩, h .gamma⟩

/-- `Flush()` from any state with a queue of the right size touches only these fields. -/
theorem flush_onlyFlushes (s : State) (hl : s.slot.length = s.cfg.nchip) :
    OnlyFlushes s (flush s) := by
  unfold flush
  split
  · obtain ⟨f1, -⟩ := foldl_flushClass SlotClass.all s hl (by decide)
    exact ⟨f1.cfg, f1.ch, f1.patch, f1.lock, f1.dual, f1.now, f1.nextTick, f1.status, f1.batch,
      f1.agenda, f1.slotCount, f1.traceGrows, f1.pinTraceGrows, f1.noDone, f1.selBits, f1.stbRests,
      f1.clkRests⟩
  · exact .refl s

/-- `Flush()` from a consistent queue (R190): everything pending is sent, in order, and nothing is
pending or flagged afterwards. -/
theorem flush_spec {s : State} (h : QueueOk s) :
    (flush s).trace = s.trace ++ pendingEvents s ∧
    (∀ p k, (flush s).slotAt p k = none) ∧ (∀ k, (flush s).dirty.get k = false) ∧
    (flush s).changed = false ∧ QueueOk (flush s) := by
  have hmain : (flush s).trace = s.trace ++ pendingEvents s ∧
      (∀ p k, (flush s).slotAt p k = none) ∧ (∀ k, (flush s).dirty.get k = false) ∧
      (flush s).changed = false := by
    unfold flush
    split
    · obtain ⟨f1, f2, f3, f4, f5⟩ := foldl_flushClass SlotClass.all s h.slotCount (by decide)
      refine ⟨f4, fun p k => ?_, fun k => ?_, rfl⟩
      · have e : (clearChanged (SlotClass.all.foldl flushClass s)).slotAt p k =
          (SlotClass.all.foldl flushClass s).slotAt p k := rfl
        rw [e, f5]
        by_cases hd : s.dirty.get k = true
        · by_cases hp : p < s.cfg.nchip
          · simp [hd, hp]
          · rw [if_neg fun hh => hp hh.2.2]
            simp [State.slotAt, List.getD_eq_getElem?_getD, h.slotCount, hp]
        · rw [if_neg fun hh => hd hh.1]
          exact h.slotAt_none p k (by simpa using hd)
      · simpa using f3 k
    · rename_i hc
      have hc : s.changed = false := by simpa using hc
      have hd := someDirty_false.mp (h.changedIffDirty ▸ hc)
      exact ⟨by simp [pendingEvents, hd], fun p k => h.slotAt_none p k (hd k), hd, hc⟩
  obtain ⟨h1, h2, h3, h4⟩ := hmain
  have hf := flush_onlyFlushes s h.slotCount
  refine ⟨h1, h2, h3, h4, by rw [hf.slotCount, hf.cfg]; exact h.slotCount,
    by rw [h4, someDirty_false.mpr h3], fun v hv k _ hs => ?_⟩
  obtain ⟨p, hp, rfl⟩ := List.getElem_of_mem hv
  have : (flush s).slotAt p k = ((flush s).slot[p]).get k := by
    simp [State.slotAt, hp]
  rw [← this, h2] at hs
  cases hs

end Sys2Proof.Machine
end

