-- ==== Sys2Proof/Laws/Engine.lean ====
section
/-! SUPPORT. The engine: the outcomes of `advance`, what one track, one Channel and one whole TICK do to
the Channel records, and what they leave alone. -/

namespace Sys2Proof.Machine

open Host (Outcome)

/-! ### advance -/

/-- The four outcomes of `advance` (R144). -/
theorem advance_cases (m : RoundMode) (e : Envelope) (t i : Nat) (r : Bool) :
    (((i = e.sustainIndex.toNat ∧ r = false) ∨ i = Envelope.count e - 1) ∧
      advance m e t i r = (t, i, Envelope.y e i)) ∨
    (¬ ((i = e.sustainIndex.toNat ∧ r = false) ∨ i = Envelope.count e - 1) ∧
      Envelope.x e (i + 1) ≤ t + 1 ∧
      (i + 1 = e.loopEnd.toNat ∧ e.loopStart.toNat < 12 ∧ r = false) ∧
      advance m e t i r =
        (Envelope.x e e.loopStart.toNat, e.loopStart.toNat, Envelope.y e e.loopStart.toNat)) ∨
    (¬ ((i = e.sustainIndex.toNat ∧ r = false) ∨ i = Envelope.count e - 1) ∧
      Envelope.x e (i + 1) ≤ t + 1 ∧
      ¬ (i + 1 = e.loopEnd.toNat ∧ e.loopStart.toNat < 12 ∧ r = false) ∧
      advance m e t i r = (t + 1, i + 1, Envelope.y e (i + 1))) ∨
    (¬ ((i = e.sustainIndex.toNat ∧ r = false) ∨ i = Envelope.count e - 1) ∧
      t + 1 < Envelope.x e (i + 1) ∧
      advance m e t i r = (t + 1, i, Envelope.y e i +
        roundQuotient m ((Envelope.y e (i + 1) - Envelope.y e i) * ((t + 1 : Int) - Envelope.x e i))
          ((Envelope.x e (i + 1) : Int) - Envelope.x e i))) := by
  unfold advance
  split
  · exact .inl ⟨‹_›, rfl⟩
  · split
    · split
      · exact .inr (.inl ⟨‹_›, ‹_›, ‹_›, rfl⟩)
      · exact .inr (.inr (.inl ⟨‹_›, ‹_›, ‹_›, rfl⟩))
    · exact .inr (.inr (.inr ⟨‹_›, Nat.lt_of_not_le ‹_›, rfl⟩))

/-- What `DEF(E)` says (R30). -/
theorem Envelope.defined_spec {e : Envelope} (h : Envelope.defined e = true) :
    Envelope.count e ≤ 12 ∧
    (∀ j, j + 1 < Envelope.count e → Envelope.x e j ≤ Envelope.x e (j + 1)) ∧
    (2 ≤ Envelope.count e → Envelope.x e 0 = 0) ∧
    (e.loopStart.toNat < 12 → e.loopStart.toNat < Envelope.count e) := by
  simp only [Envelope.defined, Envelope.ordered, Bool.and_eq_true, decide_eq_true_eq,
    List.all_eq_true, List.mem_range] at h
  obtain ⟨⟨⟨h1, h2⟩, h3⟩, h4⟩ := h
  exact ⟨h1, fun j hj => h2 j (by omega) hj, h3, h4⟩

/-- `DEF(P)`, envelope by envelope. -/
theorem Patch.defined_env {p : Patch} (h : Patch.defined p = true) (k : Track) :
    Envelope.defined (p.env.get k) = true := by
  simp only [Patch.defined, List.all_eq_true] at h
  exact h k (Track.mem_all k)

theorem cursorFits_iff {e : Envelope} {b : Bool} {t i : Nat} :
    cursorFits e b t i = true ↔
      i < Envelope.count e ∧ (Envelope.x e i ≤ t ∨ (Envelope.count e = 1 ∧ t = 0 ∧ b = false)) := by
  simp only [cursorFits, Bool.and_eq_true, decide_eq_true_eq]

/-- `advance` keeps the cursors of a defined envelope fitting (invariant I4). -/
theorem advance_fits (m : RoundMode) {e : Envelope} {b : Bool} {t i : Nat} (r : Bool)
    (hd : Envelope.defined e = true) (h : cursorFits e b t i = true) :
    cursorFits e b (advance m e t i r).1 (advance m e t i r).2.1 = true := by
  obtain ⟨hc, hm, h0, hl⟩ := Envelope.defined_spec hd
  rw [cursorFits_iff] at h ⊢
  obtain ⟨hi, hx⟩ := h
  rcases advance_cases m e t i r with ⟨_, he⟩ | ⟨_, h2, h3, he⟩ | ⟨h1, h2, _, he⟩ | ⟨h1, h2, he⟩ <;>
    rw [he] <;> dsimp only
  · exact ⟨hi, hx⟩
  · exact ⟨hl h3.2.1, .inl (le_refl _)⟩
  · exact ⟨by omega, .inl h2⟩
  · exact ⟨hi, .inl (by omega)⟩

/-- The cursors of a defined envelope stay below 12. -/
theorem advance_point_lt (m : RoundMode) {e : Envelope} {b : Bool} {t i : Nat} (r : Bool)
    (hd : Envelope.defined e = true) (h : cursorFits e b t i = true) :
    (advance m e t i r).2.1 < 12 :=
  lt_of_lt_of_le (cursorFits_iff.mp (advance_fits m r hd h)).1 (Envelope.defined_spec hd).1

/-- A tick cursor rises by at most 1, or is set to a point's tick. -/
theorem advance_tick_le (m : RoundMode) (e : Envelope) (t i : Nat) (r : Bool) (h : t < 65535) :
    (advance m e t i r).1 ≤ 65535 := by
  have hx : ∀ j, Envelope.x e j ≤ 65535 := fun j => by
    have := (Envelope.cell e j).x.isLt; unfold Envelope.x; omega
  rcases advance_cases m e t i r with ⟨_, he⟩ | ⟨_, _, _, he⟩ | ⟨_, _, _, he⟩ | ⟨_, _, he⟩ <;>
    rw [he] <;> dsimp only
  · omega
  · exact hx _
  · omega
  · omega

/-! ### What one pass may touch -/

/-- A pass over Channel `c` changes its record, queues commands, and reports at most one `Done`. -/
structure OnlyPlays (s t : State) (c : Nat) : Prop where
  cfg : t.cfg = s.cfg
  patch : t.patch = s.patch
  lock : t.lock = s.lock
  dual : t.dual = s.dual
  now : t.now = s.now
  nextTick : t.nextTick = s.nextTick
  pins : t.pins = s.pins
  sel : t.sel = s.sel
  selShown : t.selShown = s.selShown
  status : t.status = s.status
  batch : t.batch = s.batch
  agenda : t.agenda = s.agenda
  chCount : t.ch.length = s.ch.length
  otherChannels : ∀ d, d ≠ c → t.chan d = s.chan d
  queueOk : QueueOk s → QueueOk t
  slotCount : t.slot.length = s.slot.length

theorem OnlyPlays.refl (s : State) (c : Nat) : OnlyPlays s s c := by
  constructor <;> simp

theorem OnlyPlays.trans {s t u : State} {c : Nat} (h : OnlyPlays s t c) (g : OnlyPlays t u c) :
    OnlyPlays s u c :=
  ⟨g.cfg.trans h.cfg, g.patch.trans h.patch, g.lock.trans h.lock, g.dual.trans h.dual,
    g.now.trans h.now, g.nextTick.trans h.nextTick, g.pins.trans h.pins, g.sel.trans h.sel,
    g.selShown.trans h.selShown,
    g.status.trans h.status, g.batch.trans h.batch, g.agenda.trans h.agenda,
    g.chCount.trans h.chCount, fun d hd => (g.otherChannels d hd).trans (h.otherChannels d hd),
    g.queueOk ∘ h.queueOk, g.slotCount.trans h.slotCount⟩

theorem someDirty_set_true (d : PerClass Bool) (k : SlotClass) :
    someDirty (d.set k true) = true := by
  cases k <;> simp [someDirty, PerClass.set]

/-- An enqueue keeps a queue consistent. -/
theorem enqueue_queueOk (p : Nat) (k : SlotClass) (b0 b1 : Byte) {s : State} (h : QueueOk s) :
    QueueOk (enqueue p k b0 b1 s) :=
  ⟨by simpa using h.slotCount, by simp [someDirty_set_true],
    fun v hv j _ hj => enqueue_pending p k b0 b1 s
      (fun v hv j hj => h.pendingIsDirty v hv j (SlotClass.mem_all j) hj) v hv j hj⟩

theorem enqueueAll_queueOk (ps : List Nat) (k : SlotClass) (b0 b1 : Byte) {s : State}
    (h : QueueOk s) : QueueOk (enqueueAll ps k b0 b1 s) := by
  induction ps generalizing s with
  | nil => exact h
  | cons p ps ih => exact ih (enqueue_queueOk p k b0 b1 h)

theorem updVol_queueOk (c : Nat) {s : State} (h : QueueOk s) : QueueOk (updVol c s) := by
  unfold updVol; dsimp only; split
  · exact enqueue_queueOk _ _ _ _ (enqueue_queueOk _ _ _ _ h)
  · exact enqueue_queueOk _ _ _ _ h

theorem updFilter_queueOk (c : Nat) {s : State} (h : QueueOk s) : QueueOk (updFilter c s) := by
  have key : ∀ (a b v : Byte) (ps : List Nat) (s : State), QueueOk s →
      QueueOk (ps.foldl (fun t p => enqueueFilter a b v p t) s) := by
    intro a b v ps
    induction ps with
    | nil => exact fun _ h => h
    | cons p ps ih =>
      exact fun s h => ih _
        (enqueue_queueOk _ _ _ _ (enqueue_queueOk _ _ _ _ (enqueue_queueOk _ _ _ _ h)))
  exact key _ _ _ _ _ h

theorem updTrack_queueOk (k : Track) (c : Nat) {s : State} (h : QueueOk s) :
    QueueOk (updTrack k c s) := by
  cases k
  case pan =>
    show QueueOk (if s.dual = true then updVol c s else s)
    split
    · exact updVol_queueOk c h
    · exact h
  case volume => exact updVol_queueOk c h
  case frequency => exact enqueueAll_queueOk _ _ _ _ h
  case duty => exact enqueueAll_queueOk _ _ _ _ h
  case cutoff => exact updFilter_queueOk c h
  case resonance => exact updFilter_queueOk c h

theorem queueOk_of_eq {s t : State} (hc : t.cfg = s.cfg) (h1 : t.slot = s.slot)
    (h2 : t.dirty = s.dirty) (h3 : t.changed = s.changed) (h : QueueOk s) : QueueOk t :=
  ⟨by rw [h1, hc]; exact h.slotCount, by rw [h2, h3]; exact h.changedIffDirty,
    by rw [h1, h2]; exact h.pendingIsDirty⟩

theorem setChan_onlyPlays (c : Nat) (x : Channel) (s : State) : OnlyPlays s (s.setChan c x) c :=
  ⟨rfl, rfl, rfl, rfl, rfl, rfl, rfl, rfl, rfl, rfl, rfl, rfl, by simp,
    fun _ hd => chan_setChan_ne s x hd, queueOk_of_eq rfl rfl rfl rfl, rfl⟩

theorem OnlyQueues.onlyPlays {s t : State} (h : OnlyQueues s t) (c : Nat)
    (hq : QueueOk s → QueueOk t) : OnlyPlays s t c :=
  ⟨h.cfg, h.patch, h.lock, h.dual, h.now, h.nextTick, h.pins, h.sel, h.selShown, h.status, h.batch, h.agenda,
    by rw [h.ch], fun d _ => h.chan d, hq, h.slotCount⟩

theorem updTrack_onlyPlays (k : Track) (c : Nat) (s : State) : OnlyPlays s (updTrack k c s) c :=
  (updTrack_onlyQueues k c s).onlyPlays c (updTrack_queueOk k c)

theorem emit_onlyPlays (e : Event) (c : Nat) (s : State) : OnlyPlays s (emit e s) c :=
  ⟨rfl, rfl, rfl, rfl, rfl, rfl, rfl, rfl, rfl, rfl, rfl, rfl, rfl, fun _ _ => rfl,
    queueOk_of_eq rfl rfl rfl rfl, rfl⟩

/-! ### One track -/

/-- The Channel record after one track's pass, as a function of the record before. -/
def trackChannel (g : Cfg) (p : Patch) (k : Track) (x : Channel) : Channel :=
  if Envelope.count (p.env.get k) = 0 then
    if x.tick.get k = 0 then { x with tick := x.tick.set k 1 } else x
  else
    let n := advance g.roundQ (p.env.get k) (x.tick.get k).toNat (x.point.get k).val x.released
    storeEnvValue g k n.2.2
      { x with
        tick := x.tick.set k (BitVec.ofNat 16 n.1)
        point := x.point.set k (Fin.ofNat 12 n.2.1) }

/-- Why one track's pass is refused, if it is. -/
def trackRefusal (g : Cfg) (p : Patch) (k : Track) (x : Channel) : Option Refusal :=
  if Envelope.count (p.env.get k) = 0 then none
  else if cursorFits (p.env.get k) x.reloaded (x.tick.get k).toNat (x.point.get k).val = false then
    some .cursorDoesNotFit
  else if 65535 < (advance g.roundQ (p.env.get k) (x.tick.get k).toNat (x.point.get k).val
      x.released).1 then some .tickCursorOverflow
  else none

/-- One track: refused for its reason, or the record as `trackChannel` says and nothing but commands
queued. -/
theorem trackPass_spec (c : Nat) (p : Patch) (k : Track) (s : State) (hc : c < s.ch.length) :
    (∃ r, trackRefusal s.cfg p k (s.chan c) = some r ∧ trackPass c p k s = .error r) ∨
    (trackRefusal s.cfg p k (s.chan c) = none ∧
      ∃ t, trackPass c p k s = .ok t ∧ OnlyPlays s t c ∧ t.trace = s.trace ∧
        t.pinTrace = s.pinTrace ∧ t.chan c = trackChannel s.cfg p k (s.chan c)) := by
  unfold trackPass trackRefusal trackChannel
  dsimp only
  split
  · refine .inr ⟨rfl, _, rfl, ?_⟩
    unfold zeroPoint
    split
    · have hq := updTrack_onlyQueues k c s
      have hp := updTrack_onlyPlays k c s
      refine ⟨hp.trans (setChan_onlyPlays _ _ _), hq.trace, hq.pinTrace, ?_⟩
      rw [chan_setChan _ _ _ _ (by rw [hq.ch]; exact hc), if_pos rfl, hq.chan]
    · exact ⟨.refl s c, rfl, rfl, rfl⟩
  · split
    · exact .inl ⟨_, rfl, rfl⟩
    · split
      · exact .inl ⟨_, rfl, rfl⟩
      · refine .inr ⟨rfl, _, rfl, ?_⟩
        unfold applyValue
        have hq := updTrack_onlyQueues k c
        refine ⟨((setChan_onlyPlays _ _ _).trans (setChan_onlyPlays _ _ _)).trans
          (updTrack_onlyPlays _ _ _), ?_, ?_, ?_⟩
        · rw [(hq _).trace]; rfl
        · rw [(hq _).pinTrace]; rfl
        · rw [(hq _).chan, chan_setChan _ _ _ _ (by simpa using hc), if_pos rfl,
            chan_setChan _ _ _ _ hc, if_pos rfl]
          rfl

@[simp] theorem storeEnvValue_tick (g : Cfg) (k : Track) (v : Int) (x : Channel) :
    (storeEnvValue g k v x).tick = x.tick := by cases k <;> rfl
@[simp] theorem storeEnvValue_point (g : Cfg) (k : Track) (v : Int) (x : Channel) :
    (storeEnvValue g k v x).point = x.point := by cases k <;> rfl
@[simp] theorem storeEnvValue_released (g : Cfg) (k : Track) (v : Int) (x : Channel) :
    (storeEnvValue g k v x).released = x.released := by cases k <;> rfl
@[simp] theorem storeEnvValue_reloaded (g : Cfg) (k : Track) (v : Int) (x : Channel) :
    (storeEnvValue g k v x).reloaded = x.reloaded := by cases k <;> rfl
@[simp] theorem storeEnvValue_instrument (g : Cfg) (k : Track) (v : Int) (x : Channel) :
    (storeEnvValue g k v x).instrument = x.instrument := by cases k <;> rfl

/-- The cursors of a track after its own pass and after another track's. -/
theorem trackChannel_tick (g : Cfg) (p : Patch) (k j : Track) (x : Channel) :
    (trackChannel g p k x).tick.get j =
      if j = k then
        if Envelope.count (p.env.get k) = 0 then
          if x.tick.get k = 0 then 1 else x.tick.get k
        else BitVec.ofNat 16 (advance g.roundQ (p.env.get k) (x.tick.get k).toNat
          (x.point.get k).val x.released).1
      else x.tick.get j := by
  unfold trackChannel
  by_cases hj : j = k
  · subst hj; split <;> [split; skip] <;> simp_all
  · split <;> [split; skip] <;> simp [PerTrack.get_set, hj]

theorem trackChannel_point (g : Cfg) (p : Patch) (k j : Track) (x : Channel) :
    (trackChannel g p k x).point.get j =
      if j = k ∧ Envelope.count (p.env.get k) ≠ 0 then
        Fin.ofNat 12 (advance g.roundQ (p.env.get k) (x.tick.get k).toNat
          (x.point.get k).val x.released).2.1
      else x.point.get j := by
  unfold trackChannel
  by_cases hj : j = k
  · subst hj; split <;> [split; skip] <;> simp_all
  · split <;> [split; skip] <;> simp [PerTrack.get_set, hj]

@[simp] theorem trackChannel_released (g : Cfg) (p : Patch) (k : Track) (x : Channel) :
    (trackChannel g p k x).released = x.released := by
  unfold trackChannel; split <;> [split; skip] <;> simp

@[simp] theorem trackChannel_reloaded (g : Cfg) (p : Patch) (k : Track) (x : Channel) :
    (trackChannel g p k x).reloaded = x.reloaded := by
  unfold trackChannel; split <;> [split; skip] <;> simp

@[simp] theorem trackChannel_instrument (g : Cfg) (p : Patch) (k : Track) (x : Channel) :
    (trackChannel g p k x).instrument = x.instrument := by
  unfold trackChannel; split <;> [split; skip] <;> simp

/-- Another track's pass does not change whether this track's pass is refused. -/
theorem trackRefusal_trackChannel (g : Cfg) (p : Patch) {k j : Track} (x : Channel) (h : j ≠ k) :
    trackRefusal g p j (trackChannel g p k x) = trackRefusal g p j x := by
  simp [trackRefusal, trackChannel_tick, trackChannel_point, h]

/-! ### One Channel -/

/-- The record after the passes of a list of tracks. -/
def trackChannels (g : Cfg) (p : Patch) (ks : List Track) (x : Channel) : Channel :=
  ks.foldl (fun x k => trackChannel g p k x) x

/-- A list of tracks: refused because some track of it is, or the record as `trackChannels` says. -/
theorem trackPasses_spec (c : Nat) (p : Patch) (ks : List Track) (s : State)
    (hc : c < s.ch.length) (hn : ks.Nodup) :
    (∃ r, (∃ k ∈ ks, trackRefusal s.cfg p k (s.chan c) = some r) ∧
      trackPasses c p ks s = .error r) ∨
    ((∀ k ∈ ks, trackRefusal s.cfg p k (s.chan c) = none) ∧
      ∃ t, trackPasses c p ks s = .ok t ∧ OnlyPlays s t c ∧ t.trace = s.trace ∧
        t.pinTrace = s.pinTrace ∧ t.chan c = trackChannels s.cfg p ks (s.chan c)) := by
  induction ks generalizing s with
  | nil => exact .inr ⟨by simp, s, rfl, .refl s c, rfl, rfl, rfl⟩
  | cons k ks ih =>
    obtain ⟨hk, hn⟩ := List.nodup_cons.mp hn
    unfold trackPasses
    rcases trackPass_spec c p k s hc with ⟨r, h1, h2⟩ | ⟨h1, t, h2, h3, h4, h5, h6⟩
    · exact .inl ⟨r, ⟨k, .head _, h1⟩, by rw [h2]⟩
    · rw [h2]
      have hr : ∀ j ∈ ks, trackRefusal t.cfg p j (t.chan c) = trackRefusal s.cfg p j (s.chan c) := by
        intro j hj
        have hjk : j ≠ k := fun e => hk (e ▸ hj)
        rw [h6, h3.cfg, trackRefusal_trackChannel _ _ _ hjk]
      rcases ih t (by rw [h3.chCount]; exact hc) hn with ⟨r, ⟨j, hj, g1⟩, g2⟩ | ⟨g1, u, g2, g3, g4, g5, g6⟩
      · exact .inl ⟨r, ⟨j, .tail _ hj, (hr j hj) ▸ g1⟩, g2⟩
      · refine .inr ⟨fun j hj => ?_, u, g2, h3.trans g3, g4.trans h4, g5.trans h5, ?_⟩
        · rcases List.mem_cons.mp hj with rfl | hj
          · exact h1
          · exact (hr j hj) ▸ g1 j hj
        · rw [g6, h6, h3.cfg]; rfl

/-- Why a Channel's envelope pass is refused, if it is. -/
def envRefusal (s : State) (i : Fin 128) (x : Channel) (r : Refusal) : Prop :=
  (Patch.defined (s.patchAt i) = false ∧ r = .patchNotDefined) ∨
  (Patch.defined (s.patchAt i) = true ∧ ∃ k, trackRefusal s.cfg (s.patchAt i) k x = some r)

/-- The record after the envelope pass of a Channel that plays Patch `p` (R142, R150). -/
def envChannel (g : Cfg) (p : Patch) (x : Channel) : Channel :=
  let y := trackChannels g p Track.all x
  if noteEnds p y then { y with instrument := none, waveType := .none } else y

/-- The events an envelope pass reports. -/
def envEvents (g : Cfg) (p : Patch) (c : Nat) (x : Channel) : List Event :=
  if noteEnds p (trackChannels g p Track.all x) then [.done c .envEnd] else []

theorem envPass_spec (c : Nat) (i : Fin 128) (s : State) (hc : c < s.ch.length) :
    (∃ r, envRefusal s i (s.chan c) r ∧ envPass c i s = .error r) ∨
    (Patch.defined (s.patchAt i) = true ∧
      (∀ k, trackRefusal s.cfg (s.patchAt i) k (s.chan c) = none) ∧
      ∃ t, envPass c i s = .ok t ∧ OnlyPlays s t c ∧
        t.trace = s.trace ++ envEvents s.cfg (s.patchAt i) c (s.chan c) ∧
        t.pinTrace = s.pinTrace ++ envEvents s.cfg (s.patchAt i) c (s.chan c) ∧
        t.chan c = envChannel s.cfg (s.patchAt i) (s.chan c)) := by
  unfold envPass
  split
  · exact .inl ⟨_, .inl ⟨‹_›, rfl⟩, rfl⟩
  · rename_i hd
    have hd : Patch.defined (s.patchAt i) = true := by simpa using hd
    rcases trackPasses_spec c (s.patchAt i) Track.all s hc (by decide) with
      ⟨r, ⟨k, _, h1⟩, h2⟩ | ⟨h1, t, h2, h3, h4, h5, h6⟩
    · rw [h2]; exact .inl ⟨r, .inr ⟨hd, k, h1⟩, rfl⟩
    · rw [h2]
      refine .inr ⟨hd, fun k => h1 k (Track.mem_all k), _, rfl, ?_⟩
      unfold terminate envEvents envChannel
      rw [h6]
      dsimp only
      split
      · have hq := updWave_onlyQueues c
        refine ⟨((h3.trans (setChan_onlyPlays _ _ _)).trans
          ((hq _).onlyPlays c (enqueueAll_queueOk _ _ _ _))).trans (emit_onlyPlays _ _ _), ?_, ?_, ?_⟩
        · rw [emit_trace, (hq _).trace]; simp [h4]
        · rw [emit_pinTrace, (hq _).pinTrace]; simp [h5]
        · have : ∀ (e : Event) (u : State), (emit e u).chan c = u.chan c := fun _ _ => rfl
          rw [this, (hq _).chan, chan_setChan _ _ _ _ (by rw [h3.chCount]; exact hc), if_pos rfl]
      · exact ⟨h3, by simp [h4], by simp [h5], h6⟩

/-- The record after one TICK, as a function of the record before (R140, R141, R142, R151). -/
def playedChannel (s : State) (now : Time) (x : Channel) : Channel :=
  match x.instrument with
  | some i => envChannel s.cfg (s.patchAt i) x
  | none =>
    if x.fadeLength = 0 then x
    else if x.fadeLength.toNat ≤ now.toNat - x.fadeStart.toNat then
      { x with
        amplitude := quantise s.cfg (fadeAmplitude x.fadeInit x.fadeDir
          (now.toNat - x.fadeStart.toNat) x.fadeLength.toNat)
        fadeLength := 0 }
    else
      { x with
        amplitude := quantise s.cfg (fadeAmplitude x.fadeInit x.fadeDir
          (now.toNat - x.fadeStart.toNat) x.fadeLength.toNat) }

/-- The events one TICK reports for Channel `c`. -/
def playedEvents (s : State) (now : Time) (c : Nat) (x : Channel) : List Event :=
  match x.instrument with
  | some i => envEvents s.cfg (s.patchAt i) c x
  | none =>
    if x.fadeLength ≠ 0 ∧ x.fadeLength.toNat ≤ now.toNat - x.fadeStart.toNat then
      [.done c .fadeEnd] else []

/-- Why one TICK is refused at a Channel, if it is. -/
def playRefusal (s : State) (x : Channel) (r : Refusal) : Prop :=
  ∃ i, x.instrument = some i ∧ envRefusal s i x r

/-- One Channel of a TICK. -/
theorem channelPass_spec (now : Time) (c : Nat) (s : State) (hc : c < s.ch.length) :
    (∃ r, playRefusal s (s.chan c) r ∧ channelPass now c s = .error r) ∨
    ((∀ r, ¬ playRefusal s (s.chan c) r) ∧
      ∃ t, channelPass now c s = .ok t ∧ OnlyPlays s t c ∧
        t.trace = s.trace ++ playedEvents s now c (s.chan c) ∧
        t.pinTrace = s.pinTrace ++ playedEvents s now c (s.chan c) ∧
        t.chan c = playedChannel s now (s.chan c)) := by
  unfold channelPass playedEvents playedChannel playRefusal
  cases hi : (s.chan c).instrument with
  | some i =>
    dsimp only
    rcases envPass_spec c i s hc with ⟨r, h1, h2⟩ | ⟨h1, h2, t, h3⟩
    · exact .inl ⟨r, ⟨i, rfl, h1⟩, h2⟩
    · refine .inr ⟨?_, t, h3⟩
      rintro r ⟨j, hj, hr⟩
      cases hj
      rcases hr with ⟨hr, _⟩ | ⟨_, k, hr⟩
      · rw [h1] at hr; cases hr
      · rw [h2 k] at hr; cases hr
  | none =>
    refine .inr ⟨by simp, _, rfl, ?_⟩
    split
    · rename_i h0; simp [h0]; exact .refl s c
    · rename_i h0
      unfold fadePass
      dsimp only
      have hq := updVol_onlyQueues c
      have hp := fun u : State => (hq u).onlyPlays c (updVol_queueOk c)
      have hch : ∀ (e : Event) (u : State), (emit e u).chan c = u.chan c := fun _ _ => rfl
      split
      · rename_i h1
        refine ⟨((setChan_onlyPlays _ _ _).trans (hp _)).trans (emit_onlyPlays _ _ _), ?_, ?_, ?_⟩
        · rw [emit_trace, (hq _).trace, if_pos ⟨h0, h1⟩]; rfl
        · rw [emit_pinTrace, (hq _).pinTrace, if_pos ⟨h0, h1⟩]; rfl
        · rw [hch, (hq _).chan, chan_setChan _ _ _ _ hc, if_pos rfl, hi]
      · rename_i h1
        refine ⟨(setChan_onlyPlays _ _ _).trans (hp _), ?_, ?_, ?_⟩
        · rw [(hq _).trace, if_neg fun hh => h1 hh.2]; simp
        · rw [(hq _).pinTrace, if_neg fun hh => h1 hh.2]; simp
        · rw [(hq _).chan, chan_setChan _ _ _ _ hc, if_pos rfl, hi]

/-! ### A whole TICK -/

/-- Passes over several Channels change those records, queue commands, and report `Done` events. -/
structure OnlyPlaysAll (s t : State) : Prop where
  cfg : t.cfg = s.cfg
  patch : t.patch = s.patch
  lock : t.lock = s.lock
  dual : t.dual = s.dual
  now : t.now = s.now
  nextTick : t.nextTick = s.nextTick
  pins : t.pins = s.pins
  sel : t.sel = s.sel
  selShown : t.selShown = s.selShown
  status : t.status = s.status
  batch : t.batch = s.batch
  agenda : t.agenda = s.agenda
  chCount : t.ch.length = s.ch.length
  queueOk : QueueOk s → QueueOk t
  slotCount : t.slot.length = s.slot.length

theorem playedChannel_congr {s t : State} (hc : t.cfg = s.cfg) (hp : t.patch = s.patch) (now : Time)
    (x : Channel) : playedChannel t now x = playedChannel s now x := by
  unfold playedChannel State.patchAt; rw [hc, hp]

theorem playedEvents_congr {s t : State} (hc : t.cfg = s.cfg) (hp : t.patch = s.patch) (now : Time)
    (c : Nat) (x : Channel) : playedEvents t now c x = playedEvents s now c x := by
  unfold playedEvents State.patchAt; rw [hc, hp]

theorem playRefusal_congr {s t : State} (hc : t.cfg = s.cfg) (hp : t.patch = s.patch)
    (x : Channel) (r : Refusal) : playRefusal t x r ↔ playRefusal s x r := by
  unfold playRefusal envRefusal State.patchAt; rw [hc, hp]

/-- The Channels of a list, each once. -/
theorem channelPasses_spec (now : Time) (cs : List Nat) (s : State)
    (hc : ∀ c ∈ cs, c < s.ch.length) (hn : cs.Nodup) :
    (∃ r, (∃ c ∈ cs, playRefusal s (s.chan c) r) ∧ channelPasses now cs s = .error r) ∨
    ((∀ c ∈ cs, ∀ r, ¬ playRefusal s (s.chan c) r) ∧
      ∃ t, channelPasses now cs s = .ok t ∧ OnlyPlaysAll s t ∧
        t.trace = s.trace ++ cs.flatMap (fun c => playedEvents s now c (s.chan c)) ∧
        t.pinTrace = s.pinTrace ++ cs.flatMap (fun c => playedEvents s now c (s.chan c)) ∧
        (∀ c ∈ cs, t.chan c = playedChannel s now (s.chan c)) ∧
        ∀ c, c ∉ cs → t.chan c = s.chan c) := by
  induction cs generalizing s with
  | nil =>
    exact .inr ⟨by simp, s, rfl, by constructor <;> simp, by simp, by simp, by simp, fun _ _ => rfl⟩
  | cons c cs ih =>
    obtain ⟨hk, hn⟩ := List.nodup_cons.mp hn
    unfold channelPasses
    rcases channelPass_spec now c s (hc c (.head _)) with ⟨r, h1, h2⟩ | ⟨h1, t, h2, h3, h4, h5, h6⟩
    · exact .inl ⟨r, ⟨c, .head _, h1⟩, by rw [h2]⟩
    · rw [h2]
      have hne : ∀ d ∈ cs, d ≠ c := fun d hd e => hk (e ▸ hd)
      rcases ih t (by rw [h3.chCount]; exact fun d hd => hc d (.tail _ hd)) hn with
        ⟨r, ⟨d, hd, g1⟩, g2⟩ | ⟨g1, u, g2, g3, g4, g5, g6, g7⟩
      · refine .inl ⟨r, ⟨d, .tail _ hd, ?_⟩, g2⟩
        rwa [h3.otherChannels d (hne d hd), playRefusal_congr h3.cfg h3.patch] at g1
      · have hev : cs.flatMap (fun c => playedEvents t now c (t.chan c)) =
            cs.flatMap (fun c => playedEvents s now c (s.chan c)) :=
          List.flatMap_congr fun d hd => by
            rw [h3.otherChannels d (hne d hd), playedEvents_congr h3.cfg h3.patch]
        refine .inr ⟨fun d hd r => ?_, u, g2, ?_, ?_, ?_, fun d hd => ?_, fun d hd => ?_⟩
        · rcases List.mem_cons.mp hd with rfl | hd
          · exact h1 r
          · have := g1 d hd r
            rwa [h3.otherChannels d (hne d hd), playRefusal_congr h3.cfg h3.patch] at this
        · exact ⟨g3.cfg.trans h3.cfg, g3.patch.trans h3.patch, g3.lock.trans h3.lock,
            g3.dual.trans h3.dual, g3.now.trans h3.now, g3.nextTick.trans h3.nextTick,
            g3.pins.trans h3.pins, g3.sel.trans h3.sel, g3.selShown.trans h3.selShown,
            g3.status.trans h3.status,
            g3.batch.trans h3.batch, g3.agenda.trans h3.agenda, g3.chCount.trans h3.chCount,
            g3.queueOk ∘ h3.queueOk, g3.slotCount.trans h3.slotCount⟩
        · rw [g4, h4, hev, List.flatMap_cons, List.append_assoc]
        · rw [g5, h5, hev, List.flatMap_cons, List.append_assoc]
        · rcases List.mem_cons.mp hd with rfl | hd
          · rw [g7 d hk, h6]
          · rw [g6 d hd, h3.otherChannels d (hne d hd), playedChannel_congr h3.cfg h3.patch]
        · have hd' := List.not_mem_of_not_mem_cons hd
          rw [g7 d hd', h3.otherChannels d fun e => hd (e ▸ .head _)]

/-- When the next iteration may begin, as a number, while the counter has room for a period (R152). -/
theorem nextStart_toNat {start : Time} (seen : Time) (h : start.toNat + 10000 < 2 ^ 64) :
    (nextStart start seen).toNat = max (start.toNat + 10000) seen.toNat := by
  have ht : (timeAfter start tickPeriodUs).toNat = start.toNat + 10000 := by
    rw [timeAfter, tickPeriodUs, if_pos h, BitVec.toNat_ofNat, Nat.mod_eq_of_lt h]
  unfold nextStart
  simp only [BitVec.le_def, ht]
  split <;> omega

/-- An iteration begins at its time on offer or at the end of the sleep, whichever is later (R152). -/
theorem startTime_spec (s : State) (t : Time) :
    t ≤ startTime s t ∧ s.nextTick ≤ startTime s t ∧
      (startTime s t = t ∨ startTime s t = s.nextTick) := by
  unfold startTime
  simp only [BitVec.le_def]
  split
  · exact ⟨‹_›, le_refl _, .inr rfl⟩
  · exact ⟨le_refl _, by omega, .inl rfl⟩

/-- TICK in RUN with the lock free, from a state of the right sizes: refused because of one Channel in
use, or all passes are made and the queue is flushed (R140). -/
theorem execTick_spec {s : State} (now : Time) (h : Inv s) (hr : s.status = .run)
    (hl : s.lock = .free) :
    (∃ r, (∃ c < s.chans, playRefusal s (s.chan c) r) ∧ execTick now s = .refused r) ∨
    ((∀ c < s.chans, ∀ r, ¬ playRefusal s (s.chan c) r) ∧
      ∃ u, execTick now s = .next (endTick (flush u)) ∧ OnlyPlaysAll (beginTick now s) u ∧
        QueueOk u ∧
        u.trace = s.trace ++
          (List.range s.chans).flatMap (fun c => playedEvents s now c (s.chan c)) ∧
        u.pinTrace = s.pinTrace ++
          (List.range s.chans).flatMap (fun c => playedEvents s now c (s.chan c)) ∧
        (∀ c < s.chans, u.chan c = playedChannel s now (s.chan c)) ∧
        ∀ c, s.chans ≤ c → u.chan c = s.chan c) := by
  unfold execTick
  rw [if_pos ⟨hr, hl⟩]
  have hch : ∀ c, (beginTick now s).chan c = s.chan c := fun _ => rfl
  have hq : QueueOk (beginTick now s) := queueOk_of_eq (s := s) rfl rfl rfl rfl h.queueOk
  rcases channelPasses_spec now (List.range s.chans) (beginTick now s)
    (fun c hc => lt_ch_length h (List.mem_range.mp hc)) List.nodup_range with
    ⟨r, ⟨c, hc, h1⟩, h2⟩ | ⟨h1, u, h2, h3, h4, h5, h6, h7⟩
  · rw [h2]
    exact .inl ⟨r, ⟨c, List.mem_range.mp hc, (playRefusal_congr rfl rfl _ _).mp h1⟩, rfl⟩
  · rw [h2]
    refine .inr ⟨fun c hc r hh => h1 c (List.mem_range.mpr hc) r ((playRefusal_congr rfl rfl _ _).mpr hh),
      u, rfl, h3, h3.queueOk hq, ?_, ?_, fun c hc => ?_, fun c hc => ?_⟩
    · rw [h4]; rfl
    · rw [h5]; rfl
    · rw [h6 c (List.mem_range.mpr hc)]; rfl
    · rw [h7 c (by simpa using hc)]; rfl

/-- TICK outside RUN or with the lock taken changes nothing. -/
theorem execTick_idle {s : State} (now : Time) (h : ¬ (s.status = .run ∧ s.lock = .free)) :
    execTick now s = .next s := if_neg h

end Sys2Proof.Machine
end

