-- ==== Sys2Proof/Laws/System.lean ====
section
/-! SUPPORT. The two sequences that end in HALT: what they send, and that they touch nothing else. -/

namespace Sys2Proof.Machine

/-- A 1 shifted into a chain of ones leaves it as it was. -/
theorem shiftChain_ones (n : Nat) : shiftChain n (2 ^ n - 1) true = 2 ^ n - 1 := by
  have := Nat.two_pow_pos n
  rw [shiftChain_true, show (2 ^ n - 1) * 2 + 1 = 2 ^ n + (2 ^ n - 1) by omega, Nat.add_mod_left,
    Nat.mod_eq_of_lt (by omega)]

/-- The front part of a sequence that keeps every chip selected does so too. -/
theorem keepsBroadcast_append {es fs : List WireEvent} {ser stb clk : Bool}
    (h : keepsBroadcast ser stb clk (es ++ fs) = true) : keepsBroadcast ser stb clk es = true := by
  induction es generalizing ser stb clk with
  | nil => rfl
  | cons e es ih =>
    cases e with
    | byte b => simp only [List.cons_append, keepsBroadcast, Bool.and_eq_true] at h ⊢; exact ⟨h.1, ih h.2⟩
    | data b => exact ih h
    | hold n => exact ih h
    | pin p v =>
      cases p with
      | ser => exact ih h
      | clk => exact ih h
      | stb => simp only [List.cons_append, keepsBroadcast, Bool.and_eq_true] at h ⊢; exact ⟨h.1, ih h.2⟩

/-- One of the OPEN sequences, from a chain of ones that Level 1 has shown: the chain stays so, and
Level 1 shows the bytes and the holds (R220, 43 R205). -/
theorem emitWires_spec (es : List WireEvent) {s : State} (hs : s.sel = 2 ^ s.cfg.nchip - 1)
    (hv : s.selShown = s.sel)
    (hk : keepsBroadcast s.pins.ser s.pins.stb s.pins.clk es = true) :
    (emitWires es s).sel = 2 ^ s.cfg.nchip - 1 ∧
    (emitWires es s).selShown = 2 ^ s.cfg.nchip - 1 ∧
    (emitWires es s).trace = s.trace ++ sequenceEvents s.pins.clk s.pins.d es := by
  induction es generalizing s with
  | nil => exact ⟨hs, hv.trans hs, by simp [emitWires, sequenceEvents]⟩
  | cons e es ih =>
    have hu : s.unshown = [] := by simp [State.unshown, hv]
    show (emitWires es (emitWire e s)).sel = _ ∧ (emitWires es (emitWire e s)).selShown = _ ∧
      (emitWires es (emitWire e s)).trace = _
    cases e with
    | byte b =>
      simp only [keepsBroadcast, Bool.and_eq_true, Bool.not_eq_true'] at hk
      obtain ⟨h1, h2, h3⟩ := ih (s := emitWire (.byte b) s) (by simpa [emitWire] using hs)
        (by simp [emitWire, sendByte, showByte])
        (by simpa [emitWire, sendByte, hk.1] using hk.2)
      exact ⟨h1, h2, by rw [h3]; simp [emitWire, sendByte, showByte, hu, sequenceEvents]⟩
    | data b =>
      obtain ⟨h1, h2, h3⟩ := ih (s := emitWire (.data b) s) hs hv hk
      exact ⟨h1, h2, h3⟩
    | hold n =>
      obtain ⟨h1, h2, h3⟩ := ih (s := emitWire (.hold n) s) hs hv hk
      exact ⟨h1, h2, by rw [h3]; simp [emitWire, sequenceEvents]⟩
    | pin p v =>
      cases p with
      | ser =>
        obtain ⟨h1, h2, h3⟩ := ih (s := emitWire (.pin .ser v) s) hs hv hk
        exact ⟨h1, h2, h3⟩
      | stb =>
        simp only [keepsBroadcast, Bool.and_eq_true] at hk
        have hsel : (emitWire (.pin .stb v) s).sel = s.sel := by
          show (if v && !s.pins.stb then shiftChain s.cfg.nchip s.sel s.pins.ser else s.sel) = s.sel
          split
          · rename_i hc
            have : s.pins.ser = true := by
              have := hk.1; revert hc this; cases v <;> cases s.pins.stb <;> simp
            rw [this, hs, shiftChain_ones]
          · rfl
        obtain ⟨h1, h2, h3⟩ := ih (s := emitWire (.pin .stb v) s) (hsel.trans hs)
          (Eq.trans hv hsel.symm) hk.2
        exact ⟨h1, h2, h3⟩
      | clk =>
        by_cases hc : v && !s.pins.clk
        · have he : emitWire (.pin .clk v) s = emitPins (.pin .clk v)
              { showByte s.pins.d s with pins := { s.pins with clk := v } } := by
            simp only [emitWire, drivePin, if_pos hc]
          obtain ⟨h1, h2, h3⟩ := ih (s := emitWire (.pin .clk v) s)
            (by rw [he]; exact hs) (by rw [he]; rfl) (by rw [he]; exact hk)
          refine ⟨by rw [h1, he]; rfl, by rw [h2, he]; rfl, ?_⟩
          rw [h3, he]
          simp [showByte, hu, sequenceEvents, hc, -Bool.and_eq_true]
        · have he : emitWire (.pin .clk v) s = emitPins (.pin .clk v)
              { s with pins := { s.pins with clk := v } } := by
            simp only [emitWire, drivePin, if_neg hc]
          obtain ⟨h1, h2, h3⟩ := ih (s := emitWire (.pin .clk v) s)
            (by rw [he]; exact hs) (by rw [he]; exact hv) (by rw [he]; exact hk)
          refine ⟨by rw [h1, he]; rfl, by rw [h2, he]; rfl, ?_⟩
          rw [h3, he]
          simp only [sequenceEvents, if_neg hc]
          rfl

/-- What both sequences begin with: a broadcast, then an OPEN sequence that keeps it (R220, R221). -/
theorem broadcast_emitWires_spec {es : List WireEvent} {s : State} (hn : 0 < s.cfg.nchip)
    (hk : keepsBroadcast true false s.pins.clk es = true) :
    (emitWires es (broadcast s)).sel = 2 ^ s.cfg.nchip - 1 ∧
    (emitWires es (broadcast s)).selShown = 2 ^ s.cfg.nchip - 1 ∧
    (emitWires es (broadcast s)).trace =
      s.trace ++ .select (2 ^ s.cfg.nchip - 1) :: sequenceEvents s.pins.clk s.pins.d es := by
  rw [broadcast_eq hn]
  obtain ⟨h1, h2, h3⟩ := emitWires_spec es (s := broadcast s)
    (by rw [broadcast_eq hn]) (by rw [broadcast_eq hn]) (by rw [broadcast_eq hn]; exact hk)
  rw [broadcast_eq hn] at h1 h2 h3
  exact ⟨h1, h2, by rw [h3]; simp⟩

/-- The rows of a list, one after the other, to a set of chips that Level 1 has shown. -/
theorem foldl_sendRow (buf : WordBuf) (rows : List Nat) {s : State} (hs : s.sel = s.selShown) :
    OnlyTransmits s (rows.foldl (sendRow buf) s) ∧
    (rows.foldl (sendRow buf) s).sel = s.sel ∧
    (rows.foldl (sendRow buf) s).selShown = s.selShown ∧
    (rows.foldl (sendRow buf) s).trace = s.trace ++ rows.flatMap (rowEvents s.cfg buf) := by
  induction rows generalizing s with
  | nil => exact ⟨.refl s, rfl, rfl, by simp⟩
  | cons a rows ih =>
    have h1 : OnlyTransmits s (sendRow buf s a) :=
      (sendBytes_onlyTransmits _ s).trans (emit_onlyTransmits _ _)
    have h2 : (sendRow buf s a).sel = s.sel := by simp [sendRow, sendBytes_eq]
    have h3 : (sendRow buf s a).selShown = s.selShown := by
      simp [sendRow, sendBytes_eq, frameBytes, hs]
    have h4 : (sendRow buf s a).trace = s.trace ++ rowEvents s.cfg buf a := by
      simp [sendRow, sendBytes_eq, rowEvents, State.unshown, hs]
    obtain ⟨g1, g2, g3, g4⟩ := ih (s := sendRow buf s a) (by rw [h2, h3, hs])
    rw [List.foldl_cons]
    exact ⟨h1.trans g1, g2.trans h2, g3.trans h3, by rw [g4, h4, h1.cfg]; simp⟩

/-- A state that differs from `s` in the pins, the chain and the traces, and has halted. -/
structure OnlyHalts (s t : State) : Prop where
  status : t.status = .halt
  rest : OnlyTransmits s { t with status := s.status }

theorem haltWith_onlyHalts {s t : State} (c : HaltCause) (h : OnlyTransmits s t) :
    OnlyHalts s (haltWith c t) :=
  ⟨rfl, h.cfg, h.ch, h.patch, h.slot, h.dirty, h.changed, h.lock, h.dual, h.now, h.nextTick, rfl,
    h.batch, h.agenda⟩

/-- SYSRESET's sequence (R220). -/
theorem sysReset_spec {s : State} (hn : 0 < s.cfg.nchip)
    (hk : keepsBroadcast true false s.pins.clk s.cfg.resetSeq = true) :
    OnlyHalts s (haltWith .sysreset (emitWires s.cfg.resetSeq (broadcast s))) ∧
    (haltWith .sysreset (emitWires s.cfg.resetSeq (broadcast s))).sel = 2 ^ s.cfg.nchip - 1 ∧
    (haltWith .sysreset (emitWires s.cfg.resetSeq (broadcast s))).trace =
      s.trace ++ .select (2 ^ s.cfg.nchip - 1) ::
        sequenceEvents s.pins.clk s.pins.d s.cfg.resetSeq ++ [.halt .sysreset] := by
  obtain ⟨h1, -, h3⟩ := broadcast_emitWires_spec hn hk
  refine ⟨haltWith_onlyHalts _ ((broadcast_onlyTransmits s).trans (emitWires_onlyTransmits _ _)),
    h1, ?_⟩
  rw [haltWith_trace, h3]

/-- REPROG's sequence (R221). -/
theorem reprogram_spec (buf : WordBuf) (ext : List Extent) {s : State} (hn : 0 < s.cfg.nchip)
    (hk : keepsBroadcast true false s.pins.clk s.cfg.bootEntrySeq = true) :
    OnlyHalts s (reprogram buf ext s) ∧
    (reprogram buf ext s).sel = 2 ^ s.cfg.nchip - 1 ∧
    (reprogram buf ext s).trace =
      s.trace ++ .select (2 ^ s.cfg.nchip - 1) ::
        sequenceEvents s.pins.clk s.pins.d s.cfg.bootEntrySeq ++
        s.cfg.enterBootCmd.map Event.byte ++
        (sentRows s.cfg.protLimit ext).flatMap (rowEvents s.cfg buf) ++
        [.byte 0, .byte 0, .byte 0, .byte 0, .midiOut 0x0F 0xFF 0x00 0x00, .halt .reprogDone] := by
  have he : OnlyTransmits s (enterBootloader s) :=
    ((broadcast_onlyTransmits s).trans (emitWires_onlyTransmits _ _)).trans
      (sendBytes_onlyTransmits _ _)
  obtain ⟨h1, h2, h3⟩ := broadcast_emitWires_spec hn hk
  have hu : (emitWires s.cfg.bootEntrySeq (broadcast s)).unshown = [] := by
    simp [State.unshown, h1, h2]
  have es : (enterBootloader s).sel = 2 ^ s.cfg.nchip - 1 := by
    unfold enterBootloader; rw [sendBytes_eq]; exact h1
  have ev : (enterBootloader s).selShown = 2 ^ s.cfg.nchip - 1 := by
    unfold enterBootloader; rw [sendBytes_eq]; dsimp only; split <;> assumption
  have et : (enterBootloader s).trace = s.trace ++ .select (2 ^ s.cfg.nchip - 1) ::
      sequenceEvents s.pins.clk s.pins.d s.cfg.bootEntrySeq ++
        s.cfg.enterBootCmd.map Event.byte := by
    unfold enterBootloader; rw [sendBytes_eq]; dsimp only; rw [hu, h3]; simp
  unfold reprogram
  generalize enterBootloader s = u at *
  obtain ⟨g1, g2, g3, g4⟩ := foldl_sendRow buf (sentRows s.cfg.protLimit ext) (es.trans ev.symm)
  generalize (sentRows s.cfg.protLimit ext).foldl (sendRow buf) u = w at *
  have hw : w.unshown = [] := by simp [State.unshown, g2, g3, es, ev]
  refine ⟨haltWith_onlyHalts _ (((he.trans g1).trans (sendBytes_onlyTransmits _ _)).trans
    (emit_onlyTransmits _ _)), ?_, ?_⟩
  · rw [haltWith_sel, emit_sel, sendBytes_eq]; exact g2.trans es
  · rw [haltWith_trace, emit_trace, sendBytes_eq]; dsimp only; rw [hw, g4, et, he.cfg]
    simp [termBytes, statusEvent]

end Sys2Proof.Machine
end

