-- ==== Sys2Proof/Laws/Levels.lean ====
section
/-! SUPPORT. The two levels of the output trace: an operation keeps their readers in step when what it
adds to the one folds to what it adds to the other (43_flush_and_transport.md R205). -/

namespace Sys2Proof.Machine

theorem Reader.run_append (f : Reader → Event → Reader × List Event) (r : Reader) (a b : List Event) :
    Reader.run f r (a ++ b) =
      ((Reader.run f (Reader.run f r a).1 b).1,
        (Reader.run f r a).2 ++ (Reader.run f (Reader.run f r a).1 b).2) := by
  induction a generalizing r with
  | nil => rfl
  | cons e a ih => simp [Reader.run, ih]

/-- The levels of the pins as a reader of Level 2 has them: all 0 once a `Halt` has been read. -/
def State.linePins (s : State) : Pins := if s.status = .run then s.pins else Pins.low

/-- What `t` has added to the two traces of `s` reads the same at both levels, whatever was shown. -/
def InStep (s t : State) : Prop :=
  t.cfg = s.cfg ∧ ∃ e1 e2, t.trace = s.trace ++ e1 ∧ t.pinTrace = s.pinTrace ++ e2 ∧
    ∀ w q, ∃ w' out,
      Reader.run (Reader.fold s.cfg.nchip) ⟨s.sel, w, s.linePins⟩ e2 = (⟨t.sel, w', t.linePins⟩, out) ∧
      Reader.run Reader.plain ⟨s.selShown, w, q⟩ e1 = (⟨t.selShown, w', q⟩, out)

/-- What is in step keeps the two levels of a run in agreement. -/
theorem InStep.levelsAgree {s t : State} (h : InStep s t) (g : LevelsAgree s) : LevelsAgree t := by
  obtain ⟨hc, e1, e2, h1, h2, h3⟩ := h
  obtain ⟨sel, g1, g2, g3⟩ := g
  refine ⟨sel, ?_⟩
  rw [hc, h1, h2, Reader.run_append, Reader.run_append]
  generalize Reader.run (Reader.fold s.cfg.nchip) (.start sel) s.pinTrace = a at *
  generalize Reader.run Reader.plain (.start sel) s.trace = b at *
  obtain ⟨⟨bs, bw, bq⟩, bo⟩ := b
  obtain ⟨w', out, k1, k2⟩ := h3 bw bq
  dsimp only at g1 g2 g3 ⊢
  subst g3
  rw [g2, show (if s.status = .run then s.pins else Pins.low) = s.linePins from rfl, k1, k2, g1]
  exact ⟨rfl, rfl, rfl⟩

theorem InStep.refl (s : State) : InStep s s :=
  ⟨rfl, [], [], by simp, by simp, fun w _ => ⟨w, [], rfl, rfl⟩⟩

theorem InStep.trans {s t u : State} (h : InStep s t) (g : InStep t u) : InStep s u := by
  obtain ⟨hc, e1, e2, h1, h2, h3⟩ := h
  obtain ⟨gc, f1, f2, g1, g2, g3⟩ := g
  refine ⟨gc.trans hc, e1 ++ f1, e2 ++ f2, by rw [g1, h1, List.append_assoc],
    by rw [g2, h2, List.append_assoc], fun w q => ?_⟩
  obtain ⟨w1, o1, a1, a2⟩ := h3 w q
  obtain ⟨w2, o2, b1, b2⟩ := g3 w1 q
  rw [hc] at b1
  exact ⟨w2, o1 ++ o2, by rw [Reader.run_append, a1, b1], by rw [Reader.run_append, a2, b2]⟩

/-- A change of other fields. -/
theorem InStep.of_same {s t : State} (hc : t.cfg = s.cfg) (h1 : t.trace = s.trace)
    (h2 : t.pinTrace = s.pinTrace) (h3 : t.sel = s.sel) (h4 : t.selShown = s.selShown)
    (h5 : t.linePins = s.linePins) : InStep s t :=
  ⟨hc, [], [], by simp [h1], by simp [h2], fun w _ => ⟨w, [], by rw [h3, h5]; rfl, by rw [h4]; rfl⟩⟩

/-- What an operation that stays in RUN has to show. -/
theorem InStep.of_run {s t : State} (e1 e2 : List Event) (hr : s.status = .run) (ht : t.status = .run)
    (hc : t.cfg = s.cfg) (h1 : t.trace = s.trace ++ e1) (h2 : t.pinTrace = s.pinTrace ++ e2)
    (h : ∀ w q, ∃ w' out,
      Reader.run (Reader.fold s.cfg.nchip) ⟨s.sel, w, s.pins⟩ e2 = (⟨t.sel, w', t.pins⟩, out) ∧
      Reader.run Reader.plain ⟨s.selShown, w, q⟩ e1 = (⟨t.selShown, w', q⟩, out)) : InStep s t := by
  have k1 : s.linePins = s.pins := if_pos hr
  have k2 : t.linePins = t.pins := if_pos ht
  exact ⟨hc, e1, e2, h1, h2, by rw [k1, k2]; exact h⟩

/-- An event that both levels show alike and that is no wire event. -/
theorem emit_inStep {e : Event} (s : State) (out : List Event)
    (h : ∀ r, Reader.fold s.cfg.nchip r e = (r, out) ∧ Reader.plain r e = (r, out)) :
    InStep s (emit e s) :=
  ⟨rfl, [e], [e], rfl, rfl, fun w _ => ⟨w, out, by simp only [Reader.run, h, List.append_nil]; rfl,
    by simp only [Reader.run, h, List.append_nil]; rfl⟩⟩

theorem strobePulse_inStep (d : Bool) {s : State} (hr : s.status = .run) (hs : s.pins.stb = false) :
    InStep s (strobePulse d s) :=
  .of_run [] (strobeEvents s.cfg d) hr hr rfl (by simp) rfl fun w _ => ⟨w, [], by
    simp [strobeEvents, Reader.run, Reader.fold, hs, strobePulse], rfl⟩

theorem strobePulses_inStep (ds : List Bool) {s : State} (hr : s.status = .run)
    (hs : s.pins.stb = false) : InStep s (strobePulses ds s) := by
  induction ds generalizing s with
  | nil => exact .refl s
  | cons d ds ih => exact (strobePulse_inStep d hr hs).trans (ih hr rfl)

/-- Showing a set that the chain holds. -/
theorem showSelect_inStep {s : State} {set : Nat} (h : s.sel = set) : InStep s (showSelect set s) :=
  ⟨rfl, [.select set], [], rfl, by simp, fun w _ => ⟨w, [], rfl, by subst h; rfl⟩⟩

theorem address_inStep {k : Nat} {s : State} (hk : k < s.cfg.nchip) (hr : s.status = .run)
    (hs : s.pins.stb = false) : InStep s (address k s) :=
  (strobePulses_inStep _ hr hs).trans
    (showSelect_inStep (by rw [strobePulses_eq]; exact addressBits_sel hk _))

theorem broadcast_inStep {s : State} (hn : 0 < s.cfg.nchip) (hr : s.status = .run)
    (hs : s.pins.stb = false) : InStep s (broadcast s) :=
  (strobePulses_inStep _ hr hs).trans
    (showSelect_inStep (by rw [strobePulses_eq]; exact broadcast_sel hn _))

/-- What Level 1 shows of a byte, read by either reader. -/
theorem plain_showByte (b : Byte) (s : State) (w : Nat) (q : Pins) :
    Reader.run Reader.plain ⟨s.selShown, w, q⟩ (s.unshown ++ [.byte b]) =
      (⟨s.sel, s.sel, q⟩, (Reader.byte ⟨s.sel, w, q⟩ b).2) := by
  unfold State.unshown
  split
  · rename_i h; simp [Reader.run, Reader.plain, Reader.byte, ← h]
  · simp only [List.cons_append, List.nil_append, Reader.run, Reader.plain, Reader.byte,
      List.append_nil]
    rfl

theorem sendByte_inStep (b : Byte) {s : State} (hr : s.status = .run) (hc : s.pins.clk = false) :
    InStep s (sendByte b s) :=
  .of_run (s.unshown ++ [.byte b]) (byteEvents s.cfg b) hr hr rfl rfl rfl fun w q =>
    ⟨s.sel, (Reader.byte ⟨s.sel, w, q⟩ b).2, by
      simp [byteEvents, Reader.run, Reader.fold, Reader.byte, hc, sendByte, showByte],
      plain_showByte b s w q⟩

theorem sendBytes_inStep (bs : List Byte) {s : State} (hr : s.status = .run)
    (hc : s.pins.clk = false) : InStep s (sendBytes bs s) := by
  induction bs generalizing s with
  | nil => exact .refl s
  | cons b bs ih => exact (sendByte_inStep b hr hc).trans (ih hr rfl)

/-- A pin takes a level. -/
theorem drivePin_inStep (p : PinName) (v : Bool) {s : State} (hr : s.status = .run) :
    InStep s (drivePin p v s) := by
  cases p with
  | ser => exact .of_run [] [.pin .ser v] hr hr rfl (by simp [drivePin]) rfl fun w _ =>
      ⟨w, [], rfl, rfl⟩
  | stb => exact .of_run [] [.pin .stb v] hr hr rfl (by simp [drivePin]) rfl fun w _ =>
      ⟨w, [], rfl, rfl⟩
  | clk =>
    unfold drivePin
    dsimp only
    split
    · rename_i hc
      refine .of_run (s.unshown ++ [.byte s.pins.d]) [.pin .clk v] hr hr rfl rfl rfl fun w q =>
        ⟨s.sel, (Reader.byte ⟨s.sel, w, q⟩ s.pins.d).2, ?_, plain_showByte _ s w q⟩
      simp only [Reader.run, Reader.fold, if_pos hc, List.append_nil]
      rfl
    · rename_i hc
      refine .of_run [] [.pin .clk v] hr hr rfl (by simp) rfl fun w _ => ⟨w, [], ?_, rfl⟩
      simp only [Reader.run, Reader.fold, if_neg hc, List.append_nil]
      rfl

/-- One event of an OPEN sequence; a byte needs CLK at rest. -/
theorem emitWire_inStep (e : WireEvent) {s : State} (hr : s.status = .run)
    (hb : ∀ b, e = .byte b → s.pins.clk = false) : InStep s (emitWire e s) := by
  cases e with
  | byte b => exact sendByte_inStep b hr (hb b rfl)
  | data b => exact .of_run [] [.data b] hr hr rfl (by simp [emitWire]) rfl fun w _ =>
      ⟨w, [], rfl, rfl⟩
  | hold n => exact emit_inStep s [] fun _ => ⟨rfl, rfl⟩
  | pin p v => exact drivePin_inStep p v hr

/-- An OPEN sequence that keeps the broadcast, and the byte `rest` may begin with. -/
theorem emitWires_inStep (es rest : List WireEvent) {s : State} (hr : s.status = .run)
    (hk : keepsBroadcast s.pins.ser s.pins.stb s.pins.clk (es ++ rest) = true) :
    InStep s (emitWires es s) ∧ (emitWires es s).status = .run ∧
    keepsBroadcast (emitWires es s).pins.ser (emitWires es s).pins.stb (emitWires es s).pins.clk
      rest = true := by
  induction es generalizing s with
  | nil => exact ⟨.refl s, hr, hk⟩
  | cons e es ih =>
    have hr' : (emitWire e s).status = .run := (emitWire_onlyTransmits e s).status.trans hr
    have hb : ∀ b, e = .byte b → s.pins.clk = false := by
      rintro b rfl
      simp only [List.cons_append, keepsBroadcast, Bool.and_eq_true, Bool.not_eq_true'] at hk
      exact hk.1
    have hk' : keepsBroadcast (emitWire e s).pins.ser (emitWire e s).pins.stb
        (emitWire e s).pins.clk (es ++ rest) = true := by
      cases e with
      | byte b =>
        simp only [List.cons_append, keepsBroadcast, Bool.and_eq_true] at hk
        have := hb b rfl
        rw [this] at hk
        exact hk.2
      | data b => exact hk
      | hold n => exact hk
      | pin p v =>
        cases p with
        | ser => exact hk
        | stb =>
          simp only [List.cons_append, keepsBroadcast, Bool.and_eq_true] at hk
          exact hk.2
        | clk => unfold emitWire drivePin; dsimp only; split <;> exact hk
    obtain ⟨g1, g2, g3⟩ := ih hr' hk'
    exact ⟨(emitWire_inStep e hr hb).trans g1, g2, g3⟩

/-- Entering HALT. -/
theorem haltWith_inStep (c : HaltCause) (s : State) : InStep s (haltWith c s) :=
  ⟨rfl, [.halt c], [.halt c], rfl, rfl, fun w _ => ⟨w, [.halt c], rfl, rfl⟩⟩

end Sys2Proof.Machine
end

