-- ==== Sys2Proof/Laws/PerInstr.lean ====
section
/-! SUPPORT. A statement for all instructions, one lemma per constructor: which rows travel on the OP
lane, and under which operation number (30_encoding.md R92). -/

namespace Sys2Proof.Laws.OpNumbers

/-- The operation number of 30_encoding.md R92, where the row has one. -/
def number : Instr → Option Byte
  | .tick _ => some 0x00
  | .pload _ _ => some 0x01
  | .setDual _ => some 0x02
  | .trig _ _ => some 0x03
  | .rel _ => some 0x04
  | .clri _ => some 0x05
  | .fade _ _ _ _ _ => some 0x06
  | .setWave _ _ => some 0x07
  | .setDuty _ _ => some 0x08
  | .setFreq _ _ => some 0x09
  | .setAmp _ _ => some 0x0A
  | .setPan _ _ => some 0x0B
  | .setCut _ _ => some 0x0C
  | .setRes _ _ => some 0x0D
  | .setLink _ _ => some 0x0E
  | .setNote _ _ => some 0x0F
  | .flush => some 0x10
  | .sysReset => some 0x11
  | .reprog _ _ => some 0x12
  | .wWave _ _ | .wFreq _ | .wVol _ | .wAlpha _ | .wBeta _ _ _ | .wGamma _ | .sendByte _
  | .strobePulse _ | .address _ | .broadcast | .rowFrame _ _ _ _ | .termFrame | .statusPkt => none

/-- A row with an operation number is encoded as that one byte on the OP lane, in every
configuration; any other row is on another lane and has no typed operand. -/
def Statement (i : Instr) : Prop :=
  ∀ g : Cfg,
    match number i with
    | some n => (encode g i).lane = .op ∧ (encode g i).bytes = [n]
    | none => (encode g i).lane ≠ .op ∧ (encode g i).args = []

theorem tick (now : Time) : Statement (.tick now) := fun _ => ⟨rfl, rfl⟩
theorem pload (i : Nat) (p : Patch) : Statement (.pload i p) := fun _ => ⟨rfl, rfl⟩
theorem setDual (b : Int) : Statement (.setDual b) := fun _ => ⟨rfl, rfl⟩
theorem trig (c i : Nat) : Statement (.trig c i) := fun _ => ⟨rfl, rfl⟩
theorem rel (c : Nat) : Statement (.rel c) := fun _ => ⟨rfl, rfl⟩
theorem clri (c : Nat) : Statement (.clri c) := fun _ => ⟨rfl, rfl⟩
theorem fade (c : Nat) (init : ℚ) (len dir : Int) (now : Time) :
    Statement (.fade c init len dir now) :=
  fun _ => ⟨rfl, rfl⟩
theorem setWave (c : Nat) (w : WaveType) : Statement (.setWave c w) := fun _ => ⟨rfl, rfl⟩
theorem setDuty (c : Nat) (d : ℚ) : Statement (.setDuty c d) := fun _ => ⟨rfl, rfl⟩
theorem setFreq (c : Nat) (f : Int) : Statement (.setFreq c f) := fun _ => ⟨rfl, rfl⟩
theorem setAmp (c : Nat) (a : ℚ) : Statement (.setAmp c a) := fun _ => ⟨rfl, rfl⟩
theorem setPan (c : Nat) (p : ℚ) : Statement (.setPan c p) := fun _ => ⟨rfl, rfl⟩
theorem setCut (c : Nat) (hz : Int) : Statement (.setCut c hz) := fun _ => ⟨rfl, rfl⟩
theorem setRes (c : Nat) (r : ℚ) : Statement (.setRes c r) := fun _ => ⟨rfl, rfl⟩
theorem setLink (c : Nat) (l : Option Nat) : Statement (.setLink c l) := fun _ => ⟨rfl, rfl⟩
theorem setNote (c : Nat) (n : Int) : Statement (.setNote c n) := fun _ => ⟨rfl, rfl⟩
theorem flush : Statement .flush := fun _ => ⟨rfl, rfl⟩
theorem sysReset : Statement .sysReset := fun _ => ⟨rfl, rfl⟩
theorem reprog (buf : WordBuf) (ext : List Extent) : Statement (.reprog buf ext) :=
  fun _ => ⟨rfl, rfl⟩
theorem wWave (code : BitVec 6) (duty : Byte) : Statement (.wWave code duty) :=
  fun _ => ⟨nofun, rfl⟩
theorem wFreq (f14 : BitVec 14) : Statement (.wFreq f14) := fun _ => ⟨nofun, rfl⟩
theorem wVol (v6 : BitVec 6) : Statement (.wVol v6) := fun _ => ⟨nofun, rfl⟩
theorem wAlpha (a : Byte) : Statement (.wAlpha a) := fun _ => ⟨nofun, rfl⟩
theorem wBeta (mag : BitVec 6) (sign sat : Bool) : Statement (.wBeta mag sign sat) :=
  fun _ => ⟨nofun, rfl⟩
theorem wGamma (g : Byte) : Statement (.wGamma g) := fun _ => ⟨nofun, rfl⟩
theorem sendByte (b : Byte) : Statement (.sendByte b) := fun _ => ⟨nofun, rfl⟩
theorem strobePulse (d : Bool) : Statement (.strobePulse d) := fun _ => ⟨nofun, rfl⟩
theorem address (k : Nat) : Statement (.address k) := fun _ => ⟨nofun, rfl⟩
theorem broadcast : Statement .broadcast := fun _ => ⟨nofun, rfl⟩
theorem rowFrame (len : Byte) (addr : Word16) (flag : Byte) (words : List Word16) :
    Statement (.rowFrame len addr flag words) :=
  fun _ => ⟨nofun, rfl⟩
theorem termFrame : Statement .termFrame := fun _ => ⟨nofun, rfl⟩
theorem statusPkt : Statement .statusPkt := fun _ => ⟨nofun, rfl⟩

end Sys2Proof.Laws.OpNumbers
end

