-- ==== Sys2Proof/Laws/Step.lean ====
section
/-! SUPPORT. What a step can do: whose turn it is, and, for each turn, what is answered. -/

namespace Sys2Proof.Machine

open Host (Outcome)

/-- Every turn, from the status, the lock, the section in progress and the agenda. -/
theorem step_cases (s : State) :
    (s.status = .halt ∧ step s = .next (watchdogRestart s)) ∨
    (s.status = .run ∧ s.lock = .engine ∧ step s = .next s) ∨
    (s.status = .run ∧ s.lock = .host ∧ s.batch = [] ∧ step s = .next { s with lock := .free }) ∨
    (∃ p rest, s.status = .run ∧ s.lock = .host ∧ s.batch = p :: rest ∧
      step s = runFetched (fetchPacket { s with batch := rest } p) { s with batch := rest }) ∨
    (s.status = .run ∧ s.lock = .free ∧ s.agenda = [] ∧ step s = exec (.tick s.nextTick) s) ∨
    (∃ ops rest, s.status = .run ∧ s.lock = .free ∧ s.agenda = .host ops :: rest ∧
      step s = .next { s with lock := .host, batch := ops, agenda := rest }) ∨
    (∃ p rest, s.status = .run ∧ s.lock = .free ∧ s.agenda = .engine p :: rest ∧
      step s = runFetched (fetchPacket { s with agenda := rest } p) { s with agenda := rest }) := by
  unfold step takeTurn
  rcases hst : s.status with _ | _
  · rcases hlk : s.lock with _ | _ | _
    · rcases hag : s.agenda with _ | ⟨ops | p, rest⟩
      · exact .inr (.inr (.inr (.inr (.inl ⟨rfl, rfl, rfl, rfl⟩))))
      · exact .inr (.inr (.inr (.inr (.inr (.inl ⟨ops, rest, rfl, rfl, rfl, rfl⟩)))))
      · exact .inr (.inr (.inr (.inr (.inr (.inr ⟨p, rest, rfl, rfl, rfl, rfl⟩)))))
    · rcases hb : s.batch with _ | ⟨p, rest⟩
      · exact .inr (.inr (.inl ⟨rfl, rfl, rfl, rfl⟩))
      · exact .inr (.inr (.inr (.inl ⟨p, rest, rfl, rfl, rfl, rfl⟩)))
    · exact .inr (.inl ⟨rfl, rfl, rfl⟩)
  · exact .inl ⟨rfl, rfl⟩

/-- What a taken packet does: the instruction it decodes to, begun when its time has come, or nothing,
or the refusal of its word. -/
theorem runFetched_cases (p : Packet) (s : State) :
    (∃ i, decode s.cfg p = .ok i ∧ runFetched (fetchPacket s p) s = exec (started s i) s) ∨
    (∃ e, decode s.cfg p = .error e ∧ p.lane = .op ∧ runFetched (fetchPacket s p) s = .next s) ∨
    (∃ e, decode s.cfg p = .error e ∧ p.lane ≠ .op ∧
      runFetched (fetchPacket s p) s = .refused (.undecodable e)) := by
  unfold fetchPacket
  cases h : decode s.cfg p with
  | ok i => exact .inl ⟨i, rfl, rfl⟩
  | error e =>
    dsimp only
    split
    · exact .inr (.inl ⟨e, rfl, ‹_›, rfl⟩)
    · exact .inr (.inr ⟨e, rfl, ‹_›, rfl⟩)

/-- A step that answers a next state ran an instruction from a state that differs from `s` only in the
scheduler's fields, or moved the scheduler, or restarted the block. -/
theorem step_next {s t : State} (h : step s = .next t) :
    t = watchdogRestart s ∧ s.status = .halt ∨
    (s.status = .run ∧ ∃ lock batch agenda,
      t = { s with lock := lock, batch := batch, agenda := agenda } ∧
      (lock = .engine → s.lock = .engine)) ∨
    (s.status = .run ∧ ∃ i batch agenda, exec i { s with batch := batch, agenda := agenda } = .next t) := by
  have run : ∀ (p : Packet) (u : State), runFetched (fetchPacket u p) u = .next t →
      (∃ i, exec i u = .next t) ∨ t = u := by
    intro p u hu
    rcases runFetched_cases p u with ⟨i, _, e⟩ | ⟨_, _, _, e⟩ | ⟨_, _, _, e⟩ <;> rw [e] at hu
    · exact .inl ⟨_, hu⟩
    · injection hu with hu; exact .inr hu.symm
    · cases hu
  rcases step_cases s with ⟨h1, e⟩ | ⟨h1, h2, e⟩ | ⟨h1, h2, h3, e⟩ | ⟨p, rest, h1, h2, h3, e⟩ |
    ⟨h1, h2, h3, e⟩ | ⟨ops, rest, h1, h2, h3, e⟩ | ⟨p, rest, h1, h2, h3, e⟩ <;> rw [e] at h
  · injection h with h; exact .inl ⟨h.symm, h1⟩
  · injection h with h; subst h
    exact .inr (.inl ⟨h1, s.lock, s.batch, s.agenda, rfl, id⟩)
  · injection h with h; subst h
    exact .inr (.inl ⟨h1, .free, s.batch, s.agenda, rfl, nofun⟩)
  · rcases run p _ h with ⟨i, hi⟩ | rfl
    · exact .inr (.inr ⟨h1, i, rest, s.agenda, hi⟩)
    · exact .inr (.inl ⟨h1, s.lock, rest, s.agenda, rfl, id⟩)
  · exact .inr (.inr ⟨h1, _, s.batch, s.agenda, h⟩)
  · injection h with h; subst h
    exact .inr (.inl ⟨h1, .host, ops, rest, rfl, nofun⟩)
  · rcases run p _ h with ⟨i, hi⟩ | rfl
    · exact .inr (.inr ⟨h1, i, s.batch, rest, hi⟩)
    · exact .inr (.inl ⟨h1, s.lock, s.batch, rest, rfl, id⟩)

end Sys2Proof.Machine
end

