-- ==== Sys2Proof/Tests/Slice0.lean ====
section
/-! SUPPORT. The model's own tests. Expected results are taken from spec/95_test_vectors.md (the vector is
named in the comment) or worked out by hand from the rule named. At the end, for every statement with
premises, states and operands that meet them. -/

namespace Sys2Proof.Tests

open Sys2Proof.Machine Host

-- One theorem after the other: each kernel evaluation waits for the one before it, and a hundred
-- waiting threads would take more memory than the check allows.
set_option Elab.async false

/-! ### Helpers -/

/-- An envelope from its points and marks. -/
def env (pts : List (Nat × Int)) (sus ls le : Byte) : Envelope :=
  { npoints := BitVec.ofNat 8 pts.length
    pt := Vector.ofFn fun j =>
      ⟨BitVec.ofNat 16 (pts.getD j.val (0, 0)).1, BitVec.ofInt 16 (pts.getD j.val (0, 0)).2⟩
    sustainIndex := sus
    loopStart := ls
    loopEnd := le }

/-- A Patch with one volume envelope. -/
def volPatch (w : WaveType) (e : Envelope) : Patch :=
  { Patch.ofWave w with env := { PerTrack.all Envelope.empty with volume := e } }

def ramp : Envelope := env [(0, 0), (10, 100)] 0xFF 0xFF 0xFF
def looping : Envelope := env [(0, 0), (2, 200), (4, 100), (6, 200), (8, 0)] 0xFF 1 3

/-- Five Patches: 0 as reset leaves it, 1 a ramp, 2 a loop, 3 without points, 4 not defined, 5 one
point. -/
def bank : Vector Patch 128 :=
  ((((State.reset.patch.set 1 (volPatch .square ramp)).set 2 (volPatch .triangle looping)).set 3
    (Patch.ofWave .sine)).set 4 (volPatch .sine (env [(0, 0), (5, 1), (4, 2)] 0xFF 0xFF 0xFF))).set 5
    (volPatch .noise (env [(0, 77)] 0xFF 0xFF 0xFF))

/-- The reset state with that bank. -/
def idle : State := { State.reset with patch := bank }

/-- The same with HOST in its critical section. -/
def held : State := { idle with lock := .host }

/-- HOST in its critical section, dual mode. -/
def heldDual : State := { held with dual := true }

/-- A Channel changed in a state. -/
def withChan (s : State) (c : Nat) (f : Channel → Channel) : State := s.setChan c (f (s.chan c))

/-- A Channel that plays Patch `i` from the cursors TRIG leaves. -/
def playing (i : Fin 128) (x : Channel) : Channel := { x with instrument := some i }

/-- A fade from 1 down over 1000000 microseconds, begun at time 0. -/
def fading (x : Channel) : Channel :=
  { x with amplitude := 1, fadeInit := 1, fadeLength := 1000000, fadeDir := .down }

/-- An outcome is the refusal of this name. -/
def refuses (o : Outcome State Fault Refusal) (r : Refusal) : Bool :=
  match o with
  | .refused q => q == r
  | _ => false

/-- The next state of an outcome, if it has one. -/
def nextOf (o : Outcome State Fault Refusal) : Option State :=
  match o with
  | .next t => some t
  | .fault _ => none
  | .refused _ => none

/-- A property of the next state; false where there is none. -/
def holds (o : Outcome State Fault Refusal) (f : State → Bool) : Bool :=
  match o with
  | .next t => f t
  | .fault _ => false
  | .refused _ => false

theorem next_of_holds {o : Outcome State Fault Refusal} {f : State → Bool} (h : holds o f = true) :
    ∃ t, o = .next t := by
  cases o with
  | next t => exact ⟨t, rfl⟩
  | fault r => cases h
  | refused r => cases h

/-- Channels, slots, flags and traces are as before. -/
def untouched (s t : State) : Bool :=
  t.ch == s.ch && t.slot == s.slot && t.dirty == s.dirty && t.changed == s.changed &&
    t.trace == s.trace && t.pinTrace == s.pinTrace && t.dual == s.dual

/-! ### WellFormed refuses an ill-formed term for each of its checks -/

theorem test_wf_pload : (Instr.pload 128 Patch.zero).wellFormed Config.standard = false := by decide
theorem test_wf_setDual : (Instr.setDual 2).wellFormed Config.standard = false ∧
    (Instr.setDual (-1)).wellFormed Config.standard = false := by decide
theorem test_wf_trig : (Instr.trig 16 0).wellFormed Config.standard = false ∧
    (Instr.trig 0 128).wellFormed Config.standard = false := by decide
theorem test_wf_rel : (Instr.rel 16).wellFormed Config.standard = false := by decide
theorem test_wf_clri : (Instr.clri 16).wellFormed Config.standard = false := by decide
theorem test_wf_fade :
    (Instr.fade 16 1 5 1 0).wellFormed Config.standard = false ∧
    (Instr.fade 0 2 5 1 0).wellFormed Config.standard = false ∧
    (Instr.fade 0 (-1) 5 1 0).wellFormed Config.standard = false ∧
    (Instr.fade 0 1 0 1 0).wellFormed Config.standard = false ∧
    (Instr.fade 0 1 4294967296 1 0).wellFormed Config.standard = false ∧
    (Instr.fade 0 1 5 0 0).wellFormed Config.standard = false := by decide +kernel
theorem test_wf_setWave : (Instr.setWave 16 .sine).wellFormed Config.standard = false := by decide
theorem test_wf_setDuty : (Instr.setDuty 16 0).wellFormed Config.standard = false ∧
    (Instr.setDuty 0 (256 / 255)).wellFormed Config.standard = false ∧
    (Instr.setDuty 0 (-1 / 255)).wellFormed Config.standard = false := by decide +kernel
theorem test_wf_setFreq : (Instr.setFreq 16 0).wellFormed Config.standard = false ∧
    (Instr.setFreq 0 65536).wellFormed Config.standard = false ∧
    (Instr.setFreq 0 (-1)).wellFormed Config.standard = false := by decide
theorem test_wf_setAmp : (Instr.setAmp 16 0).wellFormed Config.standard = false ∧
    (Instr.setAmp 0 (3 / 2)).wellFormed Config.standard = false ∧
    (Instr.setAmp 0 (-1 / 10)).wellFormed Config.standard = false := by decide +kernel
theorem test_wf_setPan : (Instr.setPan 16 0).wellFormed Config.standard = false ∧
    (Instr.setPan 0 (3 / 2)).wellFormed Config.standard = false ∧
    (Instr.setPan 0 (-3 / 2)).wellFormed Config.standard = false := by decide +kernel
theorem test_wf_setCut : (Instr.setCut 16 0).wellFormed Config.standard = false ∧
    (Instr.setCut 0 20001).wellFormed Config.standard = false ∧
    (Instr.setCut 0 (-1)).wellFormed Config.standard = false := by decide
theorem test_wf_setRes : (Instr.setRes 16 0).wellFormed Config.standard = false ∧
    (Instr.setRes 0 2).wellFormed Config.standard = false ∧
    (Instr.setRes 0 (-1)).wellFormed Config.standard = false := by decide +kernel
theorem test_wf_setLink : (Instr.setLink 16 none).wellFormed Config.standard = false ∧
    (Instr.setLink 0 (some 16)).wellFormed Config.standard = false := by decide
theorem test_wf_setNote : (Instr.setNote 16 0).wellFormed Config.standard = false ∧
    (Instr.setNote 0 128).wellFormed Config.standard = false ∧
    (Instr.setNote 0 (-1)).wellFormed Config.standard = false := by decide
theorem test_wf_reprog_extents :
    (Instr.reprog [] (List.replicate 17 (0, 16))).wellFormed Config.standard = false ∧
    (Instr.reprog [] [(0x220, 0x200)]).wellFormed Config.standard = false ∧
    (Instr.reprog [] [(0x205, 0x220)]).wellFormed Config.standard = false ∧
    (Instr.reprog [] [(0x200, 0x215)]).wellFormed Config.standard = false ∧
    (Instr.reprog [] [(0x200, 65552)]).wellFormed Config.standard = false := by decide
theorem test_wf_reprog_buffer :
    (Instr.reprog [(2, 1), (1, 1)] []).wellFormed Config.standard = false ∧
    (Instr.reprog [(1, 0)] []).wellFormed Config.standard = false ∧
    (Instr.reprog [(1, 0), (2, 1)] []).wellFormed Config.standard = false ∧
    (Instr.reprog [(65536, 1)] []).wellFormed Config.standard = false := by decide
theorem test_wf_wWave : (Instr.wWave 9 0).wellFormed Config.standard = false := by decide
theorem test_wf_address : (Instr.address 16).wellFormed Config.standard = false := by decide
theorem test_wf_rowFrame :
    (Instr.rowFrame 0 0 1 (List.replicate 16 0)).wellFormed Config.standard = false ∧
    (Instr.rowFrame 1 8 1 (List.replicate 16 0)).wellFormed Config.standard = false ∧
    (Instr.rowFrame 1 0 1 (List.replicate 15 0)).wellFormed Config.standard = false := by decide

/-! ### Decoding words written out from 30_encoding.md -/

/-- What the decoder reads from a packet, in the standard configuration. -/
def read (lane : Lane) (bytes : List Byte) (args : List Operand := []) : Option Instr :=
  (decode Config.standard ⟨lane, bytes, args⟩).toOption

-- R92's table of operation numbers and operands
theorem test_decode_tick : read .op [0x00] [.time 5] = some (.tick 5) := by decide
theorem test_decode_pload : read .op [0x01] [.index 1, .patch Patch.zero] =
    some (.pload 1 Patch.zero) := by decide
theorem test_decode_setDual : read .op [0x02] [.int 1] = some (.setDual 1) := by decide
theorem test_decode_trig : read .op [0x03] [.index 2, .index 3] = some (.trig 2 3) := by decide
theorem test_decode_rel : read .op [0x04] [.index 2] = some (.rel 2) := by decide
theorem test_decode_clri : read .op [0x05] [.index 2] = some (.clri 2) := by decide
theorem test_decode_fade : read .op [0x06] [.index 2, .rat 1, .int 5, .int (-1), .time 9] =
    some (.fade 2 1 5 (-1) 9) := by decide
theorem test_decode_setWave : read .op [0x07] [.index 2, .wave .noise] =
    some (.setWave 2 .noise) := by decide
theorem test_decode_setDuty : read .op [0x08] [.index 2, .rat 1] = some (.setDuty 2 1) := by decide
theorem test_decode_setFreq : read .op [0x09] [.index 2, .int 440] = some (.setFreq 2 440) := by decide
theorem test_decode_setAmp : read .op [0x0A] [.index 2, .rat 1] = some (.setAmp 2 1) := by decide
theorem test_decode_setPan : read .op [0x0B] [.index 2, .rat (-1)] = some (.setPan 2 (-1)) := by decide
theorem test_decode_setCut : read .op [0x0C] [.index 2, .int 7] = some (.setCut 2 7) := by decide
theorem test_decode_setRes : read .op [0x0D] [.index 2, .rat 1] = some (.setRes 2 1) := by decide
theorem test_decode_setLink : read .op [0x0E] [.index 2, .link (some 3)] =
    some (.setLink 2 (some 3)) := by decide
theorem test_decode_setNote : read .op [0x0F] [.index 2, .int 69] = some (.setNote 2 69) := by decide
theorem test_decode_flush : read .op [0x10] = some .flush := by decide
theorem test_decode_sysReset : read .op [0x11] = some .sysReset := by decide
theorem test_decode_reprog : read .op [0x12] [.words [(1, 2)], .extents [(0, 16)]] =
    some (.reprog [(1, 2)] [(0, 16)]) := by decide
-- H25 and R94 (a): no operation; R126: operands of another operation
theorem test_decode_reserved : read .op [0x13] = none ∧ read .op [0xFF] = none ∧
    read .op [0x0A] [.index 2] = none := by decide
-- R84's examples: Square at duty byte 7F, None at 7F
theorem test_decode_wWave : read .wire [0x05, 0x7F] = some (.wWave 5 0x7F) ∧
    read .wire [0x00, 0x7F] = some (.wWave 0 0x7F) := by decide
-- R85's example: 440 Hz
theorem test_decode_wFreq : read .wire [0x41, 0xB8] = some (.wFreq 440) := by decide
-- R86's examples: amplitude 1 and 1/2
theorem test_decode_wVol : read .wire [0xBF] = some (.wVol 63) ∧
    read .wire [0x9F] = some (.wVol 31) := by decide
-- R87: first bytes C0, C1, C2; R88: beta bits 7:2 magnitude, bit 1 sign, bit 0 saturate
theorem test_decode_wAlpha : read .wire [0xC0, 0xFF] = some (.wAlpha 0xFF) := by decide
theorem test_decode_wBeta : read .wire [0xC1, 0xFE] = some (.wBeta 63 true false) ∧
    read .wire [0xC1, 0xF5] = some (.wBeta 61 false true) := by decide
theorem test_decode_wGamma : read .wire [0xC2, 0x3F] = some (.wGamma 0x3F) := by decide
-- R94 (e): no wave type has code 9, no parameter selector 3; R82: a VOL command has no data byte, a FREQ command has one
theorem test_decode_wire_rejects : read .wire [0x09, 0x7F] = none ∧ read .wire [0xC3, 0x00] = none ∧
    read .wire [0xBF, 0x01] = none ∧ read .wire [0x41] = none := by decide
-- the PRIM rows of the opcode table: a byte, a bit, a one-hot word, all ones
theorem test_decode_sendByte : read .byte [0xA5] = some (.sendByte 0xA5) := by decide
theorem test_decode_strobePulse : read .strobe [0x01] = some (.strobePulse true) ∧
    read .strobe [0x00] = some (.strobePulse false) ∧ read .strobe [0x02] = none := by decide
theorem test_decode_address : read .chain [0x00, 0x01] = some (.address 0) ∧
    read .chain [0x80, 0x00] = some (.address 15) := by decide
theorem test_decode_broadcast : read .chain [0xFF, 0xFF] = some .broadcast ∧
    read .chain [0x00, 0x03] = none := by decide
-- R95: length, address high, address low, write flag, then each word low byte first
theorem test_decode_rowFrame :
    read .frame ([0x20, 0x02, 0x10, 0x01, 0x34, 0x12] ++ List.replicate 30 0) =
      some (.rowFrame 0x20 0x0210 0x01 (0x1234 :: List.replicate 15 0)) := by decide
theorem test_decode_termFrame : read .frame [0x00, 0x00, 0x00, 0x00] = some .termFrame := by decide
-- R96
theorem test_decode_statusPkt : read .midi [0x0F, 0xFF, 0x00, 0x00] = some .statusPkt := by decide
-- the opcode table's ADDRESS row: bit 15 is the last position
theorem test_table_address : decodeTableWord 16 0x8000 = some (.address 15) := by decide +kernel

/-! ### One step of each instruction -/

-- H1
theorem test_pload : holds (exec (.pload 1 (volPatch .square ramp)) { State.reset with lock := .host })
    (fun t => t.patchAt 1 == volPatch .square ramp && !t.changed) = true := by decide +kernel
-- 70 R276: the cursors of a Channel that plays the Patch stay, and U4 is tested at its next TICK; R110:
-- a Patch equal to the old one changes nothing
theorem test_pload_live : holds (exec (.pload 5 (volPatch .noise (env [(100, 7)] 0xFF 0xFF 0xFF)))
      (withChan held 0 (playing 5)))
    (fun t => t.chan 0 == { playing 5 (held.chan 0) with reloaded := true } &&
      t.chan 1 == held.chan 1) = true ∧
    holds (exec (.pload 5 (bank.get 5)) (withChan held 0 (playing 5)))
      (fun t => t.ch == (withChan held 0 (playing 5)).ch) = true := by decide +kernel
-- H2
theorem test_setDual : holds (exec (.setDual 1) held) (fun t => t.dual && t.chans == 8) = true := by
  decide +kernel
-- U5, 60 R256: refused while a Channel is live, though the mode is set already
theorem test_setDual_busy : refuses (exec (.setDual 0) (withChan held 0 (playing 1)))
    .dualChangeWhileBusy = true := by decide +kernel
-- H3
theorem test_trig : holds (exec (.trig 0 1) held) (fun t =>
    (t.chan 0).instrument == some 1 && (t.chan 0).waveType == .square &&
    t.slotAt 0 .wave == some (0x05, 0x7F) && t.dirty.wave && t.changed) = true := by decide +kernel
-- H12
theorem test_trig_ignored : holds (exec (.trig 16 1) held) (untouched held) = true := by
  decide +kernel
-- H4
theorem test_rel_live : holds (exec (.rel 0) (withChan held 0 (playing 1)))
    (fun t => (t.chan 0).released && !t.changed) = true := by decide +kernel
-- H5
theorem test_rel_idle : holds (exec (.rel 0) (withChan held 0 fun x => { x with amplitude := 1 }))
    (fun t => (t.chan 0).amplitude == 0 && t.slotAt 0 .vol == some (0x80, 0x00)) = true := by
  decide +kernel
-- H6
theorem test_clri : holds (exec (.clri 0) (withChan held 0 (playing 1)))
    (fun t => (t.chan 0).instrument == none && t.trace == []) = true := by decide +kernel
-- H7
theorem test_fade : holds (exec (.fade 0 1 1000000 (-1) 7) (withChan held 0 (playing 1)))
    (fun t => (t.chan 0).instrument == none && (t.chan 0).fadeStart == 7 &&
      (t.chan 0).fadeLength == 1000000 && (t.chan 0).fadeDir == .down && !t.changed) = true := by
  decide +kernel
-- H21, the second
theorem test_fade_ignored : holds (exec (.fade 0 1 5 0 0) held) (untouched held) = true := by
  decide +kernel
-- H9
theorem test_setWave : holds (exec (.setWave 1 .sine) held)
    (fun t => t.slotAt 1 .wave == some (0x01, 0x7F)) = true := by decide +kernel
-- H10
theorem test_setDuty : holds (exec (.setDuty 0 (1 / 4))
    (withChan held 0 fun x => { x with waveType := .square }))
    (fun t => t.slotAt 0 .wave == some (0x05, 0x3F)) = true := by decide +kernel
-- H11; 2.4: 65535 saturates at 16383
theorem test_setFreq : holds (exec (.setFreq 0 440) held)
    (fun t => t.slotAt 0 .freq == some (0x41, 0xB8) && t.dirty.freq) = true := by decide +kernel
theorem test_setFreq_saturates : holds (exec (.setFreq 0 65535) held)
    (fun t => t.slotAt 0 .freq == some (0x7F, 0xFF)) = true := by decide +kernel
-- 2.4
theorem test_setAmp : holds (exec (.setAmp 0 (1 / 63)) held)
    (fun t => t.slotAt 0 .vol == some (0x81, 0x00)) = true := by decide +kernel
-- H13
theorem test_setAmp_dual : holds (exec (.setAmp 8 1) heldDual) (untouched heldDual) = true := by
  decide +kernel
-- H19; R174 in dual mode: two slots, silence on both
theorem test_setPan : holds (exec (.setPan 0 (-1 / 2)) held)
    (fun t => (t.chan 0).pan == -1 / 2 && !t.changed) = true := by decide +kernel
theorem test_setPan_dual : holds (exec (.setPan 7 1) heldDual)
    (fun t => t.slotAt 14 .vol == some (0x80, 0) && t.slotAt 15 .vol == some (0x80, 0)) = true := by
  decide +kernel
-- H26
theorem test_setCut : holds (exec (.setCut 0 1000) held)
    (fun t => t.slotAt 0 .alpha == some (0xC0, 0x01) && t.slotAt 0 .beta == some (0xC1, 0x00) &&
      t.slotAt 0 .gamma == some (0xC2, 0x00)) = true := by decide +kernel
-- H27
theorem test_setRes : holds (exec (.setRes 0 (1 / 2))
    (withChan held 0 fun x => { x with cutoff := 1000 }))
    (fun t => t.slotAt 0 .alpha == some (0xC0, 0x01) && t.slotAt 0 .beta == some (0xC1, 0xF8) &&
      t.slotAt 0 .gamma == some (0xC2, 0x3F)) = true := by decide +kernel
-- H23
theorem test_setLink : holds (exec (.setLink 0 (some 1)) held)
    (fun t => (t.chan 0).linked == some 1) = true := by decide +kernel
theorem test_setLink_ignored : holds (exec (.setLink 0 (some 16)) held) (untouched held) = true := by
  decide +kernel
-- H24
theorem test_setNote : holds (exec (.setNote 0 69) held) (fun t => (t.chan 0).note == 69) = true := by
  decide +kernel

/-- Q1's queue. -/
def queued : State :=
  enqueue 0 .freq 0x40 0x64 (enqueue 3 .freq 0x41 0xB8 (enqueue 3 .vol 0x9F 0 (enqueue 0 .vol 0x80 0
    (enqueue 0 .vol 0xBF 0 held))))

-- Q1
theorem test_flush : holds (exec .flush queued) (fun t => t.trace ==
    [.select 1, .byte 0x40, .byte 0x64, .select 8, .byte 0x41, .byte 0xB8, .select 1, .byte 0x80,
      .select 8, .byte 0x9F] && !t.changed) = true := by decide +kernel
-- H28
theorem test_flush_empty : holds (exec .flush held) (untouched held) = true := by decide +kernel

/-- A configuration with two chips, for the pin-level vectors. -/
def twoChips : Cfg := { Config.standard with nchip := 2, chipL := [0], chipR := [1] }

/-- HOST in its critical section, two chips. -/
def heldTwo : State := { State.boot twoChips with lock := .host }

-- S1
theorem test_sysReset : holds (exec .sysReset heldTwo)
    (fun t => t.trace == [.select 3, .halt .sysreset] && t.status == .halt && t.lock == .host) =
      true := by decide +kernel
-- S5: every row protected
theorem test_reprog : holds (exec (.reprog [] [(0x000, 0x200)]) heldTwo) (fun t => t.trace ==
    [.select 3, .byte 0, .byte 0, .byte 0, .byte 0, .midiOut 0x0F 0xFF 0x00 0x00,
      .halt .reprogDone]) = true := by decide +kernel
-- S2: only the row at 200 is sent
theorem test_reprog_rows : sentRows 0x200 [(0x1F0, 0x210)] = [0x200] ∧
    (frameBytes 0x20 0x0200 0x01 (rowWords [(0x200, 0x0200), (0x201, 0x0201)] 0x200)).take 8 =
      [0x20, 0x02, 0x00, 0x01, 0x00, 0x02, 0x01, 0x02] := by decide +kernel
-- R196 and the examples of R84 to R88
theorem test_wWave : holds (exec (.wWave 5 0x7F) held)
    (fun t => t.trace == [.byte 0x05, .byte 0x7F]) = true := by decide +kernel
-- R94 (e): a code of no wave type is never emitted
theorem test_wWave_reserved : holds (exec (.wWave 9 0x7F) held) (untouched held) = true := by
  decide +kernel
theorem test_wFreq : holds (exec (.wFreq 440) held)
    (fun t => t.trace == [.byte 0x41, .byte 0xB8]) = true := by decide +kernel
theorem test_wVol : holds (exec (.wVol 63) held) (fun t => t.trace == [.byte 0xBF]) = true := by
  decide +kernel
theorem test_wAlpha : holds (exec (.wAlpha 7) held)
    (fun t => t.trace == [.byte 0xC0, .byte 0x07]) = true := by decide +kernel
theorem test_wBeta : holds (exec (.wBeta 61 false true) held)
    (fun t => t.trace == [.byte 0xC1, .byte 0xF5]) = true := by decide +kernel
theorem test_wGamma : holds (exec (.wGamma 0x3F) held)
    (fun t => t.trace == [.byte 0xC2, .byte 0x3F]) = true := by decide +kernel
-- T3's second half
theorem test_sendByte : holds (exec (.sendByte 0xBF) heldTwo) (fun t => t.pinTrace ==
    [.data 0xBF, .hold 1, .pin .clk true, .hold 1, .pin .clk false, .hold 1]) = true := by
  decide +kernel
-- R205: a byte after the chain has changed has its Select before it
theorem test_sendByte_select : holds (exec (.sendByte 0xBF) { heldTwo with sel := 1 })
    (fun t => t.trace == [.select 1, .byte 0xBF] && t.selShown == 1) = true := by decide +kernel
-- R198
theorem test_strobePulse : holds (exec (.strobePulse true) { heldTwo with sel := 2 })
    (fun t => t.sel == 1 && t.trace == [] && t.pins.ser) = true := by decide +kernel
-- T3's first half
theorem test_address : holds (exec (.address 1) heldTwo) (fun t => t.sel == 2 && t.trace ==
    [.select 2] && t.pinTrace ==
    [.pin .ser true, .hold 1, .pin .stb true, .hold 1, .pin .stb false, .hold 1,
      .pin .ser false, .hold 1, .pin .stb true, .hold 1, .pin .stb false, .hold 1]) = true := by
  decide +kernel
-- T4, T5 with two chips
theorem test_broadcast : holds (exec .broadcast heldTwo)
    (fun t => t.sel == 3 && t.trace == [.select 3] && t.pins.ser) = true := by decide +kernel
-- R95
theorem test_rowFrame : holds (exec (.rowFrame 0x20 0x0210 0x01 [0x1234]) held) (fun t => t.trace ==
    [.byte 0x20, .byte 0x02, .byte 0x10, .byte 0x01, .byte 0x34, .byte 0x12]) = true := by
  decide +kernel
-- R228
theorem test_termFrame : holds (exec .termFrame held)
    (fun t => t.trace == [.byte 0, .byte 0, .byte 0, .byte 0]) = true := by decide +kernel
-- R229
theorem test_statusPkt : holds (exec .statusPkt held)
    (fun t => t.trace == [.midiOut 0x0F 0xFF 0x00 0x00]) = true := by decide +kernel
-- Program 1, TICK 10
theorem test_tick_ends : holds (exec (.tick 100000) (withChan idle 0 fun x =>
    { playing 1 x with
      waveType := .square, tick := { PerTrack.all 1 with volume := 9 } }))
    (fun t => t.trace == [.done 0 .envEnd, .select 1, .byte 0x00, .byte 0x7F, .select 1, .byte 0x98] &&
      (t.chan 0).amplitude == 20 / 51 && (t.chan 0).waveType == .none) = true := by decide +kernel
-- R143: the first TICK of a note without points writes every static value: WAVE, FREQ, VOL, ALPHA,
-- BETA, GAMMA of the reset registers (R172 to R179)
theorem test_tick_static : holds (exec (.tick 0) (withChan idle 2 (playing 3))) (fun t => t.trace ==
    [.select 4, .byte 0x00, .byte 0x7F, .select 4, .byte 0x40, .byte 0x00, .select 4, .byte 0x80,
      .select 4, .byte 0xC0, .byte 0xFF, .select 4, .byte 0xC1, .byte 0x00,
      .select 4, .byte 0xC2, .byte 0x00]) = true := by decide +kernel
-- Program 4, TICK 990 000
theorem test_tick_fades : holds (exec (.tick 990000) (withChan idle 0 fading))
    (fun t => t.trace == [.select 1, .byte 0x80] && (t.chan 0).amplitude == 1 / 100) = true := by
  decide +kernel

/-! ### Shared operations -/

-- A1, A2, A5 (wrap), A10
theorem test_advance :
    advance .toZero ramp 4 0 false = (5, 0, 50) ∧ advance .toZero ramp 9 0 false = (10, 1, 100) ∧
    advance .toZero (env [(0, 100), (3, 0)] 0xFF 0xFF 0xFF) 0 0 false = (1, 0, 67) ∧
    advance .toZero looping 5 2 false = (2, 1, 200) ∧ advance .toZero looping 5 2 true = (6, 3, 200) ∧
    advance .toZero (env [(0, -32768), (65535, 32767)] 0xFF 0xFF 0xFF) 32766 0 false =
      (32767, 0, -1) := by decide +kernel
-- 2.5, first table
theorem test_filter : gammaByte Config.standard 1000 (40 / 51) = 0x9C ∧
    alphaByte Config.standard 10000 = 0x0F ∧
    betaCoefficient Config.standard 10000 (3 / 4) = 0x79 := by decide +kernel
-- R246, R247: after HALT the block is as after reset
theorem test_watchdog : holds (step { queued with status := .halt })
    (fun t => t.status == .run && t.lock == .free && !t.changed && t.slotAt 0 .freq == none) =
      true := by decide +kernel
-- a table word is fetched and run by the very next step: FLUSH, then an address word
theorem test_fetch : holds (step (State.reset.withFetchWord 8 0x10)) (fun t => t.lock == .host) = true ∧
    holds (step (State.reset.withFetchWord 16 0x8000)) (fun t => t.sel == 2 ^ 15) = true := by
  decide +kernel

-- R152, R256 (1): a TICK offered before the end of the period begins at its end
theorem test_paced : holds (step { idle with
      nextTick := 20000, now := 15000, agenda := [.engine (opPacket 0x00 [.time 5])] })
    (fun t => t.now == 20000 && t.nextTick == 30000 && t.agenda == []) = true := by decide +kernel
-- R152, D45: the period runs from the top of the loop, though HOST had the lock, and read the counter,
-- when it ended; an iteration that ends after the next period is followed at once
theorem test_period_start : holds (step { idle with nextTick := 10000, now := 12000 })
    (fun t => t.now == 12000 && t.nextTick == 20000) = true := by decide +kernel
theorem test_period_overrun : holds (step { idle with nextTick := 10000, now := 95000 })
    (fun t => t.now == 95000 && t.nextTick == 95000) = true := by decide +kernel
-- R40 I4; R30 and R144 for the cursors TRIG leaves on an envelope of one point, U4 after a PLOAD
theorem test_cursorFits :
    cursorFits (env [(100, 7)] 0xFF 0xFF 0xFF) true 100 0 = true ∧
    cursorFits (env [(100, 7)] 0xFF 0xFF 0xFF) false 99 0 = false ∧
    cursorFits (env [(100, 7)] 0xFF 0xFF 0xFF) false 0 0 = true ∧
    cursorFits (env [(100, 7)] 0xFF 0xFF 0xFF) true 0 0 = false ∧
    cursorFits ramp false 9 1 = false ∧ cursorFits ramp true 10 1 = true ∧
    cursorFits ramp false 10 2 = false := by decide +kernel

/-! ### States and operands that meet the premises of the statements -/

/-- `Inv` from a check that can be evaluated. -/
theorem inv_of {s : State}
    (h : s.cfg.wf ∧ s.ch.length = s.cfg.nchip ∧ s.slot.length = s.cfg.nchip ∧
      (∀ x ∈ s.ch, x.instrument.isSome = true → x.fadeLength = 0) ∧
      s.changed = someDirty s.dirty ∧
      (∀ v ∈ s.slot, ∀ k ∈ SlotClass.all, (v.get k).isSome = true → s.dirty.get k = true) ∧
      (∀ x ∈ s.ch, Channel.inRange s.cfg x) ∧ s.sel < 2 ^ s.cfg.nchip ∧ s.lock ≠ .engine ∧
      (s.status = .run → s.pins.stb = false ∧ s.pins.clk = false)) : Inv s :=
  ⟨h.1, h.2.1, h.2.2.1, h.2.2.2.1, h.2.2.2.2.1, h.2.2.2.2.2.1, h.2.2.2.2.2.2.1,
    h.2.2.2.2.2.2.2.1, h.2.2.2.2.2.2.2.2.1, h.2.2.2.2.2.2.2.2.2⟩

/-- A TICK's premises about one Channel, as a check. -/
def playableCheck (s : State) (x : Channel) : Bool :=
  match x.instrument with
  | none => true
  | some i => Patch.defined (s.patchAt i) && Track.all.all fun k =>
      decide (0 < Envelope.count ((s.patchAt i).env.get k) →
        cursorFits ((s.patchAt i).env.get k) x.reloaded (x.tick.get k).toNat
          (x.point.get k).val = true ∧
        (advance s.cfg.roundQ ((s.patchAt i).env.get k) (x.tick.get k).toNat (x.point.get k).val
          x.released).1 ≤ 65535)

theorem playable_of {s : State} {x : Channel} (h : playableCheck s x = true) : Playable s x := by
  intro i hi
  simp only [playableCheck, hi, Bool.and_eq_true, List.all_eq_true, decide_eq_true_eq] at h
  exact ⟨h.1, fun k => h.2 k (Track.mem_all k)⟩

theorem cursorsFit_of {s : State} (h : ∀ x ∈ s.ch, playableCheck s x = true) : CursorsFit s :=
  fun x hx i hi _ k hk => ((playable_of (h x hx) i hi).2 k hk).1

def halted : State := { queued with status := .halt }
/-- Channel 0 plays the ramp, HOST in its section. -/
def live : State := withChan held 0 (playing 1)
/-- The same, the lock free. -/
def liveFree : State := withChan idle 0 (playing 1)
/-- One TICK before the end of the ramp. -/
def ending : State := withChan idle 0 fun x =>
  { playing 1 x with tick := { PerTrack.all 1 with volume := 9 } }
/-- A released note whose Patch has no points. -/
def releasedFlat : State := withChan idle 0 fun x => { playing 3 x with released := true }
/-- Channel 15 plays a Patch that is not defined. -/
def undefinedLive : State := withChan idle 15 (playing 4)
/-- Channel 0 stands at a point whose tick it has not reached. -/
def misfit : State := withChan idle 0 fun x =>
  { playing 1 x with point := { PerTrack.all 0 with volume := 1 } }
/-- Channel 0 plays Patch 5, whose volume envelope a PLOAD has replaced by one point at tick 100. -/
def replaced : State :=
  withChan { idle with patch := bank.set 5 (volPatch .noise (env [(100, 7)] 0xFF 0xFF 0xFF)) } 0
    fun x => { playing 5 x with reloaded := true }
/-- Channel 0 stands at a point its envelope does not have. -/
def outside : State := withChan idle 0 fun x =>
  { playing 1 x with point := { PerTrack.all 0 with volume := 2 } }
/-- Channel 0 has a tick cursor that cannot go on. -/
def overflowing : State := withChan idle 0 fun x =>
  { playing 1 x with tick := { PerTrack.all 1 with volume := 65535 } }
/-- Channel 0 holds at the last tick there is. -/
def holding : State := withChan idle 0 fun x =>
  { playing 5 x with tick := { PerTrack.all 1 with volume := 65535 } }
/-- Channel 7 plays the ramp in dual mode. -/
def liveDual : State := withChan { idle with dual := true } 7 (playing 1)
def fadingFree : State := withChan idle 0 fading
def fadingHeld : State := withChan held 0 fading
/-- A board whose OPEN sequences have events of every kind. -/
def busyBoard : State :=
  { State.boot { Config.standard with
      resetSeq := [.byte 1, .hold 3, .pin .ser true, .pin .stb true, .data 0x5A, .pin .clk true]
      bootEntrySeq := [.pin .clk true, .hold 1, .pin .clk false] } with
    lock := .host, batch := [opPacket 0x11 []] }

-- R220, R205: a rising edge of CLK in RESET_SEQ is a byte; R231 (f)
theorem test_sysReset_pins : holds (exec .sysReset busyBoard) (fun t => t.trace ==
    [.select 65535, .byte 1, .hold 3, .byte 0x5A, .halt .sysreset] && t.sel == 65535) = true := by
  decide +kernel

/-- A host section without packets comes next. -/
def nextHost : State := { idle with agenda := [.host []] }
/-- A layout whose VOL class has a data byte and whose beta flags are the other way round. -/
def otherLayout : Layout :=
  { Layout.standard with
    betaSignBit := 1, betaSatBit := 2, hasData := ⟨true, true, true, true⟩ }
/-- A chip clock so slow that the exponent passes 6. -/
def slowClock : Cfg := { Config.standard with clockHz := 1 }
/-- A8's envelope, a sustain at point 0. -/
def sustained : Envelope := env [(0, 5), (4, 9)] 0 0xFF 0xFF

theorem inv_held : Inv held := inv_of (by decide +kernel)
theorem inv_heldDual : Inv heldDual := inv_of (by decide +kernel)
theorem inv_idle : Inv idle := inv_of (by decide +kernel)
theorem inv_queued : Inv queued := inv_of (by decide +kernel)
theorem inv_live : Inv live := inv_of (by decide +kernel)
theorem inv_liveFree : Inv liveFree := inv_of (by decide +kernel)
theorem inv_ending : Inv ending := inv_of (by decide +kernel)
theorem inv_releasedFlat : Inv releasedFlat := inv_of (by decide +kernel)
theorem inv_undefinedLive : Inv undefinedLive := inv_of (by decide +kernel)
theorem inv_misfit : Inv misfit := inv_of (by decide +kernel)
theorem inv_replaced : Inv replaced := inv_of (by decide +kernel)
theorem inv_outside : Inv outside := inv_of (by decide +kernel)
theorem inv_fadingFree : Inv fadingFree := inv_of (by decide +kernel)
theorem inv_busyBoard : Inv busyBoard := inv_of (by decide +kernel)
theorem inv_overflowing : Inv overflowing := inv_of (by decide +kernel)
theorem inv_holding : Inv holding := inv_of (by decide +kernel)
theorem inv_liveDual : Inv liveDual := inv_of (by decide +kernel)
theorem levels_queued : LevelsAgree queued := ⟨0, by decide +kernel⟩
theorem levels_busyBoard : LevelsAgree busyBoard := ⟨0, by decide +kernel⟩

theorem witness_InvariantHoldsAtBoot : Config.standard.wf ∧ twoChips.wf := by decide +kernel
theorem witness_BootLeavesResetValues :
    0 < Config.standard.nchip ∧ 15 < Config.standard.nchip ∧ Config.standard.boardRevOk = true ∧
    { Config.standard with boardRevOk := false : Cfg }.boardRevOk = false := by decide
theorem witness_WatchdogRestartsFromHalt : halted.status = .halt ∧
    (State.boot { Config.standard with boardRevOk := false }).status = .halt := by decide +kernel
theorem witness_NothingRunsWithoutRunAndLock :
    halted.status = .halt ∧ (idle.lock ≠ .host ∧ ∀ now, Instr.flush ≠ .tick now) ∧
    held.lock ≠ .free := ⟨rfl, ⟨by decide, nofun⟩, by decide⟩
theorem witness_StepRunsDecodedInstruction_host :
    let s := { held with batch := [opPacket 0x0A [.index 0, .rat (3 / 2)]] }
    s.status = .run ∧ s.lock = .host ∧ s.batch = opPacket 0x0A [.index 0, .rat (3 / 2)] :: [] ∧
    decode s.cfg (opPacket 0x0A [.index 0, .rat (3 / 2)]) = .ok (.setAmp 0 (3 / 2)) :=
  ⟨rfl, rfl, rfl, rfl⟩
theorem witness_StepRunsDecodedInstruction_engine :
    let s := { idle with agenda := [.engine (opPacket 0x10 [])] }
    s.status = .run ∧ s.lock = .free ∧ s.agenda = .engine (opPacket 0x10 []) :: [] ∧
    decode s.cfg (opPacket 0x10 []) = .ok .flush ∧ ∀ now, Instr.flush ≠ .tick now :=
  ⟨rfl, rfl, rfl, rfl, nofun⟩
/-- For the clauses about a TICK of the agenda, here and in EngineTicksOncePerPeriod: before, at and
after the end of the period. -/
theorem witness_StepRunsDecodedInstruction_tick :
    let s := { idle with nextTick := 10000, agenda := [.engine (opPacket 0x00 [.time 9999])] }
    s.status = .run ∧ s.lock = .free ∧ s.agenda = .engine (opPacket 0x00 [.time 9999]) :: [] ∧
    decode s.cfg (opPacket 0x00 [.time 9999]) = .ok (.tick 9999) ∧
    (9999 : Time) ≤ s.nextTick ∧ (10000 : Time) ≤ s.nextTick ∧ ¬ (10001 : Time) ≤ s.nextTick :=
  ⟨rfl, rfl, rfl, rfl, by decide +kernel, by decide +kernel, by decide +kernel⟩
theorem witness_ReservedOperationNumbersIgnored_operands :
    let s := { held with batch := [opPacket 0x0A [.index 2]] }
    s.status = .run ∧ s.lock = .host ∧ s.batch = opPacket 0x0A [.index 2] :: [] ∧
    (opPacket 0x0A [.index 2]).lane = .op ∧
    decode s.cfg (opPacket 0x0A [.index 2]) = .error (.badOperands 0x0A) := ⟨rfl, rfl, rfl, rfl, rfl⟩
theorem witness_ReservedOperationNumbersIgnored_engine :
    let s := { idle with agenda := [.engine (opPacket 0x13 [])] }
    0x12 < (0x13 : Byte).toNat ∧ 0x12 < (0xFF : Byte).toNat ∧ (0x12 : Byte).toNat ≤ 0x12 ∧
    s.status = .run ∧ s.lock = .free ∧ s.agenda = .engine (opPacket 0x13 []) :: [] ∧
    (opPacket 0x13 []).lane = .op ∧
    decode s.cfg (opPacket 0x13 []) = .error (.reservedOperation 0x13) :=
  ⟨by decide, by decide, by decide, rfl, rfl, rfl, rfl, rfl⟩
theorem witness_ReservedOperationNumbersIgnored_domain :
    let s := { held with batch := [opPacket 0x08 [.index 0, .rat (256 / 255)]] }
    s.status = .run ∧ s.lock = .host ∧
    s.batch = opPacket 0x08 [.index 0, .rat (256 / 255)] :: [] ∧
    decode s.cfg (opPacket 0x08 [.index 0, .rat (256 / 255)]) = .ok (.setDuty 0 (256 / 255)) ∧
    isSetting (.setDuty 0 (256 / 255)) = true ∧
    (Instr.setDuty 0 (256 / 255)).wellFormed s.cfg = false ∧
    (∃ c, channelOperand (.setDuty 16 0) = some c ∧ s.chans ≤ c) :=
  ⟨rfl, rfl, rfl, rfl, rfl, by decide +kernel, 16, rfl, by decide⟩
theorem witness_CriticalSectionsTakeAndGiveTheLock :
    (nextHost.status = .run ∧ nextHost.lock = .free ∧ nextHost.agenda = .host [] :: []) ∧
    (held.status = .run ∧ held.lock = .host ∧ held.batch = []) := ⟨⟨rfl, rfl, rfl⟩, rfl, rfl, rfl⟩
theorem witness_EngineTicksOncePerPeriod :
    (idle.status = .run ∧ idle.lock = .free ∧ idle.agenda = []) ∧
    ((0 : Time).toNat + 10000 < 2 ^ 64 ∧ ∃ t, exec (.tick 0) idle = .next t) ∧
    ((18446744073709541615 : Time).toNat + 10000 < 2 ^ 64 ∧
      ∃ t, exec (.tick 18446744073709541615) idle = .next t) :=
  ⟨⟨rfl, rfl, rfl⟩,
    ⟨by decide, next_of_holds (f := fun _ => true) (by decide +kernel)⟩,
    ⟨by decide, next_of_holds (f := fun _ => true) (by decide +kernel)⟩⟩
theorem witness_DecodeEncodeRoundTrip :
    Config.standard.wf ∧ Config.standard.layout.readable ∧
    otherLayout.readable ∧
    (Instr.address 15).wellFormed Config.standard = true ∧
    (Instr.wWave 8 0).wellFormed Config.standard = true ∧
    (Instr.rowFrame 1 0xFFF0 1 (List.replicate 16 0)).wellFormed Config.standard = true := by
  decide +kernel
theorem witness_StepKeepsInvariant :
    (Inv queued ∧ ∃ t, step queued = .next t) ∧ (Inv liveFree ∧ ∃ t, step liveFree = .next t) ∧
    (Inv halted ∧ ∃ t, step halted = .next t) :=
  ⟨⟨inv_queued, next_of_holds (f := fun _ => true) (by decide +kernel)⟩,
    ⟨inv_liveFree, next_of_holds (f := fun _ => true) (by decide +kernel)⟩,
    ⟨inv_of (by decide +kernel), next_of_holds (f := fun _ => true) (by decide +kernel)⟩⟩
theorem witness_ExecKeepsCursorsFit :
    (Inv liveFree ∧ CursorsFit liveFree ∧ (∀ n p, Instr.tick 0 ≠ .pload n p) ∧
      ∃ t, exec (.tick 0) liveFree = .next t) ∧
    (Inv held ∧ CursorsFit held ∧ (∀ n p, Instr.trig 0 2 ≠ .pload n p) ∧
      ∃ t, exec (.trig 0 2) held = .next t) :=
  ⟨⟨inv_liveFree, cursorsFit_of (by decide +kernel), nofun,
      next_of_holds (f := fun _ => true) (by decide +kernel)⟩,
    ⟨inv_held, cursorsFit_of (by decide +kernel), nofun,
      next_of_holds (f := fun _ => true) (by decide +kernel)⟩⟩
theorem witness_StepExtendsHistory : ∃ t, step liveFree = .next t :=
  next_of_holds (f := fun _ => true) (by decide +kernel)
theorem witness_OnlyPloadWritesTheBank :
    (∀ n p, Instr.flush ≠ .pload n p) ∧ ∃ t, exec .flush queued = .next t :=
  ⟨nofun, next_of_holds (f := fun _ => true) (by decide +kernel)⟩
theorem witness_OnlySetDualWritesTheMode :
    (∀ b, Instr.flush ≠ .setDual b) ∧ ∃ t, exec .flush queued = .next t :=
  ⟨nofun, next_of_holds (f := fun _ => true) (by decide +kernel)⟩
theorem witness_FrozenChannelsAreUntouched :
    (∃ t, exec (.setFreq 7 440) heldDual = .next t) ∧ heldDual.chans ≤ 8 ∧ heldDual.chans ≤ 15 ∧
    (∀ n p, Instr.setFreq 7 440 ≠ .pload n p) :=
  ⟨next_of_holds (f := fun _ => true) (by decide +kernel), by decide, by decide, nofun⟩
theorem witness_OutOfDomainOperationsIgnored :
    (isSetting (.setDuty 0 (256 / 255)) = true ∧
      (Instr.setDuty 0 (256 / 255)).wellFormed held.cfg = false) ∧
    (∃ c, channelOperand (.setAmp 8 1) = some c ∧ heldDual.chans ≤ c) :=
  ⟨by decide +kernel, 8, rfl, by decide⟩
theorem witness_PloadStoresThePatch : HostHolds held ∧ 127 < 128 := ⟨⟨rfl, rfl⟩, by decide⟩

theorem held_slots (p : Nat) (k : SlotClass) : held.slotAt p k = none := by
  have hs : held.slot = List.replicate 16 (PerClass.all none) := rfl
  unfold State.slotAt
  rw [hs, List.getD_eq_getElem?_getD, List.getElem?_replicate]
  split <;> simp

theorem witness_SetDualSwitchesTheIdleBlock_idle :
    HostHolds held ∧ ((0 : Int) = 0 ∨ (0 : Int) = 1) ∧ ((1 : Int) = 0 ∨ (1 : Int) = 1) ∧
    (∀ x ∈ held.ch, x.instrument = none ∧ x.fadeLength = 0) ∧ (∀ p k, held.slotAt p k = none) :=
  ⟨⟨rfl, rfl⟩, by decide, by decide, by decide +kernel, held_slots⟩
theorem witness_SetDualSwitchesTheIdleBlock_same :
    (HostHolds held ∧ held.dual = decide ((0 : Int) = 1)) ∧
    (HostHolds heldDual ∧ (∀ x ∈ heldDual.ch, x.instrument = none ∧ x.fadeLength = 0) ∧
      (∀ p k, heldDual.slotAt p k = none) ∧ heldDual.dual = decide ((1 : Int) = 1)) :=
  ⟨⟨⟨rfl, rfl⟩, rfl⟩, ⟨rfl, rfl⟩, by decide +kernel, held_slots, rfl⟩
/-- Busy in each of the three ways; a change of mode and the mode already set. -/
theorem witness_SetDualSwitchesTheIdleBlock_busy :
    (HostHolds live ∧ live.dual ≠ decide ((1 : Int) = 1) ∧ live.dual = decide ((0 : Int) = 1) ∧
      ∃ x ∈ live.ch, x.instrument ≠ none) ∧
    (HostHolds fadingHeld ∧ ∃ x ∈ fadingHeld.ch, x.fadeLength ≠ 0) ∧
    (HostHolds queued ∧ ∃ p k, queued.slotAt p k ≠ none) :=
  ⟨⟨⟨rfl, rfl⟩, by decide, rfl, by decide +kernel⟩, ⟨⟨rfl, rfl⟩, by decide +kernel⟩,
    ⟨rfl, rfl⟩, 0, .vol, by decide +kernel⟩

theorem witness_TrigInstallsThePatch :
    (Inv held ∧ HostHolds held ∧ 0 < held.chans ∧ 15 < held.chans ∧
      Patch.defined (held.patchAt 1) = true ∧ Patch.defined (held.patchAt 127) = true) ∧
    (Inv heldDual ∧ HostHolds heldDual ∧ 7 < heldDual.chans ∧
      Patch.defined (heldDual.patchAt 1) = true) ∧
    Patch.defined (held.patchAt 4) = false :=
  ⟨⟨inv_held, ⟨rfl, rfl⟩, by decide, by decide, by decide +kernel, by decide +kernel⟩,
    ⟨inv_heldDual, ⟨rfl, rfl⟩, by decide, by decide +kernel⟩, by decide +kernel⟩
theorem witness_RelReleasesOrSilences :
    (Inv live ∧ HostHolds live ∧ 0 < live.chans ∧ (live.chan 0).instrument ≠ none) ∧
    (Inv held ∧ HostHolds held ∧ 15 < held.chans ∧ (held.chan 15).instrument = none) ∧
    (Inv heldDual ∧ HostHolds heldDual ∧ 7 < heldDual.chans ∧ (heldDual.chan 7).instrument = none) :=
  ⟨⟨inv_live, ⟨rfl, rfl⟩, by decide, by decide +kernel⟩,
    ⟨inv_held, ⟨rfl, rfl⟩, by decide, by decide +kernel⟩,
    inv_heldDual, ⟨rfl, rfl⟩, by decide, by decide +kernel⟩
theorem witness_ClriClearsTheInstrument :
    (Inv live ∧ HostHolds live ∧ 0 < live.chans) ∧
    (Inv held ∧ (held.chan 15).instrument = none) ∧ held.chans ≤ 16 ∧
    (Inv idle ∧ (idle.chan 0).instrument = none ∧ (idle.chan 0).fadeLength = 0 ∧
      ∃ t, exec (.tick 0) idle = .next t) :=
  ⟨⟨inv_live, ⟨rfl, rfl⟩, by decide⟩, ⟨inv_held, by decide +kernel⟩, by decide,
    inv_idle, by decide +kernel, by decide +kernel,
    next_of_holds (f := fun _ => true) (by decide +kernel)⟩
theorem witness_FadeArmsAFade :
    (Inv live ∧ HostHolds live ∧ 15 < live.chans ∧ inUnit 0 ∧ inUnit 1 ∧
      (1 : Int) ≤ 1 ∧ (4294967295 : Int) ≤ 4294967295 ∧
      ((-1 : Int) = -1 ∨ (-1 : Int) = 1) ∧ ((1 : Int) = -1 ∨ (1 : Int) = 1)) ∧
    (live.chans ≤ 16 ∧ (-1 / 10 : ℚ) < 0 ∧ (1 : ℚ) < 2 ∧ (0 : Int) ≤ 0 ∧
      (4294967295 : Int) < 4294967296 ∧ (0 : Int) ≠ -1 ∧ (0 : Int) ≠ 1) :=
  ⟨⟨inv_live, ⟨rfl, rfl⟩, by decide, by decide +kernel, by decide +kernel, by decide, by decide,
      by decide, by decide⟩,
    by decide, by norm_num, by norm_num, by decide, by decide, by decide, by decide⟩

/-- Premises of the statements about one parameter: both modes, the first and the last Channel in
use, and the first Channel that is not. -/
theorem witness_settings :
    (Inv held ∧ HostHolds held ∧ 0 < held.chans ∧ 15 < held.chans ∧ held.chans ≤ 16 ∧
      held.dual = false) ∧
    (Inv heldDual ∧ HostHolds heldDual ∧ 0 < heldDual.chans ∧ 7 < heldDual.chans ∧
      heldDual.chans ≤ 8 ∧ heldDual.dual = true) :=
  ⟨⟨inv_held, ⟨rfl, rfl⟩, by decide, by decide, by decide, rfl⟩,
    inv_heldDual, ⟨rfl, rfl⟩, by decide, by decide, by decide, rfl⟩
theorem witness_SetWaveQueuesTheWave :
    Inv held ∧ HostHolds held ∧ 15 < held.chans ∧ held.chans ≤ 16 :=
  ⟨inv_held, ⟨rfl, rfl⟩, by decide, by decide⟩
/-- For SETDUTY, SETAMP and SETRES: both ends of 0..1, and a value beyond each. -/
theorem witness_SetDutyQueuesTheWave : Inv held ∧ HostHolds held ∧ 15 < held.chans ∧
    inUnit 0 ∧ inUnit 1 ∧ (-1 / 255 : ℚ) < 0 ∧ (1 : ℚ) < 256 / 255 :=
  ⟨inv_held, ⟨rfl, rfl⟩, by decide, by decide +kernel, by decide +kernel, by norm_num, by norm_num⟩
theorem witness_SetFreqQueuesTheFrequency : Inv held ∧ HostHolds held ∧ 15 < held.chans ∧
    (0 : Int) ≤ 0 ∧ (65535 : Int) ≤ 65535 ∧ (-1 : Int) < 0 ∧ (65535 : Int) < 65536 :=
  ⟨inv_held, ⟨rfl, rfl⟩, by decide, by decide, by decide, by decide, by decide⟩
theorem witness_SetAmpQueuesTheVolume : Inv heldDual ∧ HostHolds heldDual ∧ 7 < heldDual.chans ∧
    inUnit 0 ∧ inUnit 1 ∧ heldDual.chans ≤ 8 :=
  ⟨inv_heldDual, ⟨rfl, rfl⟩, by decide, by decide +kernel, by decide +kernel, by decide⟩
theorem witness_SetPanQueuesOnlyInDualMode :
    (Inv held ∧ HostHolds held ∧ 15 < held.chans ∧ inSigned (-1) ∧ held.dual = false) ∧
    (Inv heldDual ∧ HostHolds heldDual ∧ 7 < heldDual.chans ∧ inSigned 1 ∧ heldDual.dual = true) ∧
    (-3 / 2 : ℚ) < -1 ∧ (1 : ℚ) < 3 / 2 :=
  ⟨⟨inv_held, ⟨rfl, rfl⟩, by decide, by decide +kernel, rfl⟩,
    ⟨inv_heldDual, ⟨rfl, rfl⟩, by decide, by decide +kernel, rfl⟩, by norm_num, by norm_num⟩
theorem witness_SetCutQueuesTheFilter : Inv held ∧ HostHolds held ∧ 15 < held.chans ∧
    (0 : Int) ≤ 0 ∧ (20000 : Int) ≤ held.cfg.cutoffMax ∧ (20000 : Int) = held.cfg.cutoffMax ∧
    (held.cfg.cutoffMax : Int) < 20001 :=
  ⟨inv_held, ⟨rfl, rfl⟩, by decide, by decide, by decide, by decide, by decide⟩
theorem witness_SetResQueuesTheFilter : Inv heldDual ∧ HostHolds heldDual ∧ 7 < heldDual.chans ∧
    inUnit 0 ∧ inUnit 1 :=
  ⟨inv_heldDual, ⟨rfl, rfl⟩, by decide, by decide +kernel, by decide +kernel⟩
theorem witness_SetLinkStoresTheLink : Inv held ∧ HostHolds held ∧ 15 < held.chans ∧
    (∀ x, (none : Option Nat) = some x → x < held.cfg.nchip) ∧
    (∀ x, some 15 = some x → x < held.cfg.nchip) ∧
    ∃ x, some 16 = some x ∧ held.cfg.nchip ≤ x :=
  ⟨inv_held, ⟨rfl, rfl⟩, by decide, nofun, by rintro _ ⟨⟩; decide, 16, rfl, by decide⟩
theorem witness_SetNoteStoresTheNote : Inv held ∧ HostHolds held ∧ 15 < held.chans ∧
    (0 : Int) ≤ 0 ∧ (127 : Int) ≤ 127 ∧ (-1 : Int) < 0 ∧ (127 : Int) < 128 :=
  ⟨inv_held, ⟨rfl, rfl⟩, by decide, by decide, by decide, by decide, by decide⟩
theorem witness_FlushSendsEveryPendingSlot : Inv queued ∧ HostHolds queued ∧ Inv held ∧
    HostHolds held := ⟨inv_queued, ⟨rfl, rfl⟩, inv_held, ⟨rfl, rfl⟩⟩
theorem witness_EnqueueCoalesces : 0 < held.slot.length ∧ 15 < held.slot.length := by decide +kernel
/-- For SendByteClocksOneByte (the chain unchanged and changed), StrobePulseShiftsTheChain and
FramesAndStatusGoOut. -/
theorem witness_HostHolds : (HostHolds held ∧ held.sel = held.selShown) ∧
    HostHolds { heldTwo with sel := 1 } ∧ { heldTwo with sel := 1 : State }.sel ≠ heldTwo.selShown :=
  ⟨⟨⟨rfl, rfl⟩, rfl⟩, ⟨rfl, rfl⟩, by decide⟩
theorem witness_WireCommandsGoToTheSelectedChips : HostHolds held ∧
    held.cfg.layout.hasWave 8 = true ∧ held.cfg.layout.hasWave 9 = false :=
  ⟨⟨rfl, rfl⟩, by decide, by decide⟩
theorem witness_SysResetBroadcastsAndHalts : (Inv held ∧ HostHolds held) ∧ Inv busyBoard ∧
    HostHolds busyBoard := ⟨⟨inv_held, rfl, rfl⟩, inv_busyBoard, rfl, rfl⟩
theorem witness_AddressSelectsOneChip : HostHolds held ∧ 0 < held.cfg.nchip ∧ 15 < held.cfg.nchip :=
  ⟨⟨rfl, rfl⟩, by decide, by decide⟩
theorem witness_BroadcastSelectsEveryChip : held.cfg.wf ∧ HostHolds held ∧ heldTwo.cfg.wf ∧
    HostHolds heldTwo := ⟨by decide +kernel, ⟨rfl, rfl⟩, by decide +kernel, ⟨rfl, rfl⟩⟩
theorem witness_ReprogSendsTheRowsAndHalts :
    (Inv busyBoard ∧ HostHolds busyBoard ∧ (List.replicate 16 ((0, 65536) : Extent)).length ≤ 16 ∧
      ∀ e ∈ List.replicate 16 ((0, 65536) : Extent),
        e.1 < e.2 ∧ e.2 ≤ 65536 ∧ e.1 % 16 = 0 ∧ e.2 % 16 = 0) ∧
    16 < (List.replicate 17 ((0, 65536) : Extent)).length ∧
    (∃ e ∈ [((0x200, 0x200) : Extent)], ¬ Extent.valid e) :=
  ⟨⟨inv_busyBoard, ⟨rfl, rfl⟩, by decide, by decide⟩, by decide, (0x200, 0x200), by simp, by decide⟩
theorem witness_ReprogNeverSendsAProtectedRow :
    ∀ e ∈ [((0x1F0, 0x210) : Extent), (65520, 65536)], Extent.valid e := by decide
theorem witness_BothLevelsDeliverTheSame :
    (Inv queued ∧ LevelsAgree queued ∧ (∃ t, step queued = .next t) ∧ queued.status = .run ∧
      ∃ t, exec .flush queued = .next t) ∧
    (Inv busyBoard ∧ LevelsAgree busyBoard ∧ (∃ t, step busyBoard = .next t) ∧
      busyBoard.status = .run ∧ ∃ t, exec .sysReset busyBoard = .next t) :=
  ⟨⟨inv_queued, levels_queued, next_of_holds (f := fun _ => true) (by decide +kernel), rfl,
      next_of_holds (f := fun _ => true) (by decide +kernel)⟩,
    inv_busyBoard, levels_busyBoard, next_of_holds (f := fun _ => true) (by decide +kernel), rfl,
    next_of_holds (f := fun _ => true) (by decide +kernel)⟩
theorem witness_CommandHoldTime : 0 < held.cfg.nchip ∧ 15 < held.cfg.nchip := by decide
theorem witness_AlphaIsTheExactFloor :
    (Config.standard.wf ∧ 19999 < Config.standard.cutoffMax ∧
      2 * piLo * turns Config.standard 19999 < 6 ∧
      ((1 - expNegHi (turns Config.standard 19999)) * 255).floor =
        ((1 - expNegLo (turns Config.standard 19999)) * 255).floor) ∧
    (slowClock.wf ∧ 1 < slowClock.cutoffMax ∧ 6 ≤ 2 * piLo * turns slowClock 1) := by decide +kernel
theorem witness_BetaIsTheExactByte_positive :
    Config.standard.wf ∧ inUnit (1 : ℚ) ∧
    (126 * 1 * (cosBounds (foldedAngle (turns Config.standard 0))).1).floor =
      (126 * 1 * (cosBounds (foldedAngle (turns Config.standard 0))).2).floor ∧
    ((126 : Nat) : Int) = ⌊|2 * ((1 : ℚ) : ℝ) *
      Real.cos (2 * Real.pi * ((0 : Nat) : ℝ) / (Config.standard.clockHz : ℝ))| * 63⌋ ∧
    (false = true ↔ 2 * ((1 : ℚ) : ℝ) *
      Real.cos (2 * Real.pi * ((0 : Nat) : ℝ) / (Config.standard.clockHz : ℝ)) < 0) :=
  ⟨by decide +kernel, by decide +kernel, by decide +kernel, by norm_num, by norm_num⟩
theorem witness_BetaIsTheExactByte_negative :
    Config.standard.wf ∧ inUnit (1 : ℚ) ∧
    (126 * 1 * (cosBounds (foldedAngle (turns Config.standard 500000))).1).floor =
      (126 * 1 * (cosBounds (foldedAngle (turns Config.standard 500000))).2).floor ∧
    ((126 : Nat) : Int) = ⌊|2 * ((1 : ℚ) : ℝ) *
      Real.cos (2 * Real.pi * ((500000 : Nat) : ℝ) / (Config.standard.clockHz : ℝ))| * 63⌋ ∧
    (true = true ↔ 2 * ((1 : ℚ) : ℝ) *
      Real.cos (2 * Real.pi * ((500000 : Nat) : ℝ) / (Config.standard.clockHz : ℝ)) < 0) := by
  have h : 2 * Real.pi * ((500000 : Nat) : ℝ) / (Config.standard.clockHz : ℝ) = Real.pi := by
    have : Config.standard.clockHz = 1000000 := rfl
    rw [this]; push_cast; ring
  refine ⟨by decide +kernel, by decide +kernel, by decide +kernel, ?_, ?_⟩ <;>
    rw [h, Real.cos_pi] <;> norm_num
theorem witness_GammaAndBypass :
    0 ≠ Config.standard.cutoffMax ∧ 19999 ≠ Config.standard.cutoffMax ∧ inUnit 0 ∧ inUnit 1 := by
  decide +kernel
theorem witness_AdvanceBranches :
    (1 = Envelope.count ramp - 1) ∧
    (0 = sustained.sustainIndex.toNat ∧
      ¬ ((0 = sustained.sustainIndex.toNat ∧ true = false) ∨ 0 = Envelope.count sustained - 1) ∧
      Envelope.x sustained 1 ≤ 3 + 1) ∧
    (¬ ((2 = looping.sustainIndex.toNat ∧ false = false) ∨ 2 = Envelope.count looping - 1) ∧
      Envelope.x looping 3 ≤ 5 + 1 ∧
      (3 = looping.loopEnd.toNat ∧ looping.loopStart.toNat < 12 ∧ false = false)) ∧
    (¬ ((1 = looping.sustainIndex.toNat ∧ false = false) ∨ 1 = Envelope.count looping - 1) ∧
      Envelope.x looping 2 ≤ 3 + 1 ∧
      ¬ (2 = looping.loopEnd.toNat ∧ looping.loopStart.toNat < 12 ∧ false = false)) := by
  decide +kernel
theorem witness_InterpolationStaysBetweenThePoints :
    ¬ ((0 = ramp.sustainIndex.toNat ∧ false = false) ∨ 0 = Envelope.count ramp - 1) ∧
    Envelope.x ramp 0 ≤ 0 ∧ 0 + 1 < Envelope.x ramp 1 ∧ Envelope.x ramp 0 ≤ 8 ∧
    8 + 1 < Envelope.x ramp 1 := by decide +kernel
theorem witness_AdvanceIsPiecewiseLinear :
    Envelope.defined ramp = true ∧ 2 ≤ Envelope.count ramp ∧
    strictBetween ramp 0 (Envelope.count ramp - 1) ∧ 12 ≤ ramp.sustainIndex.toNat ∧
    12 ≤ ramp.loopStart.toNat ∧
    (0 + 1 < Envelope.count ramp ∧ Envelope.x ramp 0 ≤ 0 ∧ 9 < Envelope.x ramp (0 + 1)) ∧
    Envelope.x ramp (Envelope.count ramp - 1) ≤ 10 := by
  refine ⟨by decide +kernel, by decide +kernel, ?_, by decide +kernel, by decide +kernel,
    by decide +kernel, by decide +kernel⟩
  intro j _ h2
  have : j < 1 := h2
  have : j = 0 := by omega
  subst this; decide +kernel
theorem witness_LoopCyclesWhileHeld :
    (Envelope.defined looping = true ∧ looping.loopStart.toNat < looping.loopEnd.toNat ∧
      looping.loopEnd.toNat < Envelope.count looping ∧
      strictBetween looping looping.loopStart.toNat looping.loopEnd.toNat ∧
      looping.loopEnd.toNat ≤ looping.sustainIndex.toNat) ∧
    (0 : Byte).toNat < looping.loopStart.toNat := by
  refine ⟨⟨by decide +kernel, by decide +kernel, by decide +kernel, ?_, by decide +kernel⟩,
    by decide +kernel⟩
  intro j h1 h2
  have h1 : 1 ≤ j := h1
  have h2 : j < 3 := h2
  have : j = 1 ∨ j = 2 := by omega
  rcases this with rfl | rfl <;> decide +kernel

theorem tick_next (s : State) (h : holds (exec (.tick 990000) s) (fun _ => true) = true) :
    ∃ t, exec (.tick 990000) s = .next t := next_of_holds h

/-- A cursor at the start, and one that holds at tick 65535. -/
theorem witness_TickCompletes :
    (Inv liveFree ∧ liveFree.status = .run ∧ liveFree.lock = .free ∧
      ∀ c < liveFree.chans, Playable liveFree (liveFree.chan c)) ∧
    (Inv holding ∧ holding.status = .run ∧ holding.lock = .free ∧
      ∀ c < holding.chans, Playable holding (holding.chan c)) :=
  ⟨⟨inv_liveFree, rfl, rfl, fun c hc => playable_of (by
      have h : ∀ c < 16, playableCheck liveFree (liveFree.chan c) = true := by decide +kernel
      exact h c hc)⟩,
    inv_holding, rfl, rfl, fun c hc => playable_of (by
      have h : ∀ c < 16, playableCheck holding (holding.chan c) = true := by decide +kernel
      exact h c hc)⟩
theorem witness_TickWithNothingToPlay : idle.status = .run ∧ idle.lock = .free ∧
    idle.changed = false ∧
    ∀ c < idle.chans, (idle.chan c).instrument = none ∧ (idle.chan c).fadeLength = 0 :=
  ⟨rfl, rfl, rfl, by decide +kernel⟩
/-- For the three statements about a live Channel in TICK: a track with points and one without; a note
that goes on, one whose envelope ends, one without points that is released. -/
theorem witness_TickAdvancesEveryTrack :
    (Inv liveFree ∧ liveFree.status = .run ∧ liveFree.lock = .free ∧
      (∃ t, exec (.tick 990000) liveFree = .next t) ∧ 0 < liveFree.chans ∧
      (liveFree.chan 0).instrument = some 1) ∧
    0 < Envelope.count ((liveFree.patchAt 1).env.get .volume) ∧
    Envelope.count ((liveFree.patchAt 1).env.get .pan) = 0 :=
  ⟨⟨inv_liveFree, rfl, rfl, tick_next _ (by decide +kernel), by decide, by decide +kernel⟩,
    by decide +kernel, by decide +kernel⟩
theorem witness_TickStoresEnvelopeValues :
    Inv liveFree ∧ liveFree.status = .run ∧ liveFree.lock = .free ∧
    (∃ t, exec (.tick 990000) liveFree = .next t) ∧ 0 < liveFree.chans ∧
    (liveFree.chan 0).instrument = some 1 ∧
    ∃ v : Track → Int, ∀ k, v k = (advance liveFree.cfg.roundQ ((liveFree.patchAt 1).env.get k)
      ((liveFree.chan 0).tick.get k).toNat ((liveFree.chan 0).point.get k).val
      (liveFree.chan 0).released).2.2 :=
  ⟨inv_liveFree, rfl, rfl, tick_next _ (by decide +kernel), by decide, by decide +kernel,
    _, fun _ => rfl⟩
theorem witness_TickEndsFinishedNotes :
    (Inv ending ∧ ending.status = .run ∧ ending.lock = .free ∧
      (∃ t, exec (.tick 990000) ending = .next t) ∧ 0 < ending.chans ∧
      (ending.chan 0).instrument = some 1) ∧
    (Inv releasedFlat ∧ releasedFlat.status = .run ∧ releasedFlat.lock = .free ∧
      (∃ t, exec (.tick 990000) releasedFlat = .next t) ∧ 0 < releasedFlat.chans ∧
      (releasedFlat.chan 0).instrument = some 3) :=
  ⟨⟨inv_ending, rfl, rfl, tick_next _ (by decide +kernel), by decide, by decide +kernel⟩,
    inv_releasedFlat, rfl, rfl, tick_next _ (by decide +kernel), by decide, by decide +kernel⟩
theorem witness_TickFadesChannels :
    (Inv fadingFree ∧ fadingFree.status = .run ∧ fadingFree.lock = .free ∧
      (∃ t, exec (.tick 990000) fadingFree = .next t) ∧ 0 < fadingFree.chans ∧
      (fadingFree.chan 0).instrument = none ∧ (fadingFree.chan 0).fadeLength ≠ 0) ∧
    (999999 : Time).toNat - (fadingFree.chan 0).fadeStart.toNat <
      (fadingFree.chan 0).fadeLength.toNat ∧
    (fadingFree.chan 0).fadeLength.toNat ≤
      (1000000 : Time).toNat - (fadingFree.chan 0).fadeStart.toNat ∧
    ∃ t, exec (.tick 1000000) fadingFree = .next t :=
  ⟨⟨inv_fadingFree, rfl, rfl, tick_next _ (by decide +kernel), by decide, by decide +kernel,
      by decide +kernel⟩, by decide +kernel, by decide +kernel,
    next_of_holds (f := fun _ => true) (by decide +kernel)⟩
/-- A witness of one premise about a Channel's track. -/
theorem refuses_of {s : State} (c : Nat) (i : Fin 128) (h : Inv s)
    (e : s.status = .run ∧ s.lock = .free ∧ c < s.chans ∧ (s.chan c).instrument = some i) :
    Inv s ∧ s.status = .run ∧ s.lock = .free ∧ c < s.chans ∧ (s.chan c).instrument = some i :=
  ⟨h, e⟩
theorem witness_TickRefusesWhatTheSpecLeavesOpen_patch :
    (Inv undefinedLive ∧ undefinedLive.status = .run ∧ undefinedLive.lock = .free ∧
      15 < undefinedLive.chans ∧ (undefinedLive.chan 15).instrument = some 4) ∧
    Patch.defined (undefinedLive.patchAt 4) = false :=
  ⟨refuses_of 15 4 inv_undefinedLive (by decide +kernel), by decide +kernel⟩
/-- A point cursor beyond the envelope; a tick cursor before its point's tick, on two points and on one
point that a PLOAD put there; a tick cursor at its end. -/
theorem witness_TickRefusesWhatTheSpecLeavesOpen_cursors :
    ((Inv outside ∧ outside.status = .run ∧ outside.lock = .free ∧ 0 < outside.chans ∧
        (outside.chan 0).instrument = some 1) ∧
      0 < Envelope.count ((outside.patchAt 1).env.get .volume) ∧
      Envelope.count ((outside.patchAt 1).env.get .volume) ≤
        ((outside.chan 0).point.get .volume).val) ∧
    ((Inv misfit ∧ misfit.status = .run ∧ misfit.lock = .free ∧ 0 < misfit.chans ∧
        (misfit.chan 0).instrument = some 1) ∧
      2 ≤ Envelope.count ((misfit.patchAt 1).env.get .volume) ∧
      ((misfit.chan 0).tick.get .volume).toNat <
        Envelope.x ((misfit.patchAt 1).env.get .volume) ((misfit.chan 0).point.get .volume).val) ∧
    ((Inv replaced ∧ replaced.status = .run ∧ replaced.lock = .free ∧ 0 < replaced.chans ∧
        (replaced.chan 0).instrument = some 5) ∧
      0 < Envelope.count ((replaced.patchAt 5).env.get .volume) ∧
      ((replaced.chan 0).tick.get .volume).toNat <
        Envelope.x ((replaced.patchAt 5).env.get .volume) ((replaced.chan 0).point.get .volume).val ∧
      (replaced.chan 0).reloaded = true) ∧
    ((Inv overflowing ∧ overflowing.status = .run ∧ overflowing.lock = .free ∧
        0 < overflowing.chans ∧ (overflowing.chan 0).instrument = some 1) ∧
      0 < Envelope.count ((overflowing.patchAt 1).env.get .volume) ∧
      65535 < (advance overflowing.cfg.roundQ ((overflowing.patchAt 1).env.get .volume)
        ((overflowing.chan 0).tick.get .volume).toNat ((overflowing.chan 0).point.get .volume).val
        (overflowing.chan 0).released).1) :=
  ⟨⟨refuses_of 0 1 inv_outside (by decide +kernel), by decide +kernel⟩,
    ⟨refuses_of 0 1 inv_misfit (by decide +kernel), by decide +kernel⟩,
    ⟨refuses_of 0 5 inv_replaced (by decide +kernel), by decide +kernel⟩,
    refuses_of 0 1 inv_overflowing (by decide +kernel), by decide +kernel⟩
/-- A live Channel in each mode, a fading one, and one whose note ends; the classes they write. -/
theorem witness_TickSendsEveryEvaluatedTrack :
    (Inv liveFree ∧ liveFree.status = .run ∧ liveFree.lock = .free ∧ 0 < liveFree.chans ∧
      ∃ t, exec (.tick 990000) liveFree = .next t ∧ TickWrites liveFree t 0 .freq ∧
        TickWrites liveFree t 0 .alpha) ∧
    (Inv liveDual ∧ liveDual.status = .run ∧ liveDual.lock = .free ∧ 7 < liveDual.chans ∧
      ∃ t, exec (.tick 990000) liveDual = .next t ∧ TickWrites liveDual t 7 .vol) ∧
    (Inv fadingFree ∧ fadingFree.status = .run ∧ fadingFree.lock = .free ∧ 0 < fadingFree.chans ∧
      ∃ t, exec (.tick 990000) fadingFree = .next t ∧ TickWrites fadingFree t 0 .vol) ∧
    (Inv ending ∧ ending.status = .run ∧ ending.lock = .free ∧ 0 < ending.chans ∧
      ∃ t, exec (.tick 990000) ending = .next t ∧ TickWrites ending t 0 .wave) := by
  refine ⟨⟨inv_liveFree, rfl, rfl, by decide, ?_⟩, ⟨inv_liveDual, rfl, rfl, by decide, ?_⟩,
    ⟨inv_fadingFree, rfl, rfl, by decide, ?_⟩, inv_ending, rfl, rfl, by decide, ?_⟩
  · obtain ⟨t, ht⟩ := tick_next liveFree (by decide +kernel)
    exact ⟨t, ht, .inl ⟨1, by decide +kernel, .inr (by decide +kernel)⟩,
      .inl ⟨1, by decide +kernel, .inl (.inr (by decide +kernel))⟩⟩
  · obtain ⟨t, ht⟩ := tick_next liveDual (by decide +kernel)
    exact ⟨t, ht, .inl ⟨1, by decide +kernel, .inr ⟨rfl, .inr (by decide +kernel)⟩⟩⟩
  · obtain ⟨t, ht⟩ := tick_next fadingFree (by decide +kernel)
    exact ⟨t, ht, .inr ⟨by decide +kernel, by decide +kernel, rfl⟩⟩
  · have h : holds (exec (.tick 990000) ending) (fun t => (t.chan 0).instrument == none) = true := by
      decide +kernel
    obtain ⟨t, ht⟩ := next_of_holds h
    rw [ht] at h
    exact ⟨t, ht, .inl ⟨1, by decide +kernel, .inr (by simpa [holds] using h)⟩⟩

end Sys2Proof.Tests
end

/-! PROOFS. The statements about the state as a whole (10_state.md R20, R27, R34 to R41): what holds
at reset, what every instruction leaves alone, and the two invariants that steps and instructions
keep. The plan: `exec_effect` says once what an instruction that answers a next state can have done,
and each statement is a case analysis over those few effects. -/

namespace Sys2Proof.Machine

open Host (Outcome)

/-! ### Histories and confined changes -/

/-- `t` comes after `s` in one run: both traces are extended at their end, the counter has not gone
back, and the configuration is the same (R35, R37). -/
structure ExtendsHistory (s t : State) : Prop where
  trace : s.trace <+: t.trace
  pinTrace : s.pinTrace <+: t.pinTrace
  now : s.now ≤ t.now
  cfg : t.cfg = s.cfg

/-- `t` comes after `s`, and the Patch bank, the mode and the Channels not in use are as before. -/
structure Confined (s t : State) : Prop extends ExtendsHistory s t where
  patch : t.patch = s.patch
  dual : t.dual = s.dual
  frozen : ∀ c, s.chans ≤ c → t.chan c = s.chan c

/-- A change that adds nothing to the traces and does not see the counter. -/
theorem ExtendsHistory.of_same {s t : State} (h1 : t.trace = s.trace) (h2 : t.pinTrace = s.pinTrace)
    (h3 : t.now = s.now) (h4 : t.cfg = s.cfg) : ExtendsHistory s t :=
  ⟨by rw [h1], by rw [h2], by rw [h3]; exact BitVec.le_refl _, h4⟩

theorem ExtendsHistory.refl (s : State) : ExtendsHistory s s := .of_same rfl rfl rfl rfl

theorem Confined.refl (s : State) : Confined s s := ⟨.refl s, rfl, rfl, fun _ _ => rfl⟩

theorem Confined.chans {s t : State} (h : Confined s t) : t.chans = s.chans := by
  unfold State.chans; rw [h.dual, h.cfg]

theorem Confined.trans {s t u : State} (h : Confined s t) (g : Confined t u) : Confined s u where
  trace := h.trace.trans g.trace
  pinTrace := h.pinTrace.trans g.pinTrace
  now := BitVec.le_trans h.now g.now
  cfg := g.cfg.trans h.cfg
  patch := g.patch.trans h.patch
  dual := g.dual.trans h.dual
  frozen := fun c hc => (g.frozen c (by rw [h.chans]; exact hc)).trans (h.frozen c hc)

/-- A fold of confined changes is one. -/
theorem foldl_confined {α : Type} {f : State → α → State} (hf : ∀ s a, Confined s (f s a))
    (l : List α) (s : State) : Confined s (l.foldl f s) :=
  List.foldlRecOn l f (Confined.refl s) fun t h a _ => h.trans (hf t a)

theorem setChan_confined {s : State} {c : Nat} (x : Channel) (hc : c < s.chans) :
    Confined s (s.setChan c x) :=
  ⟨.of_same rfl rfl rfl rfl, rfl, rfl, fun _ hd => chan_setChan_ne s x (by omega)⟩

theorem setSlot_confined (p : Nat) (k : SlotClass) (v : Option (Byte × Byte)) (s : State) :
    Confined s (s.setSlot p k v) :=
  ⟨.of_same rfl rfl rfl rfl, rfl, rfl, fun _ _ => rfl⟩

theorem OnlyQueues.confined {s t : State} (h : OnlyQueues s t) : Confined s t :=
  ⟨.of_same h.trace h.pinTrace h.now h.cfg, h.patch, h.dual, fun c _ => h.chan c⟩

theorem observeTime_le (t : Time) (s : State) : s.now ≤ (observeTime t s).now := by
  show s.now ≤ if s.now ≤ t then t else s.now
  split
  · assumption
  · exact BitVec.le_refl _

theorem beginTick_confined (now : Time) (s : State) : Confined s (beginTick now s) :=
  ⟨⟨List.prefix_rfl, List.prefix_rfl, observeTime_le now s, rfl⟩, rfl, rfl, fun _ _ => rfl⟩

/-! ### What a transmission does -/

/-- `t` differs from `s` in what went out to the chips: the traces have grown, and the select chain
has kept its width. -/
structure Transmits (s t : State) : Prop extends OnlyTransmits s t where
  traceGrows : s.trace <+: t.trace
  pinTraceGrows : s.pinTrace <+: t.pinTrace
  selBits : s.sel < 2 ^ s.cfg.nchip → t.sel < 2 ^ s.cfg.nchip

/-- STB and CLK rest at 0 (43_flush_and_transport.md R197). -/
def StrobesRest (s : State) : Prop := s.pins.stb = false ∧ s.pins.clk = false

theorem Transmits.refl (s : State) : Transmits s s :=
  ⟨.refl s, List.prefix_rfl, List.prefix_rfl, id⟩

theorem Transmits.trans {s t u : State} (h : Transmits s t) (g : Transmits t u) :
    Transmits s u where
  toOnlyTransmits := h.toOnlyTransmits.trans g.toOnlyTransmits
  traceGrows := h.traceGrows.trans g.traceGrows
  pinTraceGrows := h.pinTraceGrows.trans g.pinTraceGrows
  selBits := fun hs => h.cfg ▸ g.selBits (h.cfg.symm ▸ h.selBits hs)

theorem Transmits.confined {s t : State} (h : Transmits s t) : Confined s t where
  trace := h.traceGrows
  pinTrace := h.pinTraceGrows
  now := by rw [h.now]; exact BitVec.le_refl _
  cfg := h.cfg
  patch := h.patch
  dual := h.dual
  frozen := fun c _ => h.chan c

theorem emit_transmits (e : Event) (s : State) : Transmits s (emit e s) :=
  ⟨emit_onlyTransmits e s, List.prefix_append _ _, List.prefix_append _ _, id⟩

theorem strobePulse_transmits (d : Bool) (s : State) : Transmits s (strobePulse d s) :=
  ⟨by constructor <;> rfl, List.prefix_rfl, List.prefix_append _ _, fun _ => shiftChain_lt _ _ _⟩

theorem strobePulses_transmits (ds : List Bool) (s : State) : Transmits s (strobePulses ds s) :=
  List.foldlRecOn ds _ (Transmits.refl s) fun t h d _ => h.trans (strobePulse_transmits d t)

theorem showSelect_transmits (set : Nat) (s : State) : Transmits s (showSelect set s) :=
  ⟨by constructor <;> rfl, List.prefix_append _ _, List.prefix_rfl, id⟩

theorem address_transmits (k : Nat) (s : State) : Transmits s (address k s) :=
  (strobePulses_transmits _ s).trans (showSelect_transmits _ _)

theorem broadcast_transmits (s : State) : Transmits s (broadcast s) :=
  (strobePulses_transmits _ s).trans (showSelect_transmits _ _)

theorem sendByte_transmits (b : Byte) (s : State) : Transmits s (sendByte b s) :=
  ⟨sendBytes_onlyTransmits [b] s, List.prefix_append _ _, List.prefix_append _ _, id⟩

theorem sendBytes_transmits (bs : List Byte) (s : State) : Transmits s (sendBytes bs s) :=
  List.foldlRecOn bs _ (Transmits.refl s) fun t h b _ => h.trans (sendByte_transmits b t)

theorem drivePin_transmits (p : PinName) (v : Bool) (s : State) : Transmits s (drivePin p v s) := by
  have others := emitWire_onlyTransmits (.pin p v) s
  cases p with
  | ser => exact ⟨others, List.prefix_rfl, List.prefix_append _ _, id⟩
  | stb =>
    refine ⟨others, List.prefix_rfl, List.prefix_append _ _, fun hs => ?_⟩
    show (if v && !s.pins.stb then shiftChain s.cfg.nchip s.sel s.pins.ser else s.sel) < _
    split
    · exact shiftChain_lt _ _ _
    · exact hs
  | clk =>
    by_cases hv : v && !s.pins.clk
    · have he : drivePin .clk v s = emitPins (.pin .clk v)
          { showByte s.pins.d s with pins := { s.pins with clk := v } } := by
        simp only [drivePin, if_pos hv]
      exact ⟨others, by rw [he]; exact List.prefix_append _ _,
        by rw [he]; exact List.prefix_append _ _, by rw [he]; exact id⟩
    · have he : drivePin .clk v s = emitPins (.pin .clk v)
          { s with pins := { s.pins with clk := v } } := by
        simp only [drivePin, if_neg hv]
      exact ⟨others, by rw [he]; exact List.prefix_rfl, by rw [he]; exact List.prefix_append _ _,
        by rw [he]; exact id⟩

theorem emitWire_transmits (e : WireEvent) (s : State) : Transmits s (emitWire e s) := by
  cases e with
  | byte b => exact sendByte_transmits b s
  | pin p v => exact drivePin_transmits p v s
  | data b => exact ⟨emitWire_onlyTransmits _ s, List.prefix_rfl, List.prefix_append _ _, id⟩
  | hold n => exact emit_transmits _ s

theorem emitWires_transmits (es : List WireEvent) (s : State) : Transmits s (emitWires es s) :=
  List.foldlRecOn es _ (Transmits.refl s) fun t h e _ => h.trans (emitWire_transmits e t)

theorem sendRow_transmits (buf : WordBuf) (s : State) (a : Nat) : Transmits s (sendRow buf s a) :=
  (sendBytes_transmits _ s).trans (emit_transmits _ _)

/-- What REPROG sends before it halts (44_system_sequences.md R221). -/
theorem reprogram_transmits (buf : WordBuf) (ext : List Extent) (s : State) :
    ∃ t, reprogram buf ext s = haltWith .reprogDone t ∧ Transmits s t := by
  have enter : Transmits s (enterBootloader s) :=
    ((broadcast_transmits s).trans (emitWires_transmits _ _)).trans (sendBytes_transmits _ _)
  have rows : ∀ (l : List Nat) (u : State), Transmits u (l.foldl (sendRow buf) u) := fun l u =>
    List.foldlRecOn l _ (Transmits.refl u) fun t h a _ => h.trans (sendRow_transmits buf t a)
  exact ⟨_, rfl, ((enter.trans (rows _ _)).trans (sendBytes_transmits _ _)).trans
    (emit_transmits _ _)⟩

theorem strobePulses_rest (ds : List Bool) {s : State} (h : StrobesRest s) :
    StrobesRest (strobePulses ds s) :=
  List.foldlRecOn ds _ h fun _ ht _ _ => ⟨rfl, ht.2⟩

theorem sendBytes_rest (bs : List Byte) {s : State} (h : StrobesRest s) :
    StrobesRest (sendBytes bs s) :=
  List.foldlRecOn bs _ h fun _ ht _ _ => ⟨ht.1, rfl⟩

/-! ### The flush and the engine are confined, from any state -/

theorem flushSlot_confined (k : SlotClass) (s : State) (p : Nat) :
    Confined s (flushSlot k s p) := by
  unfold flushSlot
  split
  · exact .refl s
  · exact ((address_transmits p s).trans (sendBytes_transmits _ _)).confined.trans
      (setSlot_confined _ _ _ _)

theorem clearDirty_confined (k : SlotClass) (s : State) : Confined s (clearDirty k s) :=
  ⟨.of_same rfl rfl rfl rfl, rfl, rfl, fun _ _ => rfl⟩

theorem clearChanged_confined (s : State) : Confined s (clearChanged s) :=
  ⟨.of_same rfl rfl rfl rfl, rfl, rfl, fun _ _ => rfl⟩

theorem flushClass_confined (s : State) (k : SlotClass) : Confined s (flushClass s k) := by
  unfold flushClass
  split
  · exact (foldl_confined (flushSlot_confined k) _ s).trans (clearDirty_confined k _)
  · exact .refl s

theorem flush_confined (s : State) : Confined s (flush s) := by
  unfold flush
  split
  · exact (foldl_confined flushClass_confined _ s).trans (clearChanged_confined _)
  · exact .refl s

/-- A Channel in use is written, then commands are queued for it. -/
theorem setChan_updTrack_confined {s : State} {c : Nat} (x : Channel) (k : Track)
    (hc : c < s.chans) : Confined s (updTrack k c (s.setChan c x)) :=
  (setChan_confined x hc).trans (updTrack_onlyQueues k c _).confined

theorem zeroPoint_confined {s : State} {c : Nat} (k : Track) (hc : c < s.chans) :
    Confined s (zeroPoint c k s) := by
  unfold zeroPoint
  split
  · have queued := (updTrack_onlyQueues k c s).confined
    exact queued.trans (setChan_confined _ (by rw [queued.chans]; exact hc))
  · exact .refl s

theorem applyValue_confined {s : State} {c : Nat} (k : Track) (v : Int) (hc : c < s.chans) :
    Confined s (applyValue c k v s) :=
  setChan_updTrack_confined _ k hc

theorem trackPass_confined {s t : State} {c : Nat} {p : Patch} {k : Track} (hc : c < s.chans)
    (h : trackPass c p k s = .ok t) : Confined s t := by
  unfold trackPass at h
  dsimp only at h
  split at h
  · cases h; exact zeroPoint_confined k hc
  · split at h
    · cases h
    · split at h
      · cases h
      · cases h; exact (setChan_confined _ hc).trans (applyValue_confined _ _ hc)

theorem trackPasses_confined {s t : State} {c : Nat} {p : Patch} {ks : List Track}
    (hc : c < s.chans) (h : trackPasses c p ks s = .ok t) : Confined s t := by
  induction ks generalizing s with
  | nil => cases h; exact .refl _
  | cons k ks ih =>
    unfold trackPasses at h
    split at h
    · rename_i u hu
      have first := trackPass_confined hc hu
      exact first.trans (ih (by rw [first.chans]; exact hc) h)
    · cases h

theorem terminate_confined {s : State} {c : Nat} (p : Patch) (hc : c < s.chans) :
    Confined s (terminate c p s) := by
  unfold terminate
  split
  · exact (setChan_updTrack_confined _ .duty hc).trans (emit_transmits _ _).confined
  · exact .refl s

theorem fadePass_confined {s : State} {c : Nat} (now : Time) (hc : c < s.chans) :
    Confined s (fadePass c now s) := by
  unfold fadePass
  dsimp only
  split
  · exact (setChan_updTrack_confined _ .volume hc).trans (emit_transmits _ _).confined
  · exact setChan_updTrack_confined _ .volume hc

theorem channelPass_confined {s t : State} {c : Nat} {now : Time} (hc : c < s.chans)
    (h : channelPass now c s = .ok t) : Confined s t := by
  unfold channelPass at h
  split at h
  · unfold envPass at h
    split at h
    · cases h
    · split at h
      · rename_i u hu
        have tracks := trackPasses_confined hc hu
        cases h
        exact tracks.trans (terminate_confined _ (by rw [tracks.chans]; exact hc))
      · cases h
  · cases h
    split
    · exact .refl s
    · exact fadePass_confined now hc

theorem channelPasses_confined {s t : State} {now : Time} {cs : List Nat}
    (hc : ∀ c ∈ cs, c < s.chans) (h : channelPasses now cs s = .ok t) : Confined s t := by
  induction cs generalizing s with
  | nil => cases h; exact .refl _
  | cons c cs ih =>
    unfold channelPasses at h
    split at h
    · rename_i u hu
      have first := channelPass_confined (hc c (.head _)) hu
      exact first.trans (ih (fun d hd => by rw [first.chans]; exact hc d (.tail _ hd)) h)
    · cases h

theorem endTick_confined (s : State) : Confined s (endTick s) :=
  ⟨.of_same rfl rfl rfl rfl, rfl, rfl, fun _ _ => rfl⟩

/-- TICK from any state, consistent or not. -/
theorem execTick_confined {s t : State} {now : Time} (h : execTick now s = .next t) :
    Confined s t := by
  unfold execTick at h
  split at h
  · split at h
    · rename_i u hu
      have passes := channelPasses_confined (s := beginTick now s)
        (fun c hc => List.mem_range.mp hc) hu
      cases h
      exact (((beginTick_confined now s).trans passes).trans (flush_confined _)).trans
        (endTick_confined _)
    · cases h
  · cases h; exact .refl s

/-! ### Channel records -/

/-- What the invariant asks of one Channel record: I1 and I5 of R40. -/
structure Channel.Sound (g : Cfg) (x : Channel) : Prop where
  noFade : x.instrument.isSome = true → x.fadeLength = 0
  duty : inUnit x.duty
  amplitude : inUnit x.amplitude
  pan : inSigned x.pan
  resonance : inUnit x.resonance
  fadeInit : inUnit x.fadeInit
  cutoff : x.cutoff.toNat ≤ g.cutoffMax
  linked : ∀ l ∈ x.linked, l < g.nchip

theorem Channel.sound_iff {g : Cfg} {x : Channel} :
    Channel.Sound g x ↔ (x.instrument.isSome = true → x.fadeLength = 0) ∧ Channel.inRange g x :=
  ⟨fun h => ⟨h.noFade, h.duty, h.amplitude, h.pan, h.resonance, h.fadeInit, h.cutoff, h.linked⟩,
    fun ⟨h, h1, h2, h3, h4, h5, h6, h7⟩ => ⟨h, h1, h2, h3, h4, h5, h6, h7⟩⟩

/-- The cursors of a record fit the envelopes of a Patch. -/
def Channel.FitsPatch (p : Patch) (x : Channel) : Prop :=
  ∀ k, 0 < Envelope.count (p.env.get k) →
    cursorFits (p.env.get k) x.reloaded (x.tick.get k).toNat (x.point.get k).val = true

/-- What I4 asks of one Channel record (R40; log 13). -/
def Channel.Fits (s : State) (x : Channel) : Prop :=
  ∀ i, x.instrument = some i → Patch.defined (s.patchAt i) = true → x.FitsPatch (s.patchAt i)

theorem cursorsFit_iff {s : State} : CursorsFit s ↔ ∀ x ∈ s.ch, Channel.Fits s x := Iff.rfl

/-- An integer stored in a register is not above the integer. -/
theorem toNat_ofInt_le {n : Nat} {z : Int} {m : Nat} (h0 : 0 ≤ z) (h : z ≤ m) :
    (BitVec.ofInt n z).toNat ≤ m := by
  obtain ⟨k, rfl⟩ := Int.eq_ofNat_of_zero_le h0
  rw [BitVec.ofInt_natCast, BitVec.toNat_ofNat]
  exact (Nat.mod_le _ _).trans (by exact_mod_cast h)

/-- Storing an envelope value keeps a record sound (R149). -/
theorem storeEnvValue_sound {g : Cfg} {x : Channel} (k : Track) (v : Int)
    (h : Channel.Sound g x) : Channel.Sound g (storeEnvValue g k v x) := by
  have unit := fun q : ℚ => quantise_unit g (clampRat_mem (x := q) (zero_le_one (α := ℚ)))
  cases k with
  | volume => exact { h with amplitude := unit _ }
  | pan => exact { h with pan := quantise_signed g (clampRat_mem (by norm_num)) }
  | frequency => exact { h with }
  | duty => exact { h with duty := unit _ }
  | cutoff =>
    have hz := clampInt_mem (x := v) (Int.natCast_nonneg g.cutoffMax)
    exact { h with cutoff := toNat_ofInt_le hz.1 hz.2 }
  | resonance => exact { h with resonance := unit _ }

/-- One track's pass keeps a record sound. -/
theorem trackChannel_sound {g : Cfg} {x : Channel} (p : Patch) (k : Track)
    (h : Channel.Sound g x) : Channel.Sound g (trackChannel g p k x) := by
  unfold trackChannel
  split
  · split
    · exact { h with }
    · exact h
  · exact storeEnvValue_sound k _ { h with }

theorem trackChannels_sound {g : Cfg} {x : Channel} (p : Patch) (ks : List Track)
    (h : Channel.Sound g x) : Channel.Sound g (trackChannels g p ks x) :=
  List.foldlRecOn ks _ h fun _ hy k _ => trackChannel_sound p k hy

/-- One TICK keeps a record sound: a live Channel stays without a fade or ends, a fading one has no
instrument. -/
theorem playedChannel_sound {s : State} {x : Channel} (now : Time) (h : Channel.Sound s.cfg x) :
    Channel.Sound s.cfg (playedChannel s now x) := by
  unfold playedChannel
  split
  · unfold envChannel
    have played := trackChannels_sound (s.patchAt ‹_›) Track.all h
    dsimp only
    split
    · exact { played with noFade := nofun }
    · exact played
  · rename_i hi
    have faded : inUnit (quantise s.cfg (fadeAmplitude x.fadeInit x.fadeDir
        (now.toNat - x.fadeStart.toNat) x.fadeLength.toNat)) := by
      refine quantise_unit _ ?_
      unfold fadeAmplitude
      split <;> exact clampRat_mem zero_le_one
    split
    · exact h
    · split
      · exact { h with noFade := fun _ => rfl, amplitude := faded }
      · exact { h with amplitude := faded }

theorem Channel.Fits.of_no_instrument {s : State} {x : Channel} (h : x.instrument = none) :
    Channel.Fits s x := fun i hi => by rw [h] at hi; cases hi

/-- `Fits` looks at the bank and the cursors alone. -/
theorem Channel.Fits.congr {s t : State} {x : Channel} (hp : t.patch = s.patch)
    (h : Channel.Fits s x) : Channel.Fits t x := by
  unfold Channel.Fits State.patchAt at *
  rw [hp]; exact h

/-- The cursors that TRIG leaves fit every defined Patch (R112, R30). -/
theorem triggered_fitsPatch (i : Fin 128) (w : WaveType) (x : Channel) {p : Patch}
    (hd : Patch.defined p = true) : (triggered i w x).FitsPatch p := by
  intro k hk
  obtain ⟨-, -, h0, -⟩ := Envelope.defined_spec (Patch.defined_env hd k)
  simp only [triggered, PerTrack.get_all]
  refine cursorFits_iff.mpr ⟨hk, ?_⟩
  by_cases hc : 2 ≤ Envelope.count (p.env.get k)
  · exact .inl (Nat.le_of_eq (h0 hc))
  · exact .inr ⟨by omega, rfl, rfl⟩

/-- What the absence of a refusal says of a track with points (R148). -/
theorem advance_le_of_not_refused {g : Cfg} {p : Patch} {k : Track} {x : Channel}
    (hk : 0 < Envelope.count (p.env.get k)) (h : trackRefusal g p k x = none) :
    (advance g.roundQ (p.env.get k) (x.tick.get k).toNat (x.point.get k).val x.released).1
      ≤ 65535 := by
  unfold trackRefusal at h
  rw [if_neg (by omega)] at h
  split at h
  · cases h
  · split at h
    · cases h
    · omega

/-- One track's pass that is not refused keeps the cursors fitting (R144, I4). -/
theorem trackChannel_fitsPatch {g : Cfg} {p : Patch} {k : Track} {x : Channel}
    (hd : Patch.defined p = true) (hr : trackRefusal g p k x = none) (h : x.FitsPatch p) :
    (trackChannel g p k x).FitsPatch p := by
  intro j hj
  rw [trackChannel_reloaded, trackChannel_tick, trackChannel_point]
  by_cases hjk : j = k
  · subst hjk
    have hdj := Patch.defined_env hd j
    have ht := advance_le_of_not_refused hj hr
    have hi := advance_point_lt g.roundQ x.released hdj (h j hj)
    rw [if_pos rfl, if_neg (by omega), if_pos ⟨rfl, by omega⟩, BitVec.toNat_ofNat,
      Nat.mod_eq_of_lt (by omega), Fin.val_ofNat, Nat.mod_eq_of_lt hi]
    exact advance_fits g.roundQ x.released hdj (h j hj)
  · rw [if_neg hjk, if_neg fun hh => hjk hh.1]
    exact h j hj

theorem trackChannels_fitsPatch {g : Cfg} {p : Patch} {ks : List Track} {x : Channel}
    (hd : Patch.defined p = true) (hn : ks.Nodup) (hr : ∀ k ∈ ks, trackRefusal g p k x = none)
    (h : x.FitsPatch p) : (trackChannels g p ks x).FitsPatch p := by
  induction ks generalizing x with
  | nil => exact h
  | cons k ks ih =>
    obtain ⟨hk, hn⟩ := List.nodup_cons.mp hn
    refine ih hn (fun j hj => ?_) (trackChannel_fitsPatch hd (hr k (.head _)) h)
    have hjk : j ≠ k := fun e => hk (e ▸ hj)
    rw [trackRefusal_trackChannel g p x hjk]
    exact hr j (.tail _ hj)

theorem trackChannels_instrument (g : Cfg) (p : Patch) (ks : List Track) (x : Channel) :
    (trackChannels g p ks x).instrument = x.instrument :=
  List.foldlRecOn ks _ (motive := fun y : Channel => y.instrument = x.instrument) rfl
    fun _ hy k _ => (trackChannel_instrument g p k _).trans hy

/-- A TICK starts no note. -/
theorem playedChannel_no_instrument {s : State} {x : Channel} (now : Time)
    (hi : x.instrument = none) : (playedChannel s now x).instrument = none := by
  unfold playedChannel
  rw [hi]
  dsimp only
  split
  · exact hi
  · split <;> rfl

/-- A TICK that no Channel refuses keeps the cursors fitting (I4). -/
theorem playedChannel_fits {s : State} {x : Channel} (now : Time)
    (hr : ∀ r, ¬ playRefusal s x r) (h : Channel.Fits s x) :
    Channel.Fits s (playedChannel s now x) := by
  cases hi : x.instrument with
  | none => exact .of_no_instrument (playedChannel_no_instrument now hi)
  | some i =>
    have hd : Patch.defined (s.patchAt i) = true := by
      by_contra hd
      exact hr _ ⟨i, hi, .inl ⟨by simpa using hd, rfl⟩⟩
    have free : ∀ k, trackRefusal s.cfg (s.patchAt i) k x = none := by
      intro k
      by_contra hk
      obtain ⟨r, hk⟩ := Option.ne_none_iff_exists'.mp hk
      exact hr r ⟨i, hi, .inr ⟨hd, k, hk⟩⟩
    have fits := trackChannels_fitsPatch hd (ks := Track.all) (by decide) (fun k _ => free k)
      (h i hi hd)
    unfold playedChannel envChannel
    rw [hi]
    dsimp only
    split
    · exact .of_no_instrument rfl
    · intro j hj _
      rw [trackChannels_instrument, hi] at hj
      cases hj
      exact fits

/-! ### What an instruction can have done -/

/-- `t` is `s` with Channel `c`, which is in use, written to `x`, commands queued for it, and
perhaps a later time seen on the counter. -/
structure WritesChannel (s : State) (c : Nat) (x : Channel) (t : State) : Prop where
  inUse : c < s.chans
  queues : OnlyQueues (s.setChan c x) { t with now := s.now }
  queueOk : QueueOk s → QueueOk t
  now : s.now ≤ t.now

/-- The Patch bank and the marks after PLOAD (R110). -/
def loadPatch (i : Nat) (p : Patch) (s : State) : State :=
  { s with
    patch := s.patch.setIfInBounds i p
    ch := if s.patchAt (Fin.ofNat 128 i) = p then s.ch
      else s.ch.map (markReloaded (Fin.ofNat 128 i)) }

/-- Everything an instruction that answers a next state can have done. -/
inductive Effect (s : State) : Instr → State → Prop
  /-- nothing -/
  | ignored (i : Instr) : Effect s i s
  /-- one TICK of the engine -/
  | ticked {t : State} (now : Time) (h : execTick now s = .next t) : Effect s (.tick now) t
  /-- a Patch has been stored -/
  | loaded (n : Nat) (p : Patch) : Effect s (.pload n p) (loadPatch n p s)
  /-- the mode has been set -/
  | switched (b : Int) : Effect s (.setDual b) { s with dual := decide (b = 1) }
  /-- a Channel's registers have been written, within their ranges and with cursors that fit -/
  | registers {t : State} {c : Nat} {x : Channel} (i : Instr) (hw : WritesChannel s c x t)
      (hs : Channel.Sound s.cfg (s.chan c) → Channel.Sound s.cfg x)
      (hf : Channel.Fits s (s.chan c) → Channel.Fits s x) : Effect s i t
  /-- the queue has been flushed -/
  | flushed : Effect s .flush (flush s)
  /-- something has been sent, and the strobes rest again -/
  | sent {t : State} (i : Instr) (h : Transmits s t) (hr : StrobesRest s → StrobesRest t) :
      Effect s i t
  /-- something has been sent, and the block has halted -/
  | halted {t : State} (i : Instr) (cause : HaltCause) (h : Transmits s t) :
      Effect s i (haltWith cause t)

theorem OnlyQueues.writesChannel {s t : State} {c : Nat} {x : Channel}
    (h : OnlyQueues (s.setChan c x) t) (hc : c < s.chans)
    (hq : QueueOk (s.setChan c x) → QueueOk t) : WritesChannel s c x t where
  inUse := hc
  queues := by rw [show s.now = t.now from h.now.symm]; exact h
  queueOk := fun hs => hq ((setChan_onlyPlays c x s).queueOk hs)
  now := by rw [h.now]; exact BitVec.le_refl _

/-- A register write with the encoder of one track after it. -/
theorem updTrack_writesChannel {s : State} {c : Nat} (k : Track) (x : Channel) (hc : c < s.chans) :
    WritesChannel s c x (updTrack k c (s.setChan c x)) :=
  (updTrack_onlyQueues k c _).writesChannel hc (updTrack_queueOk k c)

/-- A register write that queues nothing. -/
theorem setChan_writesChannel {s : State} {c : Nat} (x : Channel) (hc : c < s.chans) :
    WritesChannel s c x (s.setChan c x) :=
  (OnlyQueues.refl _).writesChannel hc id

/-- A host operation has its effect or none. -/
theorem hostRun_effect {s t e : State} {i : Instr} {d : Prop} [Decidable d]
    (h : hostRun s d e = .next t) (he : d → Effect s i e) : Effect s i t := by
  rcases hostRun_next h with ⟨-, hd, rfl⟩ | rfl
  · exact he hd
  · exact .ignored i

/-- A host operation that sends bytes. -/
theorem hostRun_sendBytes_effect {s t : State} {i : Instr} {d : Prop} [Decidable d] {bs : List Byte}
    (h : hostRun s d (sendBytes bs s) = .next t) : Effect s i t :=
  hostRun_effect h fun _ => .sent _ (sendBytes_transmits bs s) (sendBytes_rest bs)

theorem execSetDual_effect {s t : State} {b : Int} (h : execSetDual b s = .next t) :
    Effect s (.setDual b) t := by
  unfold execSetDual at h
  split at h
  · cases h
  · exact hostRun_effect h fun _ => .switched b

theorem execTrig_effect {s t : State} {c i : Nat} (h : execTrig c i s = .next t) :
    Effect s (.trig c i) t := by
  unfold execTrig at h
  split at h
  · cases h
  · refine hostRun_effect h fun ⟨hc, _⟩ => .registers _ (updTrack_writesChannel .duty _ hc)
      (fun hx => { hx with noFade := fun _ => rfl }) fun _ j _ hd => triggered_fitsPatch _ _ _ hd

theorem execRel_effect {s t : State} {c : Nat} (h : execRel c s = .next t) :
    Effect s (.rel c) t := by
  refine hostRun_effect h fun hc => ?_
  split
  · exact .registers _ (setChan_writesChannel _ hc) (fun hx => { hx with }) id
  · exact .registers _ (updTrack_writesChannel .volume _ hc)
      (fun hx => { hx with amplitude := quantise_unit _ ⟨le_refl _, zero_le_one⟩ }) id

theorem execFade_effect {s t : State} {c : Nat} {init : ℚ} {len dir : Int} {now : Time}
    (h : execFade c init len dir now s = .next t) : Effect s (.fade c init len dir now) t := by
  refine hostRun_effect h fun ⟨hc, hi, _⟩ => .registers _ ⟨hc, .refl _, ?_, observeTime_le now _⟩
    (fun hx => { hx with noFade := nofun, fadeInit := quantise_unit _ hi })
    fun _ => .of_no_instrument rfl
  exact queueOk_of_eq rfl rfl rfl rfl

/-- What an instruction that answers a next state has done. -/
theorem exec_effect {i : Instr} {s t : State} (h : exec i s = .next t) : Effect s i t := by
  cases i with
  | tick now => exact .ticked now h
  | pload n p => exact hostRun_effect h fun _ => .loaded n p
  | setDual b => exact execSetDual_effect h
  | trig c n => exact execTrig_effect h
  | rel c => exact execRel_effect h
  | clri c =>
    exact hostRun_effect h fun hc => .registers _ (setChan_writesChannel _ hc)
      (fun hx => { hx with noFade := nofun }) fun _ => .of_no_instrument rfl
  | fade c init len dir now => exact execFade_effect h
  | setWave c w =>
    exact hostRun_effect h fun hc => .registers _ (updTrack_writesChannel .duty _ hc)
      (fun hx => { hx with }) id
  | setDuty c d =>
    exact hostRun_effect h fun ⟨hc, hd⟩ => .registers _ (updTrack_writesChannel .duty _ hc)
      (fun hx => { hx with duty := quantise_unit _ hd }) id
  | setFreq c f =>
    exact hostRun_effect h fun ⟨hc, _⟩ => .registers _ (updTrack_writesChannel .frequency _ hc)
      (fun hx => { hx with }) id
  | setAmp c a =>
    exact hostRun_effect h fun ⟨hc, ha⟩ => .registers _ (updTrack_writesChannel .volume _ hc)
      (fun hx => { hx with amplitude := quantise_unit _ ha }) id
  | setPan c p =>
    exact hostRun_effect h fun ⟨hc, hp⟩ => .registers _ (updTrack_writesChannel .pan _ hc)
      (fun hx => { hx with pan := quantise_signed _ hp }) id
  | setCut c hz =>
    exact hostRun_effect h fun ⟨hc, h0, h1⟩ => .registers _ (updTrack_writesChannel .cutoff _ hc)
      (fun hx => { hx with cutoff := toNat_ofInt_le h0 h1 }) id
  | setRes c r =>
    exact hostRun_effect h fun ⟨hc, hr⟩ => .registers _ (updTrack_writesChannel .resonance _ hc)
      (fun hx => { hx with resonance := quantise_unit _ hr }) id
  | setLink c l =>
    exact hostRun_effect h fun ⟨hc, hl⟩ => .registers _ (setChan_writesChannel _ hc)
      (fun hx => { hx with linked := hl }) id
  | setNote c n =>
    exact hostRun_effect h fun ⟨hc, _⟩ => .registers _ (setChan_writesChannel _ hc)
      (fun hx => { hx with }) id
  | flush => exact hostRun_effect h fun _ => .flushed
  | sysReset =>
    exact hostRun_effect h fun _ =>
      .halted _ _ ((broadcast_transmits s).trans (emitWires_transmits _ _))
  | reprog buf ext =>
    obtain ⟨u, hu, sent⟩ := reprogram_transmits buf ext s
    exact hostRun_effect h fun _ => hu ▸ .halted _ _ sent
  | wWave code duty => exact hostRun_sendBytes_effect h
  | wFreq f14 => exact hostRun_sendBytes_effect h
  | wVol v6 => exact hostRun_sendBytes_effect h
  | wAlpha a => exact hostRun_sendBytes_effect h
  | wBeta mag sign sat => exact hostRun_sendBytes_effect h
  | wGamma g => exact hostRun_sendBytes_effect h
  | sendByte b => exact hostRun_sendBytes_effect (bs := [b]) h
  | strobePulse d =>
    exact hostRun_effect h fun _ =>
      .sent _ (strobePulse_transmits d s) (strobePulses_rest [d])
  | address k =>
    exact hostRun_effect h fun _ => .sent _ (address_transmits k s) (strobePulses_rest _)
  | broadcast =>
    exact hostRun_effect h fun _ => .sent _ (broadcast_transmits s) (strobePulses_rest _)
  | rowFrame len addr flag words => exact hostRun_sendBytes_effect h
  | termFrame => exact hostRun_sendBytes_effect h
  | statusPkt => exact hostRun_effect h fun _ => .sent _ (emit_transmits _ s) id

/-! ### What every instruction leaves alone -/

theorem WritesChannel.confined {s t : State} {c : Nat} {x : Channel} (h : WritesChannel s c x t) :
    Confined s t :=
  have hq := (setChan_confined x h.inUse).trans h.queues.confined
  ⟨⟨hq.trace, hq.pinTrace, h.now, hq.cfg⟩, hq.patch, hq.dual, hq.frozen⟩

theorem haltWith_confined (cause : HaltCause) (s : State) : Confined s (haltWith cause s) :=
  ⟨⟨List.prefix_append _ _, List.prefix_append _ _, BitVec.le_refl _, rfl⟩, rfl, rfl,
    fun _ _ => rfl⟩

/-- An instruction is confined, or is a PLOAD that stores its Patch, or a SETDUAL that sets the
mode. -/
theorem exec_confined {i : Instr} {s t : State} (h : exec i s = .next t) :
    Confined s t ∨ (∃ n p, i = .pload n p ∧ t = loadPatch n p s) ∨
      (∃ b, i = .setDual b ∧ t = { s with dual := decide (b = 1) }) := by
  cases exec_effect h with
  | ignored => exact .inl (.refl s)
  | ticked now ht => exact .inl (execTick_confined ht)
  | loaded n p => exact .inr (.inl ⟨n, p, rfl, rfl⟩)
  | switched b => exact .inr (.inr ⟨b, rfl, rfl⟩)
  | registers _ hw => exact .inl hw.confined
  | flushed => exact .inl (flush_confined s)
  | sent _ ht => exact .inl ht.confined
  | halted _ cause ht => exact .inl (ht.confined.trans (haltWith_confined cause _))

theorem exec_extendsHistory {i : Instr} {s t : State} (h : exec i s = .next t) :
    ExtendsHistory s t := by
  rcases exec_confined h with hc | ⟨n, p, -, rfl⟩ | ⟨b, -, rfl⟩
  · exact hc.toExtendsHistory
  · exact .of_same rfl rfl rfl rfl
  · exact .of_same rfl rfl rfl rfl

theorem watchdogRestart_extendsHistory (s : State) : ExtendsHistory s (watchdogRestart s) := by
  have grows : ∀ es : List Event,
      es <+: if s.cfg.boardRevOk then es else es ++ [.halt .boardRev] := by
    intro es
    split
    · exact List.prefix_rfl
    · exact List.prefix_append _ _
  exact ⟨grows s.trace, grows s.pinTrace, BitVec.le_refl _, rfl⟩

/-- PLOAD sets at most the model's mark on a Channel record (log 13). -/
theorem loadPatch_chan (n : Nat) (p : Patch) (s : State) (c : Nat) :
    (loadPatch n p s).chan c = s.chan c ∨
      (loadPatch n p s).chan c = markReloaded (Fin.ofNat 128 n) (s.chan c) := by
  unfold loadPatch
  by_cases h : s.patchAt (Fin.ofNat 128 n) = p
  · rw [if_pos h]; exact .inl rfl
  · rw [if_neg h]; exact .inr (chan_map_markReloaded s _ c)

/-- Settles O13: every turn of the scheduler extends the history, and so does every instruction. -/
theorem stepExtendsHistory : Obligations.StepExtendsHistory := by
  intro s t h
  have later : ExtendsHistory s t := by
    rcases step_next h with ⟨rfl, -⟩ | ⟨-, _, _, _, rfl, -⟩ | ⟨-, i, _, _, hi⟩
    · exact watchdogRestart_extendsHistory s
    · exact .of_same rfl rfl rfl rfl
    · obtain ⟨h1, h2, h3, h4⟩ := exec_extendsHistory hi
      exact ⟨h1, h2, h3, h4⟩
  exact ⟨later.trace, later.pinTrace, later.now, later.cfg⟩

/-- Settles O14: every instruction but PLOAD is confined or sets the mode. -/
theorem onlyPloadWritesTheBank : Obligations.OnlyPloadWritesTheBank := by
  intro i s t hi h
  rcases exec_confined h with hc | ⟨n, p, rfl, -⟩ | ⟨b, -, rfl⟩
  · exact hc.patch
  · exact absurd rfl (hi n p)
  · rfl

/-- Settles O15: every instruction but SETDUAL is confined or stores a Patch. -/
theorem onlySetDualWritesTheMode : Obligations.OnlySetDualWritesTheMode := by
  intro i s t hi h
  rcases exec_confined h with hc | ⟨n, p, -, rfl⟩ | ⟨b, rfl, -⟩
  · exact hc.dual
  · rfl
  · exact absurd rfl (hi b)

/-- Settles O16: a confined change keeps the Channels from N up, and PLOAD only marks. -/
theorem frozenChannelsAreUntouched : Obligations.FrozenChannelsAreUntouched := by
  intro i s t c h hc
  rcases exec_confined h with hf | ⟨n, p, rfl, rfl⟩ | ⟨b, -, rfl⟩
  · rw [hf.frozen c hc]; exact ⟨rfl, fun _ => rfl⟩
  · refine ⟨?_, fun hi => absurd rfl (hi n p)⟩
    rcases loadPatch_chan n p s c with he | he
    · rw [he]
    · rw [he]; rfl
  · exact ⟨rfl, fun _ => rfl⟩

/-! ### The invariant -/

theorem Inv.sound {s : State} (h : Inv s) {x : Channel} (hx : x ∈ s.ch) : Channel.Sound s.cfg x :=
  Channel.sound_iff.mpr ⟨h.liveHasNoFade x hx, h.registersInRange x hx⟩

/-- The invariant from its parts: the records, the queue, the chain, the lock and the strobes. -/
theorem Inv.of_parts {s : State} (hg : s.cfg.wf) (hn : s.ch.length = s.cfg.nchip)
    (hx : ∀ x ∈ s.ch, Channel.Sound s.cfg x) (hq : QueueOk s) (hs : s.sel < 2 ^ s.cfg.nchip)
    (hl : s.lock ≠ .engine) (hr : s.status = .run → StrobesRest s) : Inv s where
  cfgWf := hg
  chCount := hn
  slotCount := hq.slotCount
  liveHasNoFade := fun x m => (hx x m).noFade
  changedIffDirty := hq.changedIffDirty
  pendingIsDirty := hq.pendingIsDirty
  registersInRange := fun x m => (Channel.sound_iff.mp (hx x m)).2
  selBits := hs
  lockNotEngine := hl
  strobesRest := hr

theorem channelReset_sound {g : Cfg} (h : g.wf) : Channel.Sound g (Channel.reset g.chDefault) := by
  obtain ⟨-, -, -, -, -, -, -, -, ⟨hd, ha, hp, hr, hc⟩, -⟩ := h
  exact ⟨nofun, hd, ha, hp, hr, ⟨le_refl _, zero_le_one⟩, hc, nofun⟩

/-- The reset procedure establishes the invariant, whatever lies outside the block (R270). -/
theorem resetWith_inv {g : Cfg} (hg : g.wf) (now : Time) {sel : Nat} (hs : sel < 2 ^ g.nchip)
    (shown : Nat) (tr ptr : List Event) (ag : List Section) :
    Inv (State.resetWith g now sel shown tr ptr ag) := by
  refine .of_parts hg (List.length_replicate ..) (fun x hx => ?_)
    ⟨List.length_replicate .., rfl, fun v hv k _ hk => ?_⟩ hs nofun fun _ => ⟨rfl, rfl⟩
  · rw [List.eq_of_mem_replicate hx]; exact channelReset_sound hg
  · rw [List.eq_of_mem_replicate hv, PerClass.get_all] at hk; cases hk

/-- The invariant looks neither at the scheduler's fields nor at the bank, the mode, the traces or
the clocks; of the lock it asks only that the engine does not hold it. -/
theorem Inv.of_same {s t : State} (hi : Inv s) (hcfg : t.cfg = s.cfg) (hch : t.ch = s.ch)
    (hslot : t.slot = s.slot) (hdirty : t.dirty = s.dirty) (hchanged : t.changed = s.changed)
    (hsel : t.sel = s.sel) (hpins : t.pins = s.pins) (hstatus : t.status = s.status)
    (hlock : t.lock ≠ .engine) : Inv t :=
  .of_parts (by rw [hcfg]; exact hi.cfgWf) (by rw [hch, hcfg]; exact hi.chCount)
    (by rw [hch, hcfg]; exact fun _ => hi.sound)
    (queueOk_of_eq hcfg hslot hdirty hchanged hi.queueOk)
    (by rw [hsel, hcfg]; exact hi.selBits) hlock
    (by unfold StrobesRest; rw [hstatus, hpins]; exact hi.strobesRest)

/-- A transmission keeps the invariant, if the strobes rest afterwards or the block has halted. -/
theorem Inv.of_onlyTransmits {s t : State} (hi : Inv s)
    (h : OnlyTransmits s { t with status := s.status }) (hsel : t.sel < 2 ^ t.cfg.nchip)
    (hr : t.status = .run → StrobesRest t) : Inv t := by
  have hcfg : t.cfg = s.cfg := h.cfg
  have hch : t.ch = s.ch := h.ch
  have hlock : t.lock = s.lock := h.lock
  exact .of_parts (by rw [hcfg]; exact hi.cfgWf) (by rw [hch, hcfg]; exact hi.chCount)
    (by rw [hch, hcfg]; exact fun _ => hi.sound)
    (queueOk_of_eq hcfg h.slot h.dirty h.changed hi.queueOk) hsel
    (by rw [hlock]; exact hi.lockNotEngine) hr

theorem Transmits.sel_lt {s t : State} (h : Transmits s t) (hi : Inv s) :
    t.sel < 2 ^ t.cfg.nchip := by
  rw [h.cfg]; exact h.selBits hi.selBits

theorem flush_inv {s : State} (hi : Inv s) : Inv (flush s) := by
  have h := flush_onlyFlushes s hi.slotCount
  obtain ⟨-, -, -, -, hq⟩ := flush_spec hi.queueOk
  refine .of_parts (by rw [h.cfg]; exact hi.cfgWf) (by rw [h.ch, h.cfg]; exact hi.chCount)
    (by rw [h.ch, h.cfg]; exact fun _ => hi.sound) hq (by rw [h.cfg]; exact h.selBits hi.selBits)
    (by rw [h.lock]; exact hi.lockNotEngine) fun hr => ?_
  obtain ⟨hstb, hclk⟩ := hi.strobesRest (h.status ▸ hr)
  exact ⟨h.stbRests hstb, h.clkRests hclk⟩

/-- Every record after a register write is the one written or an old one. -/
theorem WritesChannel.mem_ch {s t : State} {c : Nat} {x y : Channel} (h : WritesChannel s c x t)
    (hy : y ∈ t.ch) : y ∈ s.ch ∨ y = x := by
  rw [show t.ch = s.ch.set c x from h.queues.ch] at hy
  exact List.mem_or_eq_of_mem_set hy

theorem WritesChannel.inv {s t : State} {c : Nat} {x : Channel} (hi : Inv s)
    (h : WritesChannel s c x t) (hx : Channel.Sound s.cfg x) : Inv t := by
  have hcfg : t.cfg = s.cfg := h.queues.cfg
  refine .of_parts (by rw [hcfg]; exact hi.cfgWf) ?_ (fun y hy => ?_) (h.queueOk hi.queueOk)
    ?_ ?_ ?_
  · rw [show t.ch = s.ch.set c x from h.queues.ch, List.length_set, hcfg]; exact hi.chCount
  · rw [hcfg]
    rcases h.mem_ch hy with hy | rfl
    · exact hi.sound hy
    · exact hx
  · rw [show t.sel = s.sel from h.queues.sel, hcfg]; exact hi.selBits
  · rw [show t.lock = s.lock from h.queues.lock]; exact hi.lockNotEngine
  · unfold StrobesRest
    rw [show t.status = s.status from h.queues.status, show t.pins = s.pins from h.queues.pins]
    exact hi.strobesRest

theorem markReloaded_sound {g : Cfg} {x : Channel} (i : Fin 128) (h : Channel.Sound g x) :
    Channel.Sound g (markReloaded i x) := { h with }

theorem loadPatch_inv {s : State} (hi : Inv s) (n : Nat) (p : Patch) : Inv (loadPatch n p s) := by
  refine .of_parts hi.cfgWf ?_ (fun x hx => ?_)
    (queueOk_of_eq (s := s) rfl rfl rfl rfl hi.queueOk) hi.selBits hi.lockNotEngine hi.strobesRest
  · unfold loadPatch
    dsimp only
    split
    · exact hi.chCount
    · rw [List.length_map]; exact hi.chCount
  · unfold loadPatch at hx
    dsimp only at hx
    split at hx
    · exact hi.sound hx
    · obtain ⟨y, hy, rfl⟩ := List.mem_map.mp hx
      exact markReloaded_sound _ (hi.sound hy)

/-- The records after a TICK: each is an old one, or an old one that was played without a
refusal. -/
theorem execTick_next {s t : State} {now : Time} (hi : Inv s) (h : execTick now s = .next t) :
    t = s ∨ (s.status = .run ∧ ∃ u, t = endTick (flush u) ∧ OnlyPlaysAll (beginTick now s) u ∧
      QueueOk u ∧ ∀ y ∈ u.ch, ∃ x ∈ s.ch,
        y = x ∨ ((∀ r, ¬ playRefusal s x r) ∧ y = playedChannel s now x)) := by
  by_cases hr : s.status = .run ∧ s.lock = .free
  · rcases execTick_spec now hi hr.1 hr.2 with ⟨r, -, e⟩ | ⟨free, u, e, plays, hq, -, -, used, rest⟩
    · rw [e] at h; cases h
    · rw [e] at h
      cases h
      refine .inr ⟨hr.1, u, rfl, plays, hq, fun y hy => ?_⟩
      obtain ⟨c, hc, rfl⟩ := mem_ch u hy
      have hc : c < s.ch.length := by rw [plays.chCount] at hc; exact hc
      refine ⟨s.chan c, chan_mem s hc, ?_⟩
      by_cases hn : c < s.chans
      · exact .inr ⟨free c hn, used c hn⟩
      · exact .inl (rest c (by omega))
  · rw [execTick_idle now hr] at h
    cases h
    exact .inl rfl

theorem execTick_inv {s t : State} {now : Time} (hi : Inv s) (h : execTick now s = .next t) :
    Inv t := by
  rcases execTick_next hi h with rfl | ⟨hrun, u, rfl, plays, hq, records⟩
  · exact hi
  · have hf := flush_onlyFlushes u hq.slotCount
    obtain ⟨-, -, -, -, hq'⟩ := flush_spec hq
    have hcfg : (flush u).cfg = s.cfg := hf.cfg.trans plays.cfg
    have hpins : u.pins = s.pins := plays.pins
    refine .of_parts ?_ ?_ (fun y hy => ?_)
      (queueOk_of_eq (s := flush u) rfl rfl rfl rfl hq') ?_ nofun fun _ => ?_
    · exact hcfg ▸ hi.cfgWf
    · show (flush u).ch.length = (flush u).cfg.nchip
      rw [hf.ch, hcfg, plays.chCount]; exact hi.chCount
    · show Channel.Sound (flush u).cfg y
      rw [hcfg]
      obtain ⟨x, hx, rfl | ⟨-, rfl⟩⟩ := records y (hf.ch ▸ hy)
      · exact hi.sound hx
      · exact playedChannel_sound now (hi.sound hx)
    · show (flush u).sel < 2 ^ (flush u).cfg.nchip
      rw [hf.cfg]
      refine hf.selBits ?_
      rw [plays.sel, plays.cfg]; exact hi.selBits
    · obtain ⟨hstb, hclk⟩ := hi.strobesRest hrun
      exact ⟨hf.stbRests (by rw [hpins]; exact hstb), hf.clkRests (by rw [hpins]; exact hclk)⟩

/-- Every instruction keeps the invariant. -/
theorem exec_inv {i : Instr} {s t : State} (hi : Inv s) (h : exec i s = .next t) : Inv t := by
  cases exec_effect h with
  | ignored => exact hi
  | ticked now ht => exact execTick_inv hi ht
  | loaded n p => exact loadPatch_inv hi n p
  | switched b => exact hi.of_same rfl rfl rfl rfl rfl rfl rfl rfl hi.lockNotEngine
  | registers _ hw hs => exact hw.inv hi (hs (hi.sound (chan_mem s (lt_ch_length hi hw.inUse))))
  | flushed => exact flush_inv hi
  | sent _ ht hr =>
    exact hi.of_onlyTransmits (by rw [← ht.status]; exact ht.toOnlyTransmits) (ht.sel_lt hi)
      fun hrun => hr (hi.strobesRest (ht.status ▸ hrun))
  | halted _ cause ht =>
    exact hi.of_onlyTransmits (haltWith_onlyHalts cause ht.toOnlyTransmits).rest (ht.sel_lt hi)
      nofun

theorem watchdogRestart_inv {s : State} (hi : Inv s) : Inv (watchdogRestart s) :=
  resetWith_inv hi.cfgWf _ hi.selBits _ _ _ _

/-- Settles O11: the restart establishes the invariant, the scheduler's moves do not touch what it
is about, and every instruction keeps it. -/
theorem stepKeepsInvariant : Obligations.StepKeepsInvariant := by
  intro s t hi h
  rcases step_next h with ⟨rfl, -⟩ | ⟨-, lock, _, _, rfl, hl⟩ | ⟨-, i, batch, agenda, he⟩
  · exact watchdogRestart_inv hi
  · exact hi.of_same rfl rfl rfl rfl rfl rfl rfl rfl fun e => hi.lockNotEngine (hl e)
  · refine exec_inv ?_ he
    exact hi.of_same rfl rfl rfl rfl rfl rfl rfl rfl hi.lockNotEngine

/-! ### The cursors -/

theorem CursorsFit.of_same {s t : State} (h : CursorsFit s) (hp : t.patch = s.patch)
    (hch : t.ch = s.ch) : CursorsFit t := by
  rw [cursorsFit_iff, hch]
  exact fun x hx => .congr hp (h x hx)

theorem WritesChannel.cursorsFit {s t : State} {c : Nat} {x : Channel} (hw : WritesChannel s c x t)
    (h : CursorsFit s) (hx : Channel.Fits s x) : CursorsFit t := by
  refine cursorsFit_iff.mpr fun y hy => .congr (s := s) hw.queues.patch ?_
  rcases hw.mem_ch hy with hy | rfl
  · exact h y hy
  · exact hx

theorem execTick_cursorsFit {s t : State} {now : Time} (hi : Inv s) (h : CursorsFit s)
    (he : execTick now s = .next t) : CursorsFit t := by
  rcases execTick_next hi he with rfl | ⟨-, u, rfl, plays, hq, records⟩
  · exact h
  · have hf := flush_onlyFlushes u hq.slotCount
    refine cursorsFit_iff.mpr fun y hy => .congr (s := s) (hf.patch.trans plays.patch) ?_
    obtain ⟨x, hx, rfl | ⟨free, rfl⟩⟩ := records y (hf.ch ▸ hy)
    · exact h _ hx
    · exact playedChannel_fits now free (h x hx)

/-- Settles O12: TRIG leaves cursors that fit every defined Patch, TICK refuses or keeps them
fitting (`advance_fits`), and no other instruction but PLOAD writes a cursor, an instrument or the
bank. -/
theorem execKeepsCursorsFit : Obligations.ExecKeepsCursorsFit := by
  intro i s t hi h hp he
  cases exec_effect he with
  | ignored => exact h
  | ticked now ht => exact execTick_cursorsFit hi h ht
  | loaded n p => exact absurd rfl (hp n p)
  | switched b => exact h.of_same rfl rfl
  | registers _ hw _ hf =>
    exact hw.cursorsFit h (hf (h _ (chan_mem s (lt_ch_length hi hw.inUse))))
  | flushed =>
    have hf := flush_onlyFlushes s hi.slotCount
    exact h.of_same hf.patch hf.ch
  | sent _ ht _ => exact h.of_same ht.patch ht.ch
  | halted _ cause ht => exact h.of_same ht.patch ht.ch

/-! ### Reset -/

theorem boot_inv {g : Cfg} (hg : g.wf) : Inv (State.boot g) :=
  resetWith_inv hg 0 (Nat.two_pow_pos _) 0 [] [] []

/-- At power-on both traces are empty, or hold the one event of the failed board check (R271). -/
theorem boot_levelsAgree (g : Cfg) : LevelsAgree (State.boot g) := by
  refine ⟨0, ?_⟩
  unfold State.boot State.resetWith
  cases g.boardRevOk <;> exact ⟨rfl, rfl, rfl⟩

theorem standard_wf : Config.standard.wf := by decide +kernel

/-- Settles O1: the reset procedure establishes the invariant for every configuration, the standard
one among them. -/
theorem invariantHoldsAtBoot : Obligations.InvariantHoldsAtBoot :=
  ⟨fun g hg => ⟨boot_inv hg, boot_levelsAgree g⟩, boot_inv standard_wf, boot_levelsAgree _⟩

theorem boot_chan {g : Cfg} {c : Nat} (hc : c < g.nchip) :
    (State.boot g).chan c = Channel.reset g.chDefault := by
  simp [State.chan, State.boot, State.resetWith, hc]

theorem boot_slotAt (g : Cfg) (p : Nat) (k : SlotClass) : (State.boot g).slotAt p k = none := by
  have empty : (List.replicate g.nchip (PerClass.all (none : Option (Byte × Byte)))).getD p
      (PerClass.all none) = PerClass.all none := by
    rw [List.getD_eq_getElem?_getD, List.getElem?_replicate]
    split <;> rfl
  show ((State.boot g).slot.getD p (PerClass.all none)).get k = none
  rw [show (State.boot g).slot = List.replicate g.nchip (PerClass.all none) from rfl, empty,
    PerClass.get_all]

/-- What the board check decides at power-on (R271). -/
theorem boot_boardCheck (g : Cfg) :
    (g.boardRevOk = true → (State.boot g).status = .run ∧ (State.boot g).trace = [] ∧
      (State.boot g).pinTrace = []) ∧
    (g.boardRevOk = false → (State.boot g).status = .halt ∧
      (State.boot g).trace = [.halt .boardRev] ∧ (State.boot g).pinTrace = [.halt .boardRev]) := by
  unfold State.boot State.resetWith
  constructor <;> intro h <;> rw [h] <;> exact ⟨rfl, rfl, rfl⟩

/-- Settles O2, field by field from the reset procedure. -/
theorem bootLeavesResetValues : Obligations.BootLeavesResetValues := by
  intro g
  obtain ⟨passed, failed⟩ := boot_boardCheck g
  refine ⟨fun c hc => ?_, List.length_replicate .., rfl, boot_slotAt g, PerClass.get_all false, rfl,
    rfl, rfl, rfl, passed, failed, rfl, rfl⟩
  rw [boot_chan hc]
  exact ⟨rfl, rfl, fun k => ⟨PerTrack.get_all 0 k, PerTrack.get_all 0 k⟩, rfl, rfl, rfl, rfl, rfl,
    rfl, rfl, rfl, rfl, rfl, rfl⟩

end Sys2Proof.Machine

/-! PROOFS. The encoding (30_encoding.md): decoding gives back what encoding put in, what a step does
with a transaction that means nothing, and the frames that go out. The plan for the round trip: one
lemma per field of a word (class, flags, frequency, serial word, frame), then one per lane. -/

namespace Sys2Proof

/-! ### The fields of a wire command -/

/-- Distinct class codes are read back as their classes (R81). -/
theorem Layout.classOf_cls {l : Layout}
    (h : [l.cls.wave, l.cls.freq, l.cls.vol, l.cls.param].Nodup) (c : CmdClass) :
    l.classOf (l.cls.get c) = some c := by
  simp only [List.nodup_cons, List.mem_cons, List.not_mem_nil, or_false, not_or] at h
  obtain ⟨⟨wf, wv, wp⟩, ⟨fv, fp⟩, vp, -⟩ := h
  cases c <;> simp [Layout.classOf, PerCmd.get, *]

/-- A wire command is read as its class, its six low bits and its data byte, where the class carries
one or the byte is zero (R80, R82). -/
theorem decodeWire_wireBytes {l : Layout} (hl : l.readable) (c : CmdClass) (low : BitVec 6)
    {data : Byte} (hd : l.hasData.get c = true ∨ data = 0) :
    decodeWire l (wireBytes l c low data) = commandOf l c low data := by
  rw [wireBytes_eq, decodeWire]
  simp only [commandByte_cls, commandByte_low, Layout.classOf_cls hl.1]
  cases hc : l.hasData.get c with
  | true => rfl
  | false =>
    obtain rfl : data = 0 := hd.resolve_left (by simp [hc])
    rfl

/-- The high six and the low eight bits of a frequency value are the value (R85). -/
theorem freq_of_fields (f : BitVec 14) :
    (f.extractLsb' 8 6 ++ f.extractLsb' 0 8 : BitVec 14) = f :=
  (BitVec.extractLsb'_append_extractLsb'_eq_extractLsb' rfl).trans BitVec.extractLsb'_eq_self

/-- With the flag bits at 1 and 2, in either order, the beta byte holds its three fields (R88). -/
theorem betaByte_fields {l : Layout}
    (h : l.betaSignBit = 1 ∧ l.betaSatBit = 2 ∨ l.betaSignBit = 2 ∧ l.betaSatBit = 1)
    (mag : BitVec 6) (sign sat : Bool) :
    (betaByte l mag sign sat).extractLsb' 2 6 = mag ∧
    decide (betaByte l mag sign sat &&& l.betaSignBit ≠ 0) = sign ∧
    decide (betaByte l mag sign sat &&& l.betaSatBit ≠ 0) = sat := by
  unfold betaByte
  rcases h with ⟨hsign, hsat⟩ | ⟨hsign, hsat⟩
  · rw [hsign, hsat]; revert mag sign sat; decide +kernel
  · rw [hsign, hsat]; revert mag sign sat; decide +kernel

/-- The selector of beta is read as beta, and its byte as the fields it was made of (R87, R88). -/
theorem commandOf_beta {l : Layout} (hl : l.readable) (mag : BitVec 6) (sign sat : Bool) :
    commandOf l .param l.pselBeta (betaByte l mag sign sat) = .ok (.wBeta mag sign sat) := by
  obtain ⟨-, selectors, flags, -⟩ := hl
  obtain ⟨hmag, hsign, hsat⟩ := betaByte_fields flags mag sign sat
  have hne : l.pselBeta ≠ l.pselAlpha := by intro e; simp [e] at selectors
  rw [commandOf, if_neg hne, if_pos rfl, hmag, hsign, hsat]

/-- The selector of gamma is read as gamma (R87). -/
theorem commandOf_gamma {l : Layout} (hl : l.readable) (v : Byte) :
    commandOf l .param l.pselGamma v = .ok (.wGamma v) := by
  obtain ⟨-, selectors, -⟩ := hl
  have hnα : l.pselGamma ≠ l.pselAlpha := by intro e; simp [e] at selectors
  have hnβ : l.pselGamma ≠ l.pselBeta := by intro e; simp [e] at selectors
  rw [commandOf, if_neg hnα, if_neg hnβ, if_pos rfl]

/-! ### The serial word -/

/-- A number of `n` bits comes back from the bytes of a serial word (R199). -/
theorem bytesToNat_chainWord {n v : Nat} (h : v < 2 ^ n) :
    bytesToNat (natToBytes ((n + 7) / 8) v) = v := by
  have fits : 2 ^ n ≤ 256 ^ ((n + 7) / 8) := by
    rw [show 256 = 2 ^ 8 from rfl, ← Nat.pow_mul]
    exact Nat.pow_le_pow_right (by decide) (by omega)
  rw [bytesToNat_natToBytes, Nat.mod_eq_of_lt (h.trans_le fits)]

/-- With two chips or more, one chip is not every chip. -/
theorem oneHot_ne_ones {n k : Nat} (hn : 2 ≤ n) (hk : k < n) : 2 ^ k ≠ 2 ^ n - 1 := by
  have hle : 2 ^ k ≤ 2 ^ (n - 1) := Nat.pow_le_pow_right (by decide) (by omega)
  have htwo : 2 ^ 1 ≤ 2 ^ (n - 1) := Nat.pow_le_pow_right (by decide) (by omega)
  have hdouble : 2 ^ n = 2 ^ (n - 1) * 2 := by rw [← Nat.pow_succ]; congr 1; omega
  omega

theorem decodeChain_address {n k : Nat} (hn : 2 ≤ n) (hk : k < n) :
    decodeChain n (natToBytes ((n + 7) / 8) (2 ^ k)) = .ok (.address k) := by
  have hfind : ((List.range n).find? fun j => decide (2 ^ k = 2 ^ j)) = some k := by
    simp only [List.find?_range_eq_some, decide_eq_true_eq, List.mem_range]
    refine ⟨trivial, hk, fun j hj => ?_⟩
    simp [Nat.ne_of_gt hj]
  rw [decodeChain, if_neg (by simp), bytesToNat_chainWord (Nat.pow_lt_pow_right (by decide) hk),
    if_neg (oneHot_ne_ones hn hk), hfind]

theorem decodeChain_broadcast (n : Nat) :
    decodeChain n (natToBytes ((n + 7) / 8) (2 ^ n - 1)) = .ok .broadcast := by
  have hlt : 2 ^ n - 1 < 2 ^ n := Nat.sub_lt (Nat.two_pow_pos n) (by decide)
  rw [decodeChain, if_neg (by simp), bytesToNat_chainWord hlt, if_pos rfl]

/-! ### The row frame -/

/-- A row frame is read back: its length byte is not zero and its 16 words are 32 bytes (R95). -/
theorem decodeFrame_row {len : Byte} (addr : Word16) (flag : Byte) {words : List Word16}
    (hlen : len ≠ 0) (hwords : words.length = 16) :
    decodeFrame (len :: addr.extractLsb' 8 8 :: addr.extractLsb' 0 8 :: flag :: wordBytes words) =
      .ok (.rowFrame len addr flag words) := by
  have hbytes : (wordBytes words).length = 32 := by rw [wordBytes_length, hwords]
  have hne : wordBytes words ≠ [] := by intro e; simp [e] at hbytes
  rw [decodeFrame, if_neg hne, if_pos ⟨hbytes, hlen⟩, pairWords_wordBytes, word_of_bytes]

/-! ### Lane by lane -/

/-- An operation is read back with its operands, whatever they are (R92). -/
theorem decode_encode_operation (g : Cfg) {i : Instr}
    (h : (Laws.OpNumbers.number i).isSome = true) : decode g (encode g i) = .ok i := by
  cases i with
  | tick | pload | setDual | trig | rel | clri | fade | setWave | setDuty | setFreq | setAmp | setPan
  | setCut | setRes | setLink | setNote | flush | sysReset | reprog => rfl
  | wWave | wFreq | wVol | wAlpha | wBeta | wGamma | sendByte | strobePulse | address | broadcast
  | rowFrame | termFrame | statusPkt => cases h

/-- Settles O9: an operation carries its operands as they are; on every other lane the fields of the
word come back one by one. -/
theorem decodeEncodeRoundTrip : Obligations.DecodeEncodeRoundTrip := by
  intro g i hg hl hi
  obtain ⟨⟨hchips, -⟩, -⟩ := hg
  have ⟨_, _, _, waveData, freqData, paramData⟩ := hl
  cases i with
  | tick | pload | setDual | trig | rel | clri | fade | setWave | setDuty | setFreq | setAmp | setPan
  | setCut | setRes | setLink | setNote | flush | sysReset | reprog =>
    exact decode_encode_operation g rfl
  | wWave code duty =>
    exact (decodeWire_wireBytes hl .wave code (.inl waveData)).trans (if_pos hi)
  | wFreq f14 =>
    refine (decodeWire_wireBytes hl .freq _ (.inl freqData)).trans ?_
    rw [commandOf, freq_of_fields]
  | wVol v6 => exact decodeWire_wireBytes hl .vol v6 (.inr rfl)
  | wAlpha a => exact (decodeWire_wireBytes hl .param _ (.inl paramData)).trans (if_pos rfl)
  | wBeta mag sign sat =>
    exact (decodeWire_wireBytes hl .param _ (.inl paramData)).trans (commandOf_beta hl mag sign sat)
  | wGamma v =>
    exact (decodeWire_wireBytes hl .param _ (.inl paramData)).trans (commandOf_gamma hl v)
  | sendByte b => rfl
  | strobePulse d => cases d <;> rfl
  | address k => exact decodeChain_address hchips (of_decide_eq_true hi)
  | broadcast => exact decodeChain_broadcast g.nchip
  | rowFrame len addr flag words =>
    simp only [Instr.wellFormed, Bool.and_eq_true, decide_eq_true_eq] at hi
    obtain ⟨⟨hlen, -⟩, hwords⟩ := hi
    exact decodeFrame_row addr flag hlen hwords
  | termFrame => rfl
  | statusPkt => rfl

/-- Settles O10: each word is tried lane by lane in the order of log 8, and evaluating the decoder
shows the first that has a row with its bits. -/
theorem tableWordsDecode : Obligations.TableWordsDecode :=
  ⟨rfl, rfl, rfl, rfl, rfl, rfl, rfl, rfl, rfl, rfl⟩

/-! ### Transactions that mean nothing -/

/-- A number above the last operation's is rejected by name, whatever the operands (R94 (a)). -/
theorem decodeOp_reserved {n : Byte} (args : List Operand) (h : 0x12 < n.toNat) :
    decodeOp n args = .error (.reservedOperation n) := if_pos h

/-- Any other number decodes, or has the operands of another operation (log 10). -/
theorem decodeOp_cases {n : Byte} (args : List Operand) (h : n.toNat ≤ 0x12) :
    (∃ i, decodeOp n args = .ok i) ∨ decodeOp n args = .error (.badOperands n) := by
  rw [decodeOp, if_neg (Nat.not_lt.mpr h)]
  cases operation n.toNat args with
  | some i => exact .inl ⟨i, rfl⟩
  | none => exact .inr rfl

end Sys2Proof

namespace Sys2Proof.Machine

/-- The step that takes the next packet of a host section (R249). -/
theorem step_hostPacket {s : State} {p : Packet} {rest : List Packet} (hrun : s.status = .run)
    (hlock : s.lock = .host) (hbatch : s.batch = p :: rest) :
    step s = runFetched (fetchPacket { s with batch := rest } p) { s with batch := rest } := by
  simp only [step, takeTurn, hrun, hlock, hbatch]

/-- The step that takes the engine's next section of the agenda (R249, R250). -/
theorem step_enginePacket {s : State} {p : Packet} {rest : List Section} (hrun : s.status = .run)
    (hlock : s.lock = .free) (hagenda : s.agenda = .engine p :: rest) :
    step s = runFetched (fetchPacket { s with agenda := rest } p) { s with agenda := rest } := by
  simp only [step, takeTurn, hrun, hlock, hagenda]

/-- A transaction the decoder rejects is ignored (R94; log 10). -/
theorem runFetched_rejected {s : State} {p : Packet} {e : DecodeError} (hlane : p.lane = .op)
    (h : decode s.cfg p = .error e) : runFetched (fetchPacket s p) s = .next s := by
  simp only [fetchPacket, h, if_pos hlane, runFetched]

/-- A packet that decodes to an instruction runs it, begun when its time has come. -/
theorem runFetched_decoded {s : State} {p : Packet} {i : Instr} (h : decode s.cfg p = .ok i) :
    runFetched (fetchPacket s p) s = exec (started s i) s := by
  simp only [fetchPacket, h, runFetched]

/-- A setting operation has an operand outside the domain its rule states, or its Channel is not in
use (40_host_operations.md R126 (b), (c)). -/
def OutOfDomain (s : State) (i : Instr) : Prop :=
  isSetting i = true ∧ i.wellFormed s.cfg = false ∨ ∃ c, channelOperand i = some c ∧ s.chans ≤ c

/-- Then no condition holds that asks for a Channel in use and every other operand in its domain. -/
theorem OutOfDomain.excludes {s : State} {i : Instr} {c : Nat} {d : Prop} (h : OutOfDomain s i)
    (hop : channelOperand i = some c) (hc : d → c < s.chans)
    (hwf : c < s.cfg.nchip → d → i.wellFormed s.cfg = true) : ¬ d := by
  intro hd
  rcases h with ⟨-, hbad⟩ | ⟨c', hop', hle⟩
  · exact Bool.eq_false_iff.mp hbad (hwf ((hc hd).trans_le (chans_le s)) hd)
  · obtain rfl : c = c' := Option.some.inj (hop.symm.trans hop')
    exact Nat.not_lt.mpr hle (hc hd)

/-- The gate of an operation on a Channel is closed to operands outside their domain. -/
theorem hostRun_outOfDomain {s : State} {i : Instr} {c : Nat} {d : Prop} [Decidable d] (e : State)
    (h : OutOfDomain s i) (hop : channelOperand i = some c) (hc : d → c < s.chans)
    (hwf : c < s.cfg.nchip → d → i.wellFormed s.cfg = true) : hostRun s d e = .next s :=
  hostRun_ignored e fun ⟨_, hd⟩ => h.excludes hop hc hwf hd

/-- SETDUAL with an operand outside 0 and 1 is ignored (R111, R126). -/
theorem execSetDual_ignored {s : State} {b : Int} (h : ¬ (b = 0 ∨ b = 1)) :
    execSetDual b s = .next s := by
  rw [execSetDual, if_neg fun ⟨_, _, hb, _⟩ => h hb]
  exact hostRun_ignored _ fun ⟨_, hb⟩ => h hb

/-- TRIG with an operand outside its domain is ignored (R112, R126). -/
theorem execTrig_ignored {s : State} {c i : Nat} (h : ¬ (c < s.chans ∧ i ≤ 127)) :
    execTrig c i s = .next s := by
  rw [execTrig, if_neg fun ⟨_, _, hci, _⟩ => h hci]
  exact hostRun_ignored _ fun ⟨_, hci⟩ => h hci

/-- A setting operation with an operand outside its domain, or a Channel not in use, leaves the state
as it was (40_host_operations.md R126). -/
theorem exec_outOfDomain {s : State} {i : Instr} (h : OutOfDomain s i) : exec i s = .next s := by
  cases i with
  | pload n p =>
    obtain ⟨-, hn⟩ | ⟨_, ⟨⟩, -⟩ := h
    exact hostRun_ignored _ fun ⟨_, hle⟩ => of_decide_eq_false hn hle
  | setDual b =>
    obtain ⟨-, hb⟩ | ⟨_, ⟨⟩, -⟩ := h
    exact execSetDual_ignored (of_decide_eq_false hb)
  | trig c n =>
    exact execTrig_ignored (h.excludes rfl And.left fun hc hd => decide_eq_true ⟨hc, hd.2⟩)
  | rel c | clri c | setWave c w =>
    exact hostRun_outOfDomain _ h rfl id fun hc _ => decide_eq_true hc
  | fade c | setDuty c | setFreq c | setAmp c | setPan c | setCut c | setRes c | setLink c
  | setNote c =>
    exact hostRun_outOfDomain _ h rfl And.left fun hc hd => decide_eq_true ⟨hc, hd.2⟩
  | tick | flush | sysReset | reprog | wWave | wFreq | wVol | wAlpha | wBeta | wGamma | sendByte
  | strobePulse | address | broadcast | rowFrame | termFrame | statusPkt =>
    obtain ⟨⟨⟩, -⟩ | ⟨_, ⟨⟩, -⟩ := h

/-- Only TICK waits for its time. -/
theorem OutOfDomain.started {s : State} {i : Instr} (h : OutOfDomain s i) : started s i = i := by
  cases i with
  | tick => obtain ⟨⟨⟩, -⟩ | ⟨_, ⟨⟩, -⟩ := h
  | _ => rfl

/-- A packet of such an operation is taken and has no effect. -/
theorem runFetched_outOfDomain {s : State} {p : Packet} {i : Instr} (hp : decode s.cfg p = .ok i)
    (h : OutOfDomain s i) : runFetched (fetchPacket s p) s = .next s := by
  rw [runFetched_decoded hp, h.started]
  exact exec_outOfDomain h

/-- Settles O6: the decoder names what it rejects, and a step that takes a rejected transaction, or
an operation outside its domain, changes nothing after taking it. -/
theorem reservedOperationNumbersIgnored : Obligations.ReservedOperationNumbersIgnored := by
  refine ⟨fun g n args => ⟨decodeOp_reserved args, decodeOp_cases args⟩, ?_, ?_, ?_⟩
  · intro s p e rest hrun hlock hbatch hlane he
    rw [step_hostPacket hrun hlock hbatch]
    exact runFetched_rejected hlane he
  · intro s p e rest hrun hlock hagenda hlane he
    rw [step_enginePacket hrun hlock hagenda]
    exact runFetched_rejected hlane he
  · intro s p i rest hrun hlock hbatch hi hout
    rw [step_hostPacket hrun hlock hbatch]
    exact runFetched_outOfDomain hi hout

/-! ### What the frames and the status packet send -/

/-- The high byte of a word is its quotient by 256 (R62 (d)). -/
theorem highByte_eq (w : Word16) : w.extractLsb' 8 8 = BitVec.ofNat 8 (w.toNat / 256) := by
  apply BitVec.eq_of_toNat_eq
  simp [Nat.shiftRight_eq_div_pow]

/-- The low byte of a word is its remainder by 256 (R62 (d)). -/
theorem lowByte_eq (w : Word16) : w.extractLsb' 0 8 = BitVec.ofNat 8 (w.toNat % 256) := by
  apply BitVec.eq_of_toNat_eq
  simp

/-- The words of a row, low byte first (R95). -/
theorem wordBytes_eq_flatMap (ws : List Word16) :
    wordBytes ws = ws.flatMap fun w =>
      [BitVec.ofNat 8 (w.toNat % 256), BitVec.ofNat 8 (w.toNat / 256)] := by
  induction ws with
  | nil => rfl
  | cons w ws ih => simp [wordBytes, lowByte_eq, highByte_eq, ih]

/-- The bytes of a row frame: length, address high and low, write flag, words (R95, R226). -/
theorem frameBytes_eq (len : Byte) (a : Word16) (flag : Byte) (ws : List Word16) :
    frameBytes len a flag ws =
      [len, BitVec.ofNat 8 (a.toNat / 256), BitVec.ofNat 8 (a.toNat % 256), flag] ++
        ws.flatMap fun w => [BitVec.ofNat 8 (w.toNat % 256), BitVec.ofNat 8 (w.toNat / 256)] := by
  rw [frameBytes, highByte_eq, lowByte_eq, wordBytes_eq_flatMap]
  rfl

/-- Bytes that HOST sends go out after the `Select` that a changed chain asks for; nothing else
changes but pins and traces (R195, R205). -/
theorem hostRun_sendBytes {s : State} (h : HostHolds s) {bs : List Byte} (hne : bs ≠ []) :
    ∃ t, hostRun s True (sendBytes bs s) = .next t ∧ OnlyTransmits s t ∧ t.sel = s.sel ∧
      t.trace = s.trace ++ s.unshown ++ bs.map Event.byte :=
  ⟨sendBytes bs s, hostRun_run _ h trivial, sendBytes_onlyTransmits bs s, by rw [sendBytes_eq],
    by simp only [sendBytes_eq, if_neg hne]⟩

/-- Settles O40: both frames are runs of bytes, and the status packet is one event at both levels. -/
theorem framesAndStatusGoOut : Obligations.FramesAndStatusGoOut := by
  intro s h
  refine ⟨fun len a flag ws => ?_, hostRun_sendBytes h (List.cons_ne_nil _ _), ?_⟩
  · rw [← frameBytes_eq]
    exact hostRun_sendBytes h (List.cons_ne_nil _ _)
  · exact ⟨emit statusEvent s, hostRun_run _ h trivial, emit_onlyTransmits _ s, rfl, rfl, rfl⟩

end Sys2Proof.Machine

/-! PROOFS. The host operations (40_host_operations.md R110 to R124). The plan: most operations
write the registers of one Channel, and most of these then run the encoder of one track. `Encoded`
says once what that leaves (the record, the filled slots, the flags, the frame); one lemma per wire
command reads its bytes off the slots; each statement puts the gate, `Encoded` and the command
together. -/

namespace Sys2Proof.Machine

/-! ### The gate -/

/-- Without lock or RUN no instruction but TICK has an effect (40_host_operations.md R126). -/
theorem exec_without_lock {i : Instr} {s : State} (h : ¬ HostHolds s) (hi : ∀ now, i ≠ .tick now) :
    exec i s = .next s := by
  have closed : ∀ {d : Prop}, ¬ (HostHolds s ∧ d) := fun hd => h hd.1
  cases i with
  | tick now => exact absurd rfl (hi now)
  | setDual b =>
    rw [exec, execSetDual, if_neg fun ⟨hrun, hlock, _⟩ => h ⟨hrun, hlock⟩]
    exact hostRun_ignored _ closed
  | trig c n =>
    rw [exec, execTrig, if_neg fun ⟨hrun, hlock, _⟩ => h ⟨hrun, hlock⟩]
    exact hostRun_ignored _ closed
  | pload | rel | clri | fade | setWave | setDuty | setFreq | setAmp | setPan | setCut | setRes
  | setLink | setNote | flush | sysReset | reprog | wWave | wFreq | wVol | wAlpha | wBeta | wGamma
  | sendByte | strobePulse | address | broadcast | rowFrame | termFrame | statusPkt =>
    exact hostRun_ignored _ closed

/-- Settles O4: the gate of the host operations is closed, and so is TICK's. -/
theorem nothingRunsWithoutRunAndLock : Obligations.NothingRunsWithoutRunAndLock := by
  refine ⟨fun i s hhalt => ?_, fun i s hlock hi => exec_without_lock (fun hh => hlock hh.2) hi,
    fun now s hlock => execTick_idle now fun hh => hlock hh.2⟩
  have notRun : s.status ≠ .run := by rw [hhalt]; nofun
  by_cases hi : ∃ now, i = .tick now
  · obtain ⟨now, rfl⟩ := hi
    exact execTick_idle now fun hh => notRun hh.1
  · exact exec_without_lock (fun hh => notRun hh.1) fun now e => hi ⟨now, e⟩

/-- Settles O17, by `exec_outOfDomain`: no gate is open to such an operand. -/
theorem outOfDomainOperationsIgnored : Obligations.OutOfDomainOperationsIgnored :=
  fun _ _ h => exec_outOfDomain h

/-- A Channel not in use, or an operand beyond one of its bounds, fails the gate's condition. -/
theorem not_inBounds {α : Type} [LinearOrder α] {c n : Nat} {x lo hi : α}
    (h : n ≤ c ∨ x < lo ∨ hi < x) : ¬ (c < n ∧ lo ≤ x ∧ x ≤ hi) := by
  rintro ⟨hc, hlo, hhi⟩
  rcases h with h | h | h
  · exact Nat.not_lt.mpr h hc
  · exact not_lt.mpr hlo h
  · exact not_lt.mpr hhi h

/-! ### PLOAD -/

theorem loadPatch_patchAt (i j : Fin 128) (p : Patch) (s : State) :
    (loadPatch i.val p s).patchAt j = if j = i then p else s.patchAt j := by
  show (s.patch.setIfInBounds i.val p)[j.val] = if j = i then p else s.patch[j.val]
  rw [Vector.getElem_setIfInBounds]
  simp only [Fin.ext_iff, eq_comm]

/-- The mark PLOAD leaves on a Channel: set where it plays the Patch and the new one differs
(log 13). -/
theorem loadPatch_chan_eq (i : Fin 128) (p : Patch) (s : State) (c : Nat) :
    (loadPatch i.val p s).chan c =
      { s.chan c with
        reloaded := (s.chan c).reloaded ||
          decide ((s.chan c).instrument = some i ∧ s.patchAt i ≠ p) } := by
  unfold loadPatch
  rw [Fin.ofNat_val_eq_self]
  by_cases h : s.patchAt i = p
  · simp only [h, if_true, ne_eq, not_true_eq_false, and_false, decide_false, Bool.or_false]
    rfl
  · rw [if_neg h]
    refine (chan_map_markReloaded s i c).trans ?_
    simp only [markReloaded, ne_eq, h, not_false_eq_true, and_true]

theorem loadPatch_ch_length (n : Nat) (p : Patch) (s : State) :
    (loadPatch n p s).ch.length = s.ch.length := by
  unfold loadPatch
  dsimp only
  split
  · rfl
  · exact List.length_map ..

/-- R110's corner case: an equal Patch changes nothing. -/
theorem loadPatch_self (i : Fin 128) (s : State) : loadPatch i.val (s.patchAt i) s = s := by
  have same : s.patch.setIfInBounds i.val (s.patchAt i) = s.patch := by
    refine Vector.ext fun j hj => ?_
    rw [Vector.getElem_setIfInBounds]
    split
    · subst j; rfl
    · rfl
  unfold loadPatch
  rw [Fin.ofNat_val_eq_self, if_pos rfl, same]

/-- Settles O18, from what `loadPatch` does to the bank and to the marks. -/
theorem ploadStoresThePatch : Obligations.PloadStoresThePatch := by
  refine ⟨fun s i p hh => ?_, fun s i => ?_, fun s i p hi => ?_, fun _ _ => rfl⟩
  · exact ⟨loadPatch i.val p s, hostRun_run _ hh (Nat.le_of_lt_succ i.isLt), rfl,
      fun j => loadPatch_patchAt i j p s, loadPatch_ch_length _ p s, loadPatch_chan_eq i p s⟩
  · rcases hostRun_cases s (i.val ≤ 127) (loadPatch i.val (s.patchAt i) s) with
      ⟨-, -, ran⟩ | ⟨-, ignored⟩
    · exact ran.trans (congrArg _ (loadPatch_self i s))
    · exact ignored
  · exact hostRun_ignored _ fun ⟨_, hle⟩ => Nat.not_lt.mpr hle hi

/-! ### SETDUAL -/

/-- The condition of U5: a Channel is live or fading, or a slot is pending. -/
theorem busy_iff (s : State) :
    s.busy = true ↔
      (∃ x ∈ s.ch, x.instrument ≠ none ∨ x.fadeLength ≠ 0) ∨ ∃ p k, s.slotAt p k ≠ none := by
  have pending : (∃ v ∈ s.slot, ∃ k, v.get k ≠ none) ↔ ∃ p k, s.slotAt p k ≠ none := by
    constructor
    · rintro ⟨v, hv, k, hk⟩
      obtain ⟨p, hp, rfl⟩ := List.getElem_of_mem hv
      exact ⟨p, k, by simpa [State.slotAt, hp] using hk⟩
    · rintro ⟨p, k, hk⟩
      by_cases hp : p < s.slot.length
      · exact ⟨s.slot[p], List.getElem_mem hp, k, by simpa [State.slotAt, hp] using hk⟩
      · simp [State.slotAt, hp] at hk
  rw [← pending]
  simp [State.busy, Option.isSome_iff_ne_none]

/-- SETDUAL on a busy block is refused (U5). -/
theorem execSetDual_busy {s : State} {b : Int} (hh : HostHolds s) (hb : b = 0 ∨ b = 1)
    (h : s.busy = true) : execSetDual b s = .refused .dualChangeWhileBusy :=
  if_pos ⟨hh.1, hh.2, hb, h⟩

/-- SETDUAL on an idle block sets the mode (R111). -/
theorem execSetDual_idle {s : State} {b : Int} (hh : HostHolds s) (hb : b = 0 ∨ b = 1)
    (h : s.busy ≠ true) : execSetDual b s = .next { s with dual := decide (b = 1) } := by
  rw [execSetDual, if_neg fun ⟨_, _, _, busy⟩ => h busy]
  exact hostRun_run _ hh hb

/-- Settles O19: the block is idle or busy, and SETDUAL looks at nothing else. -/
theorem setDualSwitchesTheIdleBlock : Obligations.SetDualSwitchesTheIdleBlock := by
  refine ⟨fun s b hh hb quiet empty => ?_,
    fun s b hh hb h => execSetDual_busy hh hb ((busy_iff s).mpr h)⟩
  have idle : s.busy ≠ true := by
    rw [ne_eq, busy_iff]
    rintro (⟨x, hx, live | fading⟩ | ⟨p, k, hk⟩)
    · exact live (quiet x hx).1
    · exact fading (quiet x hx).2
    · exact hk (empty p k)
  have sets := execSetDual_idle hh hb idle
  refine ⟨sets, ?_, fun same => sets.trans ?_⟩
  · simp only [State.chans, decide_eq_true_eq]
  · rw [← same]

/-! ### Writing a Channel and running its encoder -/

theorem chan_setChan_self {s : State} {c : Nat} (hi : Inv s) (hc : c < s.chans) (x : Channel) :
    (s.setChan c x).chan c = x := by
  rw [chan_setChan _ _ _ _ (lt_ch_length hi hc), if_pos rfl]

/-- A register write alone queues nothing. -/
theorem setChan_onlyWrites (s : State) (c : Nat) (x : Channel) :
    OnlyWrites s (s.setChan c x) c [] [] := by
  constructor
  case otherChannels => exact fun d hd => chan_setChan_ne s x hd
  all_goals intros; rfl

/-- The registers of Channel `c` have become `x`, and the encoder of track `k` has run: its classes
wait for the Channel's chips, and nothing else has changed (42 R170 to R176, 41 R149). -/
structure Encoded (s t : State) (c : Nat) (x : Channel) (k : Track) : Prop where
  chan : t.chan c = x
  slots : ∀ j ∈ trackClasses s.dual k, ∀ p ∈ s.chips c, t.slotAt p j = some (slotBytes s c x j p)
  dirty : ∀ j ∈ trackClasses s.dual k, t.dirty.get j = true
  changed : ∀ j ∈ trackClasses s.dual k, t.changed = true
  frame : OnlyWrites s t c (s.chips c) (trackClasses s.dual k)

/-- An encoder with a class to queue raises `changed`; one without leaves it (R170). -/
theorem updTrack_changed (k : Track) (c : Nat) (s : State) :
    (updTrack k c s).changed = (s.changed || decide (trackClasses s.dual k ≠ [])) := by
  have vol : (updVol c s).changed = true := by
    unfold updVol
    dsimp only
    split <;> rfl
  have one : ∀ (j : SlotClass) (b0 b1 : Byte),
      (enqueueAll (s.chips c) j b0 b1 s).changed = true :=
    fun j b0 b1 => (enqueueAll_dirty _ j b0 b1 s (chips_ne_nil s c)).2
  have filter : (updFilter c s).changed = true :=
    (foldl_enqueueFilter_dirty _ _ _ _ s (chips_ne_nil s c)).2
  cases k with
  | volume => exact vol.trans (by simp [trackClasses])
  | pan =>
    show (if s.dual = true then updVol c s else s).changed = _
    cases hd : s.dual <;> simp [trackClasses, vol]
  | frequency => exact (one _ _ _).trans (by simp [trackClasses])
  | duty => exact (one _ _ _).trans (by simp [trackClasses])
  | cutoff => exact filter.trans (by simp [trackClasses])
  | resonance => exact filter.trans (by simp [trackClasses])

/-- A write to a Channel in use with one track's encoder after it. -/
theorem updTrack_encoded {s : State} {c : Nat} (hi : Inv s) (hc : c < s.chans) (x : Channel)
    (k : Track) : Encoded s (updTrack k c (s.setChan c x)) c x k := by
  have queues := updTrack_onlyQueues k c (s.setChan c x)
  have stored := chan_setChan_self hi hc x
  have slots : ∀ p j, (updTrack k c (s.setChan c x)).slotAt p j =
      if p ∈ s.chips c ∧ j ∈ trackClasses s.dual k then some (slotBytes s c x j p)
      else s.slotAt p j := by
    intro p j
    rw [updTrack_slotAt k (s := s.setChan c x) (chips_lt hi hc), stored]
    rfl
  have dirty := updTrack_dirty k c (s.setChan c x)
  have changed := updTrack_changed k c (s.setChan c x)
  refine ⟨(queues.chan c).trans stored, fun j hj p hp => ?_, fun j hj => ?_, fun j hj => ?_,
    queues.cfg, queues.patch, queues.lock, queues.dual, queues.now, queues.nextTick, queues.pins,
    queues.sel, queues.selShown, queues.trace, queues.pinTrace, queues.status, queues.batch,
    queues.agenda, fun d hd => (queues.chan d).trans (chan_setChan_ne s x hd), fun p j h => ?_,
    fun j hj => ?_, fun none => ?_⟩
  · rw [slots, if_pos ⟨hp, hj⟩]
  · rw [dirty]; exact Bool.or_eq_true_iff.mpr (.inr (decide_eq_true hj))
  · rw [changed]
    exact Bool.or_eq_true_iff.mpr (.inr (decide_eq_true (List.ne_nil_of_mem hj)))
  · rw [slots, if_neg fun both => h.elim (· both.1) (· both.2)]
  · rw [dirty]; simp [hj]
  · rw [changed]; simp [none]

/-- A host operation of that shape, its operands in their domains. -/
theorem hostRun_encoded {s : State} {c : Nat} {x : Channel} {k : Track} {d : Prop} [Decidable d]
    (hi : Inv s) (hh : HostHolds s) (hc : c < s.chans) (hd : d) :
    ∃ t, Encoded s t c x k ∧ hostRun s d (updTrack k c (s.setChan c x)) = .next t :=
  ⟨_, updTrack_encoded hi hc x k, hostRun_run _ hh hd⟩

/-! ### The bytes of each wire command -/

/-- A nonnegative number that fits its register is the register's value. -/
theorem toNat_ofInt_of_lt {n : Nat} {z : Int} (h0 : 0 ≤ z) (h : z < 2 ^ n) :
    ((BitVec.ofInt n z).toNat : Int) = z := by
  rw [BitVec.toNat_ofInt, Int.emod_eq_of_lt h0 (by exact_mod_cast h), Int.toNat_of_nonneg h0]

/-- The command byte of a class: the class code above six low bits (30_encoding.md R80). -/
theorem firstByte_toNat (g : Cfg) (k : CmdClass) (low : BitVec 6) :
    (firstByte g k low).toNat = 64 * (g.layout.cls.get k).toNat + low.toNat :=
  commandByte_toNat _ _

/-- One command for every chip of the Channel. -/
theorem Encoded.queued {s t : State} {c : Nat} {x : Channel} {k : Track} (h : Encoded s t c x k)
    {j : SlotClass} (hj : j ∈ trackClasses s.dual k) {b0 b1 : Byte}
    (hb : ∀ p, slotBytes s c x j p = (b0, b1)) : Queued s t c j b0 b1 :=
  ⟨fun p hp => (h.slots j hj p hp).trans (congrArg some (hb p)), h.dirty j hj, h.changed j hj⟩

/-- The duty encoder queues W.WAVE of the Channel's wave type and duty (R172). -/
theorem Encoded.wave {s t : State} {c : Nat} {x : Channel} (h : Encoded s t c x .duty)
    (hd : inUnit x.duty) : WaveQueued s t c x.waveType x.duty :=
  ⟨_, _, h.queued (.head _) fun _ => rfl, firstByte_toNat _ _ _,
    by simpa using floorBits_unit (n := 8) (m := 255) hd (by norm_num)⟩

/-- `F14` as a number (R173). -/
theorem freq14_toNat {g : Cfg} (hg : 0 ≤ g.freqMult) (f : Word16) :
    ((freq14 g f).toNat : Int) = min ((f.toNat : ℚ) * g.freqMult).floor 16383 := by
  have h0 : 0 ≤ ((f.toNat : ℚ) * g.freqMult).floor :=
    Int.floor_nonneg.mpr (mul_nonneg (Nat.cast_nonneg _) hg)
  exact toNat_ofInt_of_lt (le_min h0 (by norm_num)) ((min_le_right _ _).trans_lt (by norm_num))

/-- The high six bits of a frequency value are its quotient by 256 (30_encoding.md R85). -/
theorem freqHigh_toNat (f : BitVec 14) : (f.extractLsb' 8 6).toNat = f.toNat / 256 := by
  have := f.isLt
  rw [BitVec.extractLsb'_toNat, Nat.shiftRight_eq_div_pow]
  omega

/-- The low eight bits of a frequency value are its remainder (30_encoding.md R85). -/
theorem freqLow_toNat (f : BitVec 14) : (f.extractLsb' 0 8).toNat = f.toNat % 256 := by
  rw [BitVec.extractLsb'_toNat, Nat.shiftRight_zero]

/-- The frequency encoder queues W.FREQ (R173). -/
theorem Encoded.freq {s t : State} {c : Nat} {x : Channel} (h : Encoded s t c x .frequency)
    (hg : 0 ≤ s.cfg.freqMult) {f : Int} (hf : (x.frequency.toNat : Int) = f) :
    FrequencyQueued s t c f := by
  have value := freq14_toNat hg x.frequency
  rw [show (x.frequency.toNat : ℚ) = (f : ℚ) by rw [← hf, Int.cast_natCast]] at value
  refine ⟨_, _, h.queued (.head _) fun _ => rfl, ?_, ?_⟩
  · rw [firstByte_toNat, freqHigh_toNat, ← value]
    push_cast
    rfl
  · rw [freqLow_toNat, ← value]
    push_cast
    rfl

/-- The W.VOL byte of an amplitude (30_encoding.md R86). -/
theorem volByte_toNat (g : Cfg) {a : ℚ} (h : inUnit a) :
    ((volByte g a).toNat : Int) = 64 * g.layout.cls.vol.toNat + (a * 63).floor := by
  have low := floorBits_unit (n := 6) (m := 63) h (by norm_num)
  rw [volByte, firstByte_toNat]
  push_cast at low ⊢
  rw [low]
  rfl

/-- An encoder that writes VOL queues W.VOL of the Channel's amplitude and pan (R174). -/
theorem Encoded.vol {s t : State} {c : Nat} {x : Channel} {k : Track} (h : Encoded s t c x k)
    (hi : Inv s) (hc : c < s.chans) (hk : .vol ∈ trackClasses s.dual k) (ha : inUnit x.amplitude) :
    VolumeQueued s t c x.amplitude x.pan := by
  have slots := h.slots .vol hk
  refine ⟨h.dirty .vol hk, h.changed .vol hk, fun plain => ?_, fun dual => ?_⟩
  · have slot := slots c (by simp [State.chips, plain])
    simp only [slotBytes, plain, Bool.false_eq_true, if_false] at slot
    exact ⟨_, slot, volByte_toNat _ ha⟩
  · have left := slots (s.cfg.chipL.getD c 0) (by simp [State.chips, dual])
    have right := slots (s.cfg.chipR.getD c 0) (by simp [State.chips, dual])
    simp only [slotBytes, dual, if_true, if_neg (chipL_ne_chipR hi hc dual)] at left right
    obtain ⟨hl, hr⟩ := panLaw_unit x.amplitude x.pan
    exact ⟨_, _, left, right, volByte_toNat _ hl, volByte_toNat _ hr⟩

/-- An encoder that writes the three filter classes queues them all (R176). -/
theorem Encoded.filter {s t : State} {c : Nat} {x : Channel} {k : Track} (h : Encoded s t c x k)
    (hk : trackClasses s.dual k = [.alpha, .beta, .gamma]) :
    FilterQueued s t c x.cutoff.toNat x.resonance :=
  ⟨_, _, _, h.queued (j := .alpha) (by simp [hk]) fun _ => rfl,
    h.queued (j := .beta) (by simp [hk]) fun _ => rfl,
    h.queued (j := .gamma) (by simp [hk]) fun _ => rfl,
    firstByte_toNat _ _ _, firstByte_toNat _ _ _, firstByte_toNat _ _ _⟩

/-- A Channel in use has its registers in their ranges (I5). -/
theorem Inv.chan_sound {s : State} (hi : Inv s) {c : Nat} (hc : c < s.chans) :
    Channel.Sound s.cfg (s.chan c) := hi.sound (chan_mem s (lt_ch_length hi hc))

/-! ### Notes -/

/-- TRIG of an undefined Patch is refused (U14). -/
theorem execTrig_refused {s : State} {c : Nat} {i : Fin 128} (hh : HostHolds s) (hc : c < s.chans)
    (hd : Patch.defined (s.patchAt i) = false) :
    execTrig c i.val s = .refused .patchNotDefined := by
  rw [execTrig, Fin.ofNat_val_eq_self]
  exact if_pos ⟨hh.1, hh.2, ⟨hc, Nat.le_of_lt_succ i.isLt⟩, hd⟩

/-- TRIG of a defined Patch writes the Channel and queues its wave type (R112). -/
theorem execTrig_runs {s : State} {c : Nat} {i : Fin 128} (hh : HostHolds s) (hc : c < s.chans)
    (hd : Patch.defined (s.patchAt i) = true) :
    execTrig c i.val s =
      .next (updTrack .duty c (s.setChan c (triggered i (s.patchAt i).waveType (s.chan c)))) := by
  rw [execTrig, Fin.ofNat_val_eq_self, if_neg fun ⟨_, _, _, hn⟩ => by simp [hd] at hn]
  exact hostRun_run _ hh ⟨hc, Nat.le_of_lt_succ i.isLt⟩

/-- Settles O20: TRIG is a write of the Channel with the duty encoder after it. -/
theorem trigInstallsThePatch : Obligations.TrigInstallsThePatch := by
  refine ⟨fun s c i hi hh hc hd => ?_, fun s c i hh hc hd => execTrig_refused hh hc hd⟩
  have encoded := updTrack_encoded hi hc (triggered i (s.patchAt i).waveType (s.chan c)) .duty
  exact ⟨_, execTrig_runs hh hc hd, encoded.chan, encoded.wave (hi.chan_sound hc).duty,
    encoded.frame⟩

/-- REL of a live Channel marks it released (R113). -/
theorem execRel_live {s : State} {c : Nat} (hh : HostHolds s) (hc : c < s.chans)
    (h : (s.chan c).instrument ≠ none) :
    execRel c s = .next (s.setChan c { s.chan c with released := true }) := by
  rw [execRel, if_pos (Option.isSome_iff_ne_none.mpr h)]
  exact hostRun_run _ hh hc

/-- REL of any other Channel silences it (R113); Quant keeps 0. -/
theorem execRel_silent {s : State} {c : Nat} (hh : HostHolds s) (hc : c < s.chans)
    (h : (s.chan c).instrument = none) :
    execRel c s = .next (updTrack .volume c (s.setChan c { s.chan c with amplitude := 0 })) := by
  rw [execRel, if_neg (by simp [h]), quantise_zero]
  exact hostRun_run _ hh hc

/-- Settles O21: a live Channel is only written, any other runs the volume encoder. -/
theorem relReleasesOrSilences : Obligations.RelReleasesOrSilences := by
  refine ⟨fun s c hi hh hc live => ?_, fun s c hi hh hc silent => ?_⟩
  · exact ⟨_, execRel_live hh hc live, chan_setChan_self hi hc _, setChan_onlyWrites _ _ _⟩
  · have encoded := updTrack_encoded hi hc { s.chan c with amplitude := 0 } .volume
    exact ⟨_, execRel_silent hh hc silent, encoded.chan,
      encoded.vol hi hc (.head _) ⟨le_refl _, zero_le_one⟩, encoded.frame⟩

/-- A TICK passes over a Channel with neither instrument nor fade (41_envelope_engine.md R141). -/
theorem execTick_idleChannel {s t : State} {c : Nat} {now : Time} (hi : Inv s)
    (hn : (s.chan c).instrument = none) (hf : (s.chan c).fadeLength = 0)
    (h : execTick now s = .next t) : t.chan c = s.chan c := by
  by_cases hr : s.status = .run ∧ s.lock = .free
  · rcases execTick_spec now hi hr.1 hr.2 with ⟨r, -, e⟩ | ⟨-, u, e, -, hq, -, -, used, rest⟩
    · rw [e] at h; cases h
    · rw [e] at h
      cases h
      have kept : (endTick (flush u)).chan c = u.chan c := by
        unfold State.chan
        rw [endTick_ch, (flush_onlyFlushes u hq.slotCount).ch]
      rw [kept]
      by_cases hc : c < s.chans
      · rw [used c hc, playedChannel, hn]
        exact if_pos hf
      · exact rest c (Nat.not_lt.mp hc)
  · rw [execTick_idle now hr] at h
    cases h
    rfl

/-- Settles O22: CLRI is one register write, and a Channel without instrument is written back as it
is. -/
theorem clriClearsTheInstrument : Obligations.ClriClearsTheInstrument := by
  refine ⟨fun s c hi hh hc => ?_, fun s c hi hn => ?_,
    fun s c h => hostRun_ignored _ fun ⟨_, hc⟩ => Nat.not_lt.mpr h hc, fun _ => rfl,
    fun s t c now hi hn hf h => execTick_idleChannel hi hn hf h⟩
  · exact ⟨_, hostRun_run _ hh hc, chan_setChan_self hi hc _, setChan_onlyWrites _ _ _, rfl, rfl⟩
  · rcases hostRun_cases s (c < s.chans) (s.setChan c { s.chan c with instrument := none }) with
      ⟨-, hc, ran⟩ | ⟨-, ignored⟩
    · refine ran.trans (congrArg _ ?_)
      rw [← hn]
      exact setChan_self s c (lt_ch_length hi hc)
    · exact ignored

/-- Settles O23: FADE is one register write, with the operand `now` seen on the counter. -/
theorem fadeArmsAFade : Obligations.FadeArmsAFade := by
  refine ⟨fun s c init len dir now hi hh hc hinit hlen hlen' hdir => ?_,
    fun s c init len dir now h => hostRun_ignored _ ?_⟩
  · refine ⟨_, hostRun_run _ hh ⟨hc, hinit, ⟨hlen, hlen'⟩, hdir⟩, chan_setChan_self hi hc _, ?_,
      rfl, rfl, setChan_onlyWrites { s with now := if s.now ≤ now then now else s.now } c _⟩
    refine (congrArg (fun x : Channel => (x.fadeLength.toNat : Int))
      (chan_setChan_self hi hc _)).trans ?_
    exact toNat_ofInt_of_lt (by omega) (by omega)
  · rintro ⟨-, hc, ⟨h0, h1⟩, ⟨hlen, hlen'⟩, hdir⟩
    rcases h with h | h | h | h | h | ⟨hd, hu⟩
    · omega
    · exact not_lt.mpr h0 h
    · exact not_lt.mpr h1 h
    · omega
    · omega
    · exact hdir.elim hd hu

/-! ### Parameter registers -/

/-- Settles O24: SETWAVE is a register write with the duty encoder after it. -/
theorem setWaveQueuesTheWave : Obligations.SetWaveQueuesTheWave := by
  refine ⟨fun s c w hi hh hc => ?_,
    fun s c w h => hostRun_ignored _ fun ⟨_, hc⟩ => Nat.not_lt.mpr h hc, fun _ _ => rfl⟩
  obtain ⟨t, encoded, runs⟩ : ∃ t,
      Encoded s t c { s.chan c with waveType := w } .duty ∧
      exec (.setWave c w) s = .next t := hostRun_encoded hi hh hc hc
  exact ⟨t, runs, encoded.chan, encoded.wave (hi.chan_sound hc).duty, encoded.frame⟩

/-- Settles O25; Quant keeps the duty in 0..1. -/
theorem setDutyQueuesTheWave : Obligations.SetDutyQueuesTheWave := by
  refine ⟨fun s c d hi hh hc hd => ?_,
    fun s c d h => hostRun_ignored _ fun ⟨_, hd⟩ => not_inBounds h hd, fun _ _ => rfl⟩
  obtain ⟨t, encoded, runs⟩ : ∃ t,
      Encoded s t c { s.chan c with duty := quantise s.cfg d } .duty ∧
      exec (.setDuty c d) s = .next t :=
    hostRun_encoded hi hh hc ⟨hc, hd⟩
  exact ⟨t, runs, encoded.chan, encoded.wave (quantise_unit _ hd), encoded.frame⟩

/-- Settles O26; a frequency in 0..65535 is stored as it is. -/
theorem setFreqQueuesTheFrequency : Obligations.SetFreqQueuesTheFrequency := by
  refine ⟨fun s c f hi hh hc h0 h1 => ?_,
    fun s c f h => hostRun_ignored _ fun ⟨_, hf⟩ => not_inBounds h hf, fun _ _ => rfl⟩
  obtain ⟨t, encoded, runs⟩ : ∃ t,
      Encoded s t c { s.chan c with frequency := BitVec.ofInt 16 f } .frequency ∧
      exec (.setFreq c f) s = .next t :=
    hostRun_encoded hi hh hc ⟨hc, h0, h1⟩
  have stored : ((BitVec.ofInt 16 f).toNat : Int) = f := toNat_ofInt_of_lt h0 (by omega)
  obtain ⟨-, -, positive, -⟩ := hi.cfgWf
  exact ⟨t, runs, encoded.chan, by rw [encoded.chan]; exact stored,
    encoded.freq positive.le stored, encoded.frame⟩

/-- Settles O27; Quant keeps the amplitude in 0..1. -/
theorem setAmpQueuesTheVolume : Obligations.SetAmpQueuesTheVolume := by
  refine ⟨fun s c a hi hh hc ha => ?_,
    fun s c a h => hostRun_ignored _ fun ⟨_, ha⟩ => not_inBounds h ha, fun _ _ => rfl⟩
  obtain ⟨t, encoded, runs⟩ : ∃ t,
      Encoded s t c { s.chan c with amplitude := quantise s.cfg a } .volume ∧
      exec (.setAmp c a) s = .next t :=
    hostRun_encoded hi hh hc ⟨hc, ha⟩
  exact ⟨t, runs, encoded.chan, encoded.vol hi hc (.head _) (quantise_unit _ ha), encoded.frame⟩

/-- SETPAN in plain mode is one register write (R120). -/
theorem execSetPan_plain {s : State} {c : Nat} {p : ℚ} (hh : HostHolds s) (hc : c < s.chans)
    (hp : inSigned p) (plain : s.dual = false) :
    execSetPan c p s = .next (s.setChan c { s.chan c with pan := quantise s.cfg p }) :=
  (hostRun_run _ hh ⟨hc, hp⟩).trans (congrArg _ (if_neg (by simp [plain])))

/-- Settles O28: the pan encoder writes VOL in dual mode and nothing in plain mode. -/
theorem setPanQueuesOnlyInDualMode : Obligations.SetPanQueuesOnlyInDualMode := by
  refine ⟨fun s c p hi hh hc hp plain => ?_, fun s c p hi hh hc hp dual => ?_,
    fun s c p h => hostRun_ignored _ fun ⟨_, hp⟩ => not_inBounds h hp, fun _ _ => rfl⟩
  · exact ⟨_, execSetPan_plain hh hc hp plain, chan_setChan_self hi hc _, rfl, rfl,
      setChan_onlyWrites _ _ _⟩
  · obtain ⟨t, encoded, runs⟩ : ∃ t,
        Encoded s t c { s.chan c with pan := quantise s.cfg p } .pan ∧
        exec (.setPan c p) s = .next t :=
      hostRun_encoded hi hh hc ⟨hc, hp⟩
    have classes : trackClasses s.dual .pan = [.vol] := by rw [dual]; rfl
    exact ⟨t, runs, encoded.chan,
      encoded.vol hi hc (by simp [classes]) (hi.chan_sound hc).amplitude, classes ▸ encoded.frame⟩

/-- Settles O29; a cutoff within CUTOFF_MAX is stored as it is. -/
theorem setCutQueuesTheFilter : Obligations.SetCutQueuesTheFilter := by
  refine ⟨fun s c hz hi hh hc h0 h1 => ?_,
    fun s c hz h => hostRun_ignored _ fun ⟨_, hhz⟩ => not_inBounds h hhz, fun _ _ => rfl⟩
  obtain ⟨t, encoded, runs⟩ : ∃ t,
      Encoded s t c { s.chan c with cutoff := BitVec.ofInt 16 hz } .cutoff ∧
      exec (.setCut c hz) s = .next t :=
    hostRun_encoded hi hh hc ⟨hc, h0, h1⟩
  obtain ⟨-, -, -, -, ⟨-, fits⟩, -⟩ := hi.cfgWf
  have stored : ((BitVec.ofInt 16 hz).toNat : Int) = hz := toNat_ofInt_of_lt h0 (by omega)
  have filter : FilterQueued s t c hz.toNat (s.chan c).resonance := by
    rw [← show (BitVec.ofInt 16 hz).toNat = hz.toNat by omega]
    exact encoded.filter rfl
  refine ⟨t, runs, encoded.chan, by rw [encoded.chan]; exact stored, fun top => ?_, filter,
    encoded.frame⟩
  have bypass : hz.toNat = s.cfg.cutoffMax := by omega
  exact ⟨if_pos bypass, if_pos bypass⟩

/-- Settles O30: SETRES is a register write with the filter encoder after it. -/
theorem setResQueuesTheFilter : Obligations.SetResQueuesTheFilter := by
  refine ⟨fun s c r hi hh hc hr => ?_,
    fun s c r h => hostRun_ignored _ fun ⟨_, hr⟩ => not_inBounds h hr, fun _ _ => rfl⟩
  obtain ⟨t, encoded, runs⟩ : ∃ t,
      Encoded s t c { s.chan c with resonance := quantise s.cfg r } .resonance ∧
      exec (.setRes c r) s = .next t :=
    hostRun_encoded hi hh hc ⟨hc, hr⟩
  exact ⟨t, runs, encoded.chan, encoded.filter rfl, encoded.frame⟩

/-- Settles O31: SETLINK is one register write. -/
theorem setLinkStoresTheLink : Obligations.SetLinkStoresTheLink := by
  refine ⟨fun s c l hi hh hc hl => ?_, fun s c l h => hostRun_ignored _ ?_⟩
  · exact ⟨_, hostRun_run _ hh ⟨hc, hl⟩, chan_setChan_self hi hc _, rfl, rfl,
      setChan_onlyWrites _ _ _⟩
  · rintro ⟨-, hc, hl⟩
    rcases h with h | ⟨x, rfl, hx⟩
    · exact Nat.not_lt.mpr h hc
    · exact Nat.not_lt.mpr hx (hl x rfl)

/-- Settles O32: SETNOTE is one register write. -/
theorem setNoteStoresTheNote : Obligations.SetNoteStoresTheNote := by
  refine ⟨fun s c n hi hh hc h0 h1 => ?_,
    fun s c n h => hostRun_ignored _ fun ⟨_, hn⟩ => not_inBounds h hn⟩
  have stored := chan_setChan_self hi hc { s.chan c with note := Fin.ofNat 128 n.toNat }
  refine ⟨_, hostRun_run _ hh ⟨hc, h0, h1⟩, ?_, by rw [stored], rfl, rfl, setChan_onlyWrites _ _ _⟩
  rw [stored, Fin.val_ofNat, Nat.mod_eq_of_lt (by omega), Int.toNat_of_nonneg h0]

end Sys2Proof.Machine

/-! PROOFS. The function `advance` (41_envelope_engine.md R144 to R153): one equation per branch, the
bounds of the interpolation, and what a run of calls does. The plan: between two marked points the
run climbs the envelope tick by tick (`advanceRun_climbs`); it then arrives at the last point, where
it holds, or at the loop's end, where it is set back. -/

namespace Sys2Proof.Machine

/-! ### One call -/

/-- The cursor holds: it stands at the sustain point of a note not released, or at the last point
(R144). -/
abbrev HoldsAt (e : Envelope) (i : Nat) (r : Bool) : Prop :=
  (i = e.sustainIndex.toNat ∧ r = false) ∨ i = Envelope.count e - 1

/-- Arriving at point `i` of a note not released sets the cursor back to the loop's start (R146). -/
abbrev LoopsAt (e : Envelope) (i : Nat) (r : Bool) : Prop :=
  i = e.loopEnd.toNat ∧ e.loopStart.toNat < 12 ∧ r = false

/-- The value at tick `t` on the line from point `i` to the next, rounded (R147). -/
def interpolated (m : RoundMode) (e : Envelope) (i t : Nat) : Int :=
  Envelope.y e i +
    roundQuotient m ((Envelope.y e (i + 1) - Envelope.y e i) * ((t : Int) - Envelope.x e i))
      ((Envelope.x e (i + 1) : Int) - Envelope.x e i)

section Branches
variable {m : RoundMode} {e : Envelope} {t i : Nat} {r : Bool}

theorem advance_holds (h : HoldsAt e i r) : advance m e t i r = (t, i, Envelope.y e i) := if_pos h

theorem advance_loops (h : ¬ HoldsAt e i r) (hx : Envelope.x e (i + 1) ≤ t + 1)
    (hl : LoopsAt e (i + 1) r) :
    advance m e t i r =
      (Envelope.x e e.loopStart.toNat, e.loopStart.toNat, Envelope.y e e.loopStart.toNat) := by
  rw [advance, if_neg h, if_pos hx, if_pos hl]

theorem advance_arrives (h : ¬ HoldsAt e i r) (hx : Envelope.x e (i + 1) ≤ t + 1)
    (hl : ¬ LoopsAt e (i + 1) r) :
    advance m e t i r = (t + 1, i + 1, Envelope.y e (i + 1)) := by
  rw [advance, if_neg h, if_pos hx, if_neg hl]

theorem advance_interpolates (h : ¬ HoldsAt e i r) (hx : t + 1 < Envelope.x e (i + 1)) :
    advance m e t i r = (t + 1, i, interpolated m e i (t + 1)) := by
  rw [advance, if_neg h, if_neg (Nat.not_le.mpr hx), interpolated]
  push_cast
  rfl

end Branches

/-- Settles O49, branch by branch. -/
theorem advanceBranches : Obligations.AdvanceBranches := fun _ _ _ _ _ =>
  ⟨advance_holds, fun h hx => ⟨advance_loops h hx, advance_arrives h hx⟩⟩

/-! ### The interpolation -/

/-- Every rounding takes the floor of the quotient or its ceiling. -/
theorem roundQuotient_eq (m : RoundMode) (n : Int) {q : Int} (hq : 0 < q) :
    roundQuotient m n q = n / q ∨ roundQuotient m n q = -(-n / q) := by
  cases m with
  | toZero =>
    rcases Int.le_total 0 n with hn | hn
    · exact .inl (Int.tdiv_eq_ediv_of_nonneg hn)
    · refine .inr ?_
      rw [← Int.tdiv_eq_ediv_of_nonneg (by omega : 0 ≤ -n), Int.neg_tdiv, neg_neg]
      rfl
  | down => exact .inl (Int.fdiv_eq_ediv_of_nonneg n hq.le)
  | up => exact .inr (congrArg Neg.neg (Int.fdiv_eq_ediv_of_nonneg (-n) hq.le))

/-- A rounded quotient stays between whole numbers that bound the quotient. -/
theorem roundQuotient_mem (m : RoundMode) {n q lo hi : Int} (hq : 0 < q) (hlo : lo * q ≤ n)
    (hhi : n ≤ hi * q) : lo ≤ roundQuotient m n q ∧ roundQuotient m n q ≤ hi := by
  have within : ∀ {a b k : Int}, a * q ≤ k → k ≤ b * q → a ≤ k / q ∧ k / q ≤ b := fun ha hb =>
    ⟨(Int.le_ediv_iff_mul_le hq).mpr ha, Int.ediv_le_of_le_mul hq hb⟩
  rcases roundQuotient_eq m n hq with floor | ceiling
  · rw [floor]
    exact within hlo hhi
  · obtain ⟨h1, h2⟩ := within (a := -hi) (b := -lo) (k := -n) (by linarith) (by linarith)
    rw [ceiling]
    omega

/-- At a point's own tick the line has the point's value. -/
theorem interpolated_self (m : RoundMode) (e : Envelope) (i : Nat) :
    interpolated m e i (Envelope.x e i) = Envelope.y e i := by
  have zero : ∀ q, roundQuotient m 0 q = 0 := by
    intro q
    cases m <;> simp [roundQuotient]
  rw [interpolated, sub_self, mul_zero, zero, add_zero]

/-- Between two points the line stays between their values (R148). -/
theorem interpolated_between (m : RoundMode) {e : Envelope} {i t : Nat}
    (h0 : Envelope.x e i ≤ t) (h1 : t < Envelope.x e (i + 1)) :
    min (Envelope.y e i) (Envelope.y e (i + 1)) ≤ interpolated m e i t ∧
    interpolated m e i t ≤ max (Envelope.y e i) (Envelope.y e (i + 1)) := by
  unfold interpolated
  generalize Envelope.y e i = y0, Envelope.y e (i + 1) = y1
  have hp : (0 : Int) ≤ (t : Int) - Envelope.x e i := by omega
  have hpq : (t : Int) - Envelope.x e i ≤ (Envelope.x e (i + 1) : Int) - Envelope.x e i := by omega
  have hq : (0 : Int) < (Envelope.x e (i + 1) : Int) - Envelope.x e i := by omega
  generalize (t : Int) - Envelope.x e i = p at hp hpq
  generalize (Envelope.x e (i + 1) : Int) - Envelope.x e i = q at hpq hq
  rcases Int.le_total y0 y1 with rises | falls
  · obtain ⟨low, high⟩ := roundQuotient_mem m (n := (y1 - y0) * p) (lo := 0) (hi := y1 - y0) hq
      (by rw [zero_mul]; exact mul_nonneg (by omega) hp) (mul_le_mul_of_nonneg_left hpq (by omega))
    omega
  · obtain ⟨low, high⟩ := roundQuotient_mem m (n := (y1 - y0) * p) (lo := y1 - y0) (hi := 0) hq
      (mul_le_mul_of_nonpos_left hpq (by omega))
      (by rw [zero_mul]; exact mul_nonpos_of_nonpos_of_nonneg (by omega) hp)
    omega

/-- Settles O50: the branch that interpolates, and the bounds of the line. -/
theorem interpolationStaysBetweenThePoints : Obligations.InterpolationStaysBetweenThePoints := by
  intro m e t i r hold h0 h1
  rw [advance_interpolates hold h1]
  exact ⟨rfl, rfl, interpolated_between m (Nat.le_succ_of_le h0) h1⟩

/-! ### A run of calls -/

/-- Ticks that rise from point to point rise over any distance. -/
theorem strictBetween.lt {e : Envelope} {a b i j : Nat} (h : strictBetween e a b) (hi : a ≤ i)
    (hij : i < j) (hj : j ≤ b) : Envelope.x e i < Envelope.x e j := by
  induction j, hij using Nat.le_induction with
  | base => exact h i hi (by omega)
  | succ j hij ih => exact (ih (by omega)).trans (h j (by omega) (by omega))

/-- Points are found by their ticks: no point lies strictly between a point and its successor. -/
theorem strictBetween.le_of_lt {e : Envelope} {a b i j : Nat} (h : strictBetween e a b)
    (hi : i ≤ b) (hj : a ≤ j) (hx : Envelope.x e i < Envelope.x e (j + 1)) : i ≤ j := by
  by_contra hij
  rcases Nat.eq_or_lt_of_le (Nat.lt_of_not_le hij) with rfl | hlt
  · exact lt_irrefl _ hx
  · exact lt_asymm hx (h.lt (by omega) hlt hi)

section Run
variable {r : RoundMode} {e : Envelope} {a b : Nat}

/-- One more call. -/
theorem advanceRun_succ {released : Bool} {t i n t' i' : Nat} {v : Int}
    (h : advanceRun r e released t i n = (t', i', v)) :
    advanceRun r e released t i (n + 1) = advance r e t' i' released := by
  rw [advanceRun, h]

/-- From point `a`, and before point `b`, a held note climbs the envelope tick by tick where no point
holds and no loop ends: the cursor stands on the segment its tick lies in. -/
theorem advanceRun_climbs (hab : a < b) (rises : strictBetween e a b)
    (free : ∀ j, a ≤ j → j < b → ¬ HoldsAt e j false)
    (straight : ∀ j, a ≤ j → j + 1 < b → ¬ LoopsAt e (j + 1) false) (n : Nat)
    (hn : Envelope.x e a + n < Envelope.x e b) :
    ∃ j, (a ≤ j ∧ j < b) ∧
      (Envelope.x e j ≤ Envelope.x e a + n ∧ Envelope.x e a + n < Envelope.x e (j + 1)) ∧
      advanceRun r e false (Envelope.x e a) a n =
        (Envelope.x e a + n, j, interpolated r e j (Envelope.x e a + n)) := by
  induction n with
  | zero =>
    refine ⟨a, ⟨le_refl a, hab⟩, ⟨le_refl _, rises a (le_refl a) hab⟩, ?_⟩
    rw [Nat.add_zero, interpolated_self, advanceRun]
  | succ n ih =>
    obtain ⟨j, ⟨haj, hjb⟩, ⟨hlo, hhi⟩, run⟩ := ih (by omega)
    rw [advanceRun_succ run]
    by_cases arrives : Envelope.x e (j + 1) ≤ Envelope.x e a + n + 1
    · have tick : Envelope.x e a + n + 1 = Envelope.x e (j + 1) := by omega
      have below : j + 1 < b := by
        by_contra last
        rw [show j + 1 = b by omega] at tick
        omega
      refine ⟨j + 1, ⟨by omega, below⟩, ⟨by omega, ?_⟩, ?_⟩
      · rw [← Nat.add_assoc, tick]
        exact rises (j + 1) (by omega) below
      · rw [advance_arrives (free j haj hjb) arrives (straight j haj below), ← Nat.add_assoc, tick,
          interpolated_self]
    · exact ⟨j, ⟨haj, hjb⟩, ⟨by omega, by omega⟩,
        advance_interpolates (free j haj hjb) (by omega)⟩

/-- The call after that climb starts on the last segment, one tick before point `b`. -/
theorem advanceRun_reaches (hab : a < b) (rises : strictBetween e a b)
    (free : ∀ j, a ≤ j → j < b → ¬ HoldsAt e j false)
    (straight : ∀ j, a ≤ j → j + 1 < b → ¬ LoopsAt e (j + 1) false) :
    ∃ t j, (a ≤ j ∧ j + 1 = b) ∧ t + 1 = Envelope.x e b ∧
      advanceRun r e false (Envelope.x e a) a (Envelope.x e b - Envelope.x e a) =
        advance r e t j false := by
  have up := rises.lt (le_refl a) hab (le_refl b)
  obtain ⟨n, hn⟩ : ∃ n, Envelope.x e b - Envelope.x e a = n + 1 :=
    ⟨Envelope.x e b - Envelope.x e a - 1, by omega⟩
  obtain ⟨j, ⟨haj, hjb⟩, ⟨-, hhi⟩, run⟩ :=
    advanceRun_climbs (r := r) hab rises free straight n (by omega)
  refine ⟨Envelope.x e a + n, j, ⟨haj, ?_⟩, by omega, by rw [hn, advanceRun_succ run]⟩
  by_contra short
  have := rises.lt (i := j + 1) (by omega) (by omega : j + 1 < b) (le_refl b)
  omega

/-- Once at the last point, a run stays there (R145). -/
theorem advanceRun_stays {released : Bool} {t i m m' : Nat} (hm : m ≤ m') {t' : Nat}
    (h : advanceRun r e released t i m =
      (t', Envelope.count e - 1, Envelope.y e (Envelope.count e - 1))) :
    advanceRun r e released t i m' =
      (t', Envelope.count e - 1, Envelope.y e (Envelope.count e - 1)) := by
  induction m', hm using Nat.le_induction with
  | base => exact h
  | succ m' _ ih => rw [advanceRun_succ ih, advance_holds (.inr rfl)]

end Run

/-- Settles O52: the climb from the loop's start, then the call that arrives at its end. -/
theorem loopCyclesWhileHeld : Obligations.LoopCyclesWhileHeld := by
  intro r e defined hab hcount rises sustain
  obtain ⟨hmax, -⟩ := Envelope.defined_spec defined
  have free : ∀ j, e.loopStart.toNat ≤ j → j < e.loopEnd.toNat → ¬ HoldsAt e j false := by
    rintro j hj hjb (⟨rfl, -⟩ | last) <;> omega
  obtain ⟨t, j, ⟨hj, hjb⟩, ht, run⟩ := advanceRun_reaches (r := r) hab rises free
    fun j _ hjb ⟨at_end, _⟩ => by omega
  rw [run]
  exact advance_loops (free j hj (by omega)) (by rw [hjb, ht]) ⟨hjb, by omega, rfl⟩

/-- Settles O51: the climb from the first point, then the arrival at the last, which holds. -/
theorem advanceIsPiecewiseLinear : Obligations.AdvanceIsPiecewiseLinear := by
  intro r e m defined hcount rises noSustain noLoop
  obtain ⟨hmax, -, start, -⟩ := Envelope.defined_spec defined
  have start := start hcount
  have hab : 0 < Envelope.count e - 1 := by omega
  have free : ∀ j, 0 ≤ j → j < Envelope.count e - 1 → ¬ HoldsAt e j false := by
    rintro j - hj (⟨rfl, -⟩ | last) <;> omega
  have straight : ∀ j, ¬ LoopsAt e (j + 1) false := fun j ⟨_, loop, _⟩ => by omega
  rcases Nat.lt_or_ge m (Envelope.x e (Envelope.count e - 1)) with before | after
  · obtain ⟨j, ⟨-, hj⟩, ⟨hlo, hhi⟩, run⟩ := advanceRun_climbs (r := r) hab rises free
      (fun j _ _ => straight j) m (by omega)
    simp only [start, Nat.zero_add] at hlo hhi run
    rw [run]
    refine ⟨by omega, fun k hk klo khi => ?_, fun h => absurd before (Nat.not_lt.mpr h)⟩
    have same : j = k := le_antisymm
      (rises.le_of_lt (by omega) k.zero_le (by omega))
      (rises.le_of_lt (by omega) j.zero_le (by omega))
    rw [same, interpolated]
  · obtain ⟨t, j, ⟨hj, hjb⟩, ht, reached⟩ := advanceRun_reaches (r := r) hab rises free
      fun j _ _ => straight j
    rw [advance_arrives (free j hj (by omega)) (by rw [hjb, ht]) (straight j), hjb, ht, start,
      Nat.sub_zero] at reached
    rw [advanceRun_stays after reached]
    refine ⟨by omega, fun k hk _ khi => ?_, fun _ => rfl⟩
    have : Envelope.count e - 1 ≤ k := rises.le_of_lt (le_refl _) k.zero_le (by omega)
    omega

end Sys2Proof.Machine

/-! PROOFS. The engine operation TICK (41_envelope_engine.md R140 to R152): when the next may begin, when
there is nothing to do, when it is refused and when it completes. The plan: what a pass that answers
has done is said once (`trackPass_ok`, `channelPass_ok`), and the period timer is followed through the
passes from any state; a TICK is refused exactly where a Channel is not `Playable`. -/

namespace Sys2Proof.Machine

open Host (Outcome)

/-! ### The passes of a TICK that answers -/

/-- A TICK that answers has made its passes and flushed the queue. -/
theorem execTick_passes {s t : State} {now : Time} (hr : s.status = .run) (hl : s.lock = .free)
    (h : execTick now s = .next t) :
    ∃ q, channelPasses now (List.range s.chans) (beginTick now s) = .ok q ∧
      t = endTick (flush q) := by
  rw [execTick, if_pos ⟨hr, hl⟩] at h
  split at h
  · cases h
    exact ⟨_, ‹_›, rfl⟩
  · cases h

/-- The second of two writes of one record is the one that stays. -/
theorem setChan_setChan (s : State) (c : Nat) (x y : Channel) :
    (s.setChan c x).setChan c y = s.setChan c y := by
  rw [State.setChan, State.setChan, State.setChan, List.set_set]

/-- One track's pass writes the static value once, or writes the Channel and runs the encoder (R142,
R143). -/
theorem trackPass_ok {c : Nat} {p : Patch} {k : Track} {s t : State}
    (h : trackPass c p k s = .ok t) :
    (Envelope.count (p.env.get k) = 0 ∧ t = zeroPoint c k s) ∨
    (0 < Envelope.count (p.env.get k) ∧ ∃ x, t = updTrack k c (s.setChan c x)) := by
  unfold trackPass at h
  dsimp only at h
  split at h
  · cases h
    exact .inl ⟨‹_›, rfl⟩
  · rename_i hk
    split at h
    · cases h
    · split at h
      · cases h
      · cases h
        exact .inr ⟨Nat.pos_of_ne_zero hk, _, congrArg (updTrack k c) (setChan_setChan s c _ _)⟩

/-- One Channel's pass is the envelope pass, or one tick of a fade, or nothing (R141). -/
theorem channelPass_ok {now : Time} {c : Nat} {s t : State} (h : channelPass now c s = .ok t) :
    (∃ i u, (s.chan c).instrument = some i ∧
      trackPasses c (s.patchAt i) Track.all s = .ok u ∧ t = terminate c (s.patchAt i) u) ∨
    ((s.chan c).instrument = none ∧ (s.chan c).fadeLength = 0 ∧ t = s) ∨
    ((s.chan c).instrument = none ∧ (s.chan c).fadeLength ≠ 0 ∧ t = fadePass c now s) := by
  unfold channelPass at h
  split at h
  · rename_i i hi
    unfold envPass at h
    split at h
    · cases h
    · split at h
      · cases h
        exact .inl ⟨i, _, hi, ‹_›, rfl⟩
      · cases h
  · rename_i hn
    split at h <;> cases h
    · exact .inr (.inl ⟨hn, ‹_›, rfl⟩)
    · exact .inr (.inr ⟨hn, ‹_›, rfl⟩)

/-! ### The period timer -/

theorem zeroPoint_nextTick (c : Nat) (k : Track) (s : State) :
    (zeroPoint c k s).nextTick = s.nextTick := by
  unfold zeroPoint
  split
  · exact (updTrack_onlyQueues k c s).nextTick
  · rfl

theorem trackPasses_nextTick {c : Nat} {p : Patch} {ks : List Track} {s t : State}
    (h : trackPasses c p ks s = .ok t) : t.nextTick = s.nextTick := by
  induction ks generalizing s with
  | nil => cases h; rfl
  | cons k ks ih =>
    unfold trackPasses at h
    split at h
    · rename_i u hu
      refine (ih h).trans ?_
      rcases trackPass_ok hu with ⟨-, rfl⟩ | ⟨-, x, rfl⟩
      · exact zeroPoint_nextTick c k s
      · exact (updTrack_onlyQueues k c _).nextTick
    · cases h

theorem terminate_nextTick (c : Nat) (p : Patch) (s : State) :
    (terminate c p s).nextTick = s.nextTick := by
  unfold terminate
  split
  · exact (updWave_onlyQueues c _).nextTick
  · rfl

theorem fadePass_nextTick (c : Nat) (now : Time) (s : State) :
    (fadePass c now s).nextTick = s.nextTick := by
  unfold fadePass
  dsimp only
  split
  · exact (updVol_onlyQueues c _).nextTick
  · exact (updVol_onlyQueues c _).nextTick

theorem channelPasses_nextTick {now : Time} {cs : List Nat} {s t : State}
    (h : channelPasses now cs s = .ok t) : t.nextTick = s.nextTick := by
  induction cs generalizing s with
  | nil => cases h; rfl
  | cons c cs ih =>
    unfold channelPasses at h
    split at h
    · rename_i u hu
      refine (ih h).trans ?_
      rcases channelPass_ok hu with ⟨i, v, -, passes, rfl⟩ | ⟨-, -, rfl⟩ | ⟨-, -, rfl⟩
      · exact (terminate_nextTick c _ v).trans (trackPasses_nextTick passes)
      · rfl
      · exact fadePass_nextTick c now s
    · cases h

theorem flushSlot_nextTick (k : SlotClass) (s : State) (p : Nat) :
    (flushSlot k s p).nextTick = s.nextTick := by
  unfold flushSlot
  split
  · rfl
  · exact ((address_transmits p s).trans (sendBytes_transmits _ _)).nextTick

theorem flushClass_nextTick (s : State) (k : SlotClass) :
    (flushClass s k).nextTick = s.nextTick := by
  unfold flushClass
  split
  · exact List.foldlRecOn (motive := fun t : State => t.nextTick = s.nextTick) _ (flushSlot k) rfl
      fun t ht p _ => (flushSlot_nextTick k t p).trans ht
  · rfl

theorem flush_nextTick (s : State) : (flush s).nextTick = s.nextTick := by
  unfold flush
  split
  · exact List.foldlRecOn (motive := fun t : State => t.nextTick = s.nextTick) _ flushClass rfl
      fun t ht k _ => (flushClass_nextTick t k).trans ht
  · rfl

/-- Settles O8: whose turn it is, when an offered TICK begins (`startTime_spec`), and that only
`beginTick` sets the period timer. -/
theorem engineTicksOncePerPeriod : Obligations.EngineTicksOncePerPeriod := by
  refine ⟨fun s hr hl ha => ?_, fun s p rest now hr hl ha hd => ?_, fun s t now hr hl room h => ?_⟩
  · simp only [step, takeTurn, hr, hl, ha]
  · have turn : step s = runFetched (fetchPacket { s with agenda := rest } p)
        { s with agenda := rest } := by
      simp only [step, takeTurn, hr, hl, ha]
    have fetched : fetchPacket { s with agenda := rest } p = .run (.tick (startTime s now)) := by
      simp only [fetchPacket, hd]
      rfl
    exact ⟨startTime s now, turn.trans (by rw [fetched]; rfl), startTime_spec s now⟩
  · obtain ⟨q, passes, rfl⟩ := execTick_passes hr hl h
    rw [endTick_nextTick, flush_nextTick, channelPasses_nextTick passes, beginTick_nextTick]
    exact nextStart_toNat s.now room

/-! ### Nothing to play -/

theorem channelPasses_idle {now : Time} {cs : List Nat} {s : State}
    (h : ∀ c ∈ cs, (s.chan c).instrument = none ∧ (s.chan c).fadeLength = 0) :
    channelPasses now cs s = .ok s := by
  induction cs with
  | nil => rfl
  | cons c cs ih =>
    obtain ⟨silent, still⟩ := h c (.head _)
    have pass : channelPass now c s = .ok s := by
      rw [channelPass, silent]
      exact congrArg Except.ok (if_pos still)
    rw [channelPasses, pass]
    exact ih fun d hd => h d (.tail _ hd)

/-- Settles O54: every pass is empty and there is nothing to flush. -/
theorem tickWithNothingToPlay : Obligations.TickWithNothingToPlay := by
  intro s now hr hl hc quiet
  have passes : channelPasses now (List.range s.chans) (beginTick now s) =
      .ok (beginTick now s) :=
    channelPasses_idle fun c hm => quiet c (List.mem_range.mp hm)
  have empty : flush (beginTick now s) = beginTick now s := if_neg (by simp [hc])
  refine ⟨endTick (beginTick now s), ?_, ?_⟩
  · show execTick now s = _
    rw [execTick, if_pos ⟨hr, hl⟩, passes]
    exact congrArg (fun u => Outcome.next (endTick u)) empty
  · simp only [endTick, beginTick, observeTime, hl]

/-! ### Refusals -/

theorem trackRefusal_eq_none {g : Cfg} {p : Patch} {k : Track} {x : Channel} :
    trackRefusal g p k x = none ↔ (0 < Envelope.count (p.env.get k) →
      cursorFits (p.env.get k) x.reloaded (x.tick.get k).toNat (x.point.get k).val = true ∧
      (advance g.roundQ (p.env.get k) (x.tick.get k).toNat (x.point.get k).val x.released).1
        ≤ 65535) := by
  unfold trackRefusal
  split
  · simp [*]
  · split
    · simp [*, Nat.pos_iff_ne_zero]
    · split
      · simp [*, Nat.pos_iff_ne_zero]
      · simp_all [Nat.pos_iff_ne_zero]

/-- A Channel refuses no TICK exactly when TICK can run it (R142, R148). -/
theorem playable_iff {s : State} {x : Channel} : Playable s x ↔ ∀ r, ¬ playRefusal s x r := by
  constructor
  · rintro h r ⟨i, hi, ⟨hd, -⟩ | ⟨-, k, hk⟩⟩
    · rw [(h i hi).1] at hd
      cases hd
    · rw [trackRefusal_eq_none.mpr ((h i hi).2 k)] at hk
      cases hk
  · intro h i hi
    have defined : Patch.defined (s.patchAt i) = true := by
      by_contra hd
      exact h _ ⟨i, hi, .inl ⟨by simpa using hd, rfl⟩⟩
    refine ⟨defined, fun k => trackRefusal_eq_none.mp ?_⟩
    by_contra hk
    obtain ⟨r, hk⟩ := Option.ne_none_iff_exists'.mp hk
    exact h r ⟨i, hi, .inr ⟨defined, k, hk⟩⟩

/-- The three names under which TICK is refused (U1 to U4, U6). -/
theorem playRefusal_names {s : State} {x : Channel} {r : Refusal} (h : playRefusal s x r) :
    r = .patchNotDefined ∨ r = .cursorDoesNotFit ∨ r = .tickCursorOverflow := by
  obtain ⟨i, -, ⟨-, rfl⟩ | ⟨-, k, hk⟩⟩ := h
  · exact .inl rfl
  · unfold trackRefusal at hk
    split at hk
    · cases hk
    · split at hk
      · cases hk; exact .inr (.inl rfl)
      · split at hk
        · cases hk; exact .inr (.inr rfl)
        · cases hk

/-- Settles O59: a Channel of which the premise holds is not playable, so TICK is not answered. -/
theorem tickRefusesWhatTheSpecLeavesOpen : Obligations.TickRefusesWhatTheSpecLeavesOpen := by
  intro s now c i hi hr hl hc live premise
  rcases execTick_spec now hi hr hl with ⟨r, ⟨d, -, refused⟩, e⟩ | ⟨free, -⟩
  · exact ⟨r, e, playRefusal_names refused⟩
  · obtain ⟨defined, tracks⟩ := playable_iff.mpr (free c hc) i live
    rcases premise with undefined | ⟨k, hk, unfit⟩
    · rw [defined] at undefined
      cases undefined
    · obtain ⟨fits, below⟩ := tracks k hk
      obtain ⟨inside, reached⟩ := cursorFits_iff.mp fits
      rcases unfit with outside | ⟨early, asked⟩ | overflow
      · omega
      · rcases reached with reached | ⟨one, start, fresh⟩
        · omega
        · rcases asked with two | moved | replaced
          · omega
          · exact absurd (BitVec.eq_of_toNat_eq start) moved
          · rw [fresh] at replaced
            cases replaced
      · omega

/-- Settles O53: no Channel refuses, and the flush leaves the queue empty (R191). -/
theorem tickCompletes : Obligations.TickCompletes := by
  intro s now hi hr hl playable
  rcases execTick_spec now hi hr hl with ⟨r, ⟨c, hc, refused⟩, -⟩ |
    ⟨-, u, e, plays, hq, -, -, -, frozen⟩
  · exact absurd refused (playable_iff.mp (playable c hc) r)
  · have flushes := flush_onlyFlushes u hq.slotCount
    obtain ⟨-, slots, dirty, changed, -⟩ := flush_spec hq
    exact ⟨_, e, rfl, (flushes.status.trans plays.status).trans hr, slots, dirty, changed,
      flushes.patch.trans plays.patch, flushes.dual.trans plays.dual,
      flushes.cfg.trans plays.cfg, flushes.batch.trans plays.batch,
      flushes.agenda.trans plays.agenda, fun c hc => (flushes.chan c).trans (frozen c hc)⟩

end Sys2Proof.Machine

/-! PROOFS. What a TICK leaves in the Channels' records and what it reports (41_envelope_engine.md R142
to R151). The plan: `exec_ticked` says once what a TICK that answers has done; each track owns a part
of a record that no other track's pass touches (`trackChannels_part`), so the record after the pass
is read off one track's pass; and the `Done` events are those the records tell of
(`playedEvents_eq`). -/

namespace Sys2Proof.Machine

/-! ### The part of a record that belongs to one track -/

/-- The parameter register of a track, as a number (R149's table). -/
def Channel.register (x : Channel) : Track → ℚ
  | .volume => x.amplitude
  | .pan => x.pan
  | .frequency => x.frequency.toNat
  | .duty => x.duty
  | .cutoff => x.cutoff.toNat
  | .resonance => x.resonance

/-- What `storeEnvValue` leaves in the register of a track. -/
def envRegister (g : Cfg) (v : Int) : Track → ℚ
  | .volume => quantise g (clampRat (envFraction g v) 0 1)
  | .pan => quantise g (clampRat (envFraction g v) (-1) 1)
  | .frequency => (BitVec.ofInt 16 (clampInt v 0 65535)).toNat
  | .duty => quantise g (clampRat (envFraction g v) 0 1)
  | .cutoff => (BitVec.ofInt 16 (clampInt v 0 g.cutoffMax)).toNat
  | .resonance => quantise g (clampRat (envFraction g v) 0 1)

theorem storeEnvValue_register (g : Cfg) (k j : Track) (v : Int) (x : Channel) :
    (storeEnvValue g k v x).register j = if j = k then envRegister g v k else x.register j := by
  cases k <;> cases j <;> rfl

/-- A clamped integer is stored in its 16-bit register as it is (R149). -/
theorem clampInt_stored (v : Int) {hi : Nat} (h : hi ≤ 65535) :
    ((BitVec.ofInt 16 (clampInt v 0 hi)).toNat : Int) = clampInt v 0 hi := by
  obtain ⟨h0, h1⟩ := clampInt_mem (x := v) (Int.natCast_nonneg hi)
  exact toNat_ofInt_of_lt h0 (by omega)

/-- The cursors and the register of one track. -/
def Channel.part (x : Channel) (k : Track) : Word16 × Fin 12 × ℚ :=
  (x.tick.get k, x.point.get k, x.register k)

/-- The register after a track's own pass and after another track's. -/
theorem trackChannel_register (g : Cfg) (p : Patch) (k j : Track) (x : Channel) :
    (trackChannel g p k x).register j =
      if j = k ∧ 0 < Envelope.count (p.env.get k) then
        envRegister g (advance g.roundQ (p.env.get k) (x.tick.get k).toNat (x.point.get k).val
          x.released).2.2 k
      else x.register j := by
  unfold trackChannel
  split
  · rename_i h0
    simp only [h0, lt_irrefl, and_false, if_false]
    split
    · cases j <;> rfl
    · rfl
  · rename_i h0
    rw [storeEnvValue_register]
    simp only [Nat.pos_of_ne_zero h0, and_true]
    cases j <;> rfl

/-- A track's pass touches its own part only. -/
theorem trackChannel_part_other (g : Cfg) (p : Patch) {k j : Track} (x : Channel) (h : j ≠ k) :
    (trackChannel g p k x).part j = x.part j := by
  simp only [Channel.part, trackChannel_tick, trackChannel_point, trackChannel_register, h, if_false,
    false_and]

/-- A track's pass reads its own part only, and whether the note is released. -/
theorem trackChannel_part_congr (g : Cfg) (p : Patch) {k : Track} {x y : Channel}
    (h : y.part k = x.part k) (hr : y.released = x.released) :
    (trackChannel g p k y).part k = (trackChannel g p k x).part k := by
  simp only [Channel.part, Prod.mk.injEq] at h
  obtain ⟨tick, point, register⟩ := h
  simp only [Channel.part, trackChannel_tick, trackChannel_point, trackChannel_register, tick, point,
    register, hr]

theorem trackChannels_part_other (g : Cfg) (p : Patch) {ks : List Track} {k : Track} (x : Channel)
    (h : k ∉ ks) : (trackChannels g p ks x).part k = x.part k := by
  induction ks generalizing x with
  | nil => rfl
  | cons j ks ih =>
    refine (ih _ fun hk => h (.tail _ hk)).trans (trackChannel_part_other g p x ?_)
    rintro rfl
    exact h (.head _)

/-- After the passes of all its tracks, each part of a record is as its own track's pass leaves it. -/
theorem trackChannels_part (g : Cfg) (p : Patch) {ks : List Track} {k : Track} (x : Channel)
    (hn : ks.Nodup) (h : k ∈ ks) :
    (trackChannels g p ks x).part k = (trackChannel g p k x).part k := by
  induction ks generalizing x with
  | nil => cases h
  | cons j ks ih =>
    obtain ⟨hj, hn⟩ := List.nodup_cons.mp hn
    rcases List.mem_cons.mp h with rfl | hk
    · exact trackChannels_part_other g p _ hj
    · have other : k ≠ j := fun e => hj (e ▸ hk)
      exact (ih _ hn hk).trans (trackChannel_part_congr g p (trackChannel_part_other g p x other)
        (trackChannel_released g p j x))

/-- `y` is the record `x` but for the cursors and the parameter registers. -/
def SameButTracks (x y : Channel) : Prop :=
  y = { x with
    duty := y.duty, frequency := y.frequency, amplitude := y.amplitude, pan := y.pan,
    cutoff := y.cutoff, resonance := y.resonance, tick := y.tick, point := y.point }

theorem SameButTracks.trans {x y z : Channel} (h : SameButTracks x y) (g : SameButTracks y z) :
    SameButTracks x z := by
  unfold SameButTracks at g
  rw [h] at g
  exact g

theorem trackChannel_same (g : Cfg) (p : Patch) (k : Track) (x : Channel) :
    SameButTracks x (trackChannel g p k x) := by
  unfold trackChannel
  split
  · split <;> rfl
  · cases k <;> rfl

theorem trackChannels_same (g : Cfg) (p : Patch) (ks : List Track) (x : Channel) :
    SameButTracks x (trackChannels g p ks x) :=
  List.foldlRecOn (motive := SameButTracks x) ks _ rfl fun y hy k _ =>
    hy.trans (trackChannel_same g p k y)

/-! ### A record after its envelope pass -/

/-- What `noteEnds` says (R150). -/
theorem noteEnds_iff {p : Patch} {x : Channel} :
    noteEnds p x = true ↔
      ((∃ k, 0 < Envelope.count (p.env.get k)) ∧
        ∀ k, 0 < Envelope.count (p.env.get k) →
          (x.point.get k).val = Envelope.count (p.env.get k) - 1) ∨
      (Envelope.count (p.env.get .volume) = 0 ∧ x.released = true) := by
  simp only [noteEnds, hasPoints, allEnded, Bool.or_eq_true, Bool.and_eq_true, List.any_eq_true,
    List.all_eq_true, Track.mem_all, true_and, forall_const, decide_eq_true_eq]

/-- The end of the note touches the instrument and the wave type only. -/
theorem envChannel_eq (g : Cfg) (p : Patch) (x : Channel) :
    envChannel g p x = { trackChannels g p Track.all x with
      instrument := if noteEnds p (trackChannels g p Track.all x) then none else x.instrument
      waveType := if noteEnds p (trackChannels g p Track.all x) then .none else x.waveType } := by
  have kept := trackChannels_same g p Track.all x
  unfold envChannel
  dsimp only
  split
  · rfl
  · rw [kept]

theorem noteEnds_envChannel (g : Cfg) (p : Patch) (x : Channel) :
    noteEnds p (envChannel g p x) = noteEnds p (trackChannels g p Track.all x) := by
  rw [envChannel_eq]
  rfl

/-- The end of the note, as the record after it shows it (R150). -/
theorem envChannel_instrument (g : Cfg) (p : Patch) (x : Channel) :
    (envChannel g p x).instrument =
      if noteEnds p (envChannel g p x) then none else x.instrument := by
  rw [noteEnds_envChannel, envChannel_eq]

theorem envChannel_waveType (g : Cfg) (p : Patch) (x : Channel) :
    (envChannel g p x).waveType =
      if noteEnds p (envChannel g p x) then .none else x.waveType := by
  rw [noteEnds_envChannel, envChannel_eq]

/-- What the envelope pass leaves alone. -/
theorem envChannel_kept (g : Cfg) (p : Patch) (x : Channel) :
    (envChannel g p x).released = x.released ∧ (envChannel g p x).fadeInit = x.fadeInit ∧
    (envChannel g p x).fadeStart = x.fadeStart ∧ (envChannel g p x).fadeLength = x.fadeLength ∧
    (envChannel g p x).fadeDir = x.fadeDir ∧ (envChannel g p x).linked = x.linked ∧
    (envChannel g p x).note = x.note := by
  rw [envChannel_eq, trackChannels_same g p Track.all x]
  exact ⟨rfl, rfl, rfl, rfl, rfl, rfl, rfl⟩

/-- Each part of the record after the envelope pass is as its own track's pass leaves it (R142). -/
theorem envChannel_part (g : Cfg) (p : Patch) (x : Channel) (k : Track) :
    (envChannel g p x).part k = (trackChannel g p k x).part k := by
  refine Eq.trans ?_ (trackChannels_part g p x (by decide : Track.all.Nodup) (Track.mem_all k))
  rw [envChannel_eq]
  cases k <;> rfl

/-- The cursors of a track with points are those of `advance`, where TICK can run it: they fit their
fields (R142, R144). -/
theorem trackChannel_cursors {g : Cfg} {p : Patch} {k : Track} {x : Channel}
    (hk : 0 < Envelope.count (p.env.get k)) (hd : Envelope.defined (p.env.get k) = true)
    (fits : cursorFits (p.env.get k) x.reloaded (x.tick.get k).toNat (x.point.get k).val = true)
    (below : (advance g.roundQ (p.env.get k) (x.tick.get k).toNat (x.point.get k).val x.released).1
      ≤ 65535) :
    (((trackChannel g p k x).tick.get k).toNat, ((trackChannel g p k x).point.get k).val) =
      ((advance g.roundQ (p.env.get k) (x.tick.get k).toNat (x.point.get k).val x.released).1,
        (advance g.roundQ (p.env.get k) (x.tick.get k).toNat (x.point.get k).val x.released).2.1) := by
  have inside := advance_point_lt g.roundQ x.released hd fits
  rw [trackChannel_tick, trackChannel_point, if_pos rfl, if_neg (Nat.ne_of_gt hk),
    if_pos ⟨rfl, Nat.ne_of_gt hk⟩, BitVec.toNat_ofNat, Nat.mod_eq_of_lt (by omega), Fin.val_ofNat,
    Nat.mod_eq_of_lt inside]

/-! ### What a TICK reports -/

/-- The `Done` events of a TICK for a Channel whose record goes from `x` to `y` (R37). -/
def doneEvents (c : Nat) (x y : Channel) : List Event :=
  if x.instrument.isSome ∧ y.instrument = none then [.done c .envEnd]
  else if x.fadeLength ≠ 0 ∧ y.fadeLength = 0 then [.done c .fadeEnd]
  else []

theorem tickDones_eq (s t : State) :
    tickDones s t = (List.range s.chans).flatMap fun c => doneEvents c (s.chan c) (t.chan c) := rfl

/-- They are about that Channel. -/
theorem eq_of_mem_doneEvents {c d : Nat} {cause : DoneCause} {x y : Channel}
    (h : Event.done c cause ∈ doneEvents d x y) : c = d := by
  unfold doneEvents at h
  split at h
  · cases List.mem_singleton.mp h
    rfl
  · split at h
    · cases List.mem_singleton.mp h
      rfl
    · cases h

theorem envEnd_mem_doneEvents {c : Nat} {x y : Channel} :
    Event.done c .envEnd ∈ doneEvents c x y ↔ x.instrument.isSome ∧ y.instrument = none := by
  unfold doneEvents
  split
  · exact iff_of_true (.head _) ‹_›
  · refine iff_of_false (fun h => ?_) ‹_›
    split at h <;> simp at h

/-- A fade that ends is reported where no note ends. -/
theorem fadeEnd_mem_doneEvents {c : Nat} {x y : Channel} (silent : x.instrument = none) :
    Event.done c .fadeEnd ∈ doneEvents c x y ↔ x.fadeLength ≠ 0 ∧ y.fadeLength = 0 := by
  unfold doneEvents
  rw [if_neg (by simp [silent])]
  split
  · exact iff_of_true (.head _) ‹_›
  · exact iff_of_false List.not_mem_nil ‹_›

/-- The events of the passes are the `Done` events that the records tell of. -/
theorem playedEvents_eq {s : State} {x : Channel} (now : Time) (c : Nat)
    (h : Channel.Sound s.cfg x) :
    playedEvents s now c x = doneEvents c x (playedChannel s now x) := by
  unfold playedEvents playedChannel doneEvents
  cases hi : x.instrument with
  | some i =>
    have still := h.noFade (by rw [hi]; rfl)
    unfold envEvents envChannel
    dsimp only
    split
    · simp
    · simp [trackChannels_instrument, hi, still]
  | none =>
    simp only [Option.isSome_none, Bool.false_eq_true, false_and, if_false]
    by_cases h0 : x.fadeLength = 0
    · simp [h0]
    · by_cases h1 : x.fadeLength.toNat ≤ now.toNat - x.fadeStart.toNat
      · rw [if_pos ⟨h0, h1⟩, if_neg h0, if_pos h1, if_pos ⟨h0, rfl⟩]
      · rw [if_neg fun both => h1 both.2, if_neg h0, if_neg h1, if_neg fun both => h0 both.2]

theorem pendingEvents_noDone (s : State) (c : Nat) (cause : DoneCause) :
    Event.done c cause ∉ pendingEvents s := by
  intro h
  obtain ⟨k, -, hk⟩ := List.mem_flatMap.mp h
  split at hk
  · obtain ⟨p, -, hp⟩ := List.mem_flatMap.mp hk
    exact slotEvents_noDone _ _ _ _ c cause hp
  · cases hk

/-! ### A TICK that answers -/

/-- TICK from `s` has answered `t`, its passes having left `q`. -/
structure Ticked (s : State) (now : Time) (q t : State) : Prop where
  passes : channelPasses now (List.range s.chans) (beginTick now s) = .ok q
  plays : OnlyPlaysAll (beginTick now s) q
  queueOk : QueueOk q
  playable : ∀ c < s.chans, Playable s (s.chan c)
  chan : ∀ c < s.chans, t.chan c = playedChannel s now (s.chan c)
  trace : t.trace = s.trace ++ tickDones s t ++ pendingEvents q

theorem exec_ticked {s t : State} {now : Time} (hi : Inv s) (hr : s.status = .run)
    (hl : s.lock = .free) (h : exec (.tick now) s = .next t) : ∃ q, Ticked s now q t := by
  obtain ⟨q, passes, rfl⟩ := execTick_passes hr hl h
  rcases channelPasses_spec now (List.range s.chans) (beginTick now s)
    (fun c hc => lt_ch_length hi (List.mem_range.mp hc)) List.nodup_range with
    ⟨r, -, refused⟩ | ⟨free, u, ran, plays, trace, -, used, -⟩
  · rw [passes] at refused
    cases refused
  · obtain rfl : q = u := by
      rw [passes] at ran
      cases ran
      rfl
    have queueOk := plays.queueOk (queueOk_of_eq (s := s) rfl rfl rfl rfl hi.queueOk)
    have flushes := flush_onlyFlushes q queueOk.slotCount
    obtain ⟨sent, -⟩ := flush_spec queueOk
    have chan : ∀ c < s.chans, (endTick (flush q)).chan c = playedChannel s now (s.chan c) :=
      fun c hc => (flushes.chan c).trans ((used c (List.mem_range.mpr hc)).trans
        (playedChannel_congr rfl rfl now _))
    have dones : (List.range s.chans).flatMap
        (fun c => playedEvents (beginTick now s) now c ((beginTick now s).chan c)) =
        tickDones s (endTick (flush q)) := by
      rw [tickDones_eq]
      refine List.flatMap_congr fun c hc => ?_
      have hc := List.mem_range.mp hc
      rw [chan c hc, ← playedEvents_eq now c (hi.chan_sound hc)]
      exact playedEvents_congr rfl rfl now c _
    refine ⟨q, passes, plays, queueOk, fun c hc => ?_, chan, ?_⟩
    · exact playable_iff.mpr fun r refused => free c (List.mem_range.mpr hc) r
        ((playRefusal_congr rfl rfl _ r).mpr refused)
    · rw [endTick_trace, sent, trace, dones]
      rfl

section Ticked
variable {s q t : State} {now : Time} {c : Nat} {i : Fin 128}

/-- The record of a live Channel in use after a TICK. -/
theorem Ticked.live (h : Ticked s now q t) (hc : c < s.chans)
    (hi : (s.chan c).instrument = some i) :
    t.chan c = envChannel s.cfg (s.patchAt i) (s.chan c) := by
  rw [h.chan c hc, playedChannel, hi]

/-- A TICK takes the instrument of a live Channel in use exactly when its note ends (R150). -/
theorem Ticked.ends (h : Ticked s now q t) (hc : c < s.chans)
    (hi : (s.chan c).instrument = some i) :
    (t.chan c).instrument = none ↔ noteEnds (s.patchAt i) (t.chan c) = true := by
  have instrument := envChannel_instrument s.cfg (s.patchAt i) (s.chan c)
  rw [← h.live hc hi, hi] at instrument
  rw [instrument]
  simp only [ite_eq_left_iff, reduceCtorEq, imp_false, not_not]

/-- The `Done` events of a TICK about one Channel in use are those its record tells of. -/
theorem Ticked.mem_done (h : Ticked s now q t) (hc : c < s.chans) (cause : DoneCause) :
    Event.done c cause ∈ t.trace.drop s.trace.length ↔
      Event.done c cause ∈ doneEvents c (s.chan c) (t.chan c) := by
  rw [h.trace, List.append_assoc, List.drop_left, List.mem_append, tickDones_eq, List.mem_flatMap]
  constructor
  · rintro (⟨d, -, hd⟩ | pending)
    · obtain rfl := eq_of_mem_doneEvents hd
      exact hd
    · exact absurd pending (pendingEvents_noDone q c cause)
  · exact fun hd => .inl ⟨c, List.mem_range.mpr hc, hd⟩

end Ticked

/-- Settles O55: a track's cursors are those of its own pass. -/
theorem tickAdvancesEveryTrack : Obligations.TickAdvancesEveryTrack := by
  intro s t now c i k hi hr hl h hc live
  obtain ⟨q, ticked⟩ := exec_ticked hi hr hl h
  obtain ⟨defined, tracks⟩ := ticked.playable c hc i live
  have part := envChannel_part s.cfg (s.patchAt i) (s.chan c) k
  simp only [← ticked.live hc live, Channel.part, Prod.mk.injEq] at part
  obtain ⟨tick, point, -⟩ := part
  rw [tick, point]
  refine ⟨fun hk => ?_, fun hk => ⟨?_, ?_⟩⟩
  · obtain ⟨fits, below⟩ := tracks k hk
    exact trackChannel_cursors hk (Patch.defined_env defined k) fits below
  · rw [trackChannel_tick, if_pos rfl, if_pos hk]
  · rw [trackChannel_point, if_neg fun both => both.2 hk]

/-- Settles O56: a track's register is that of its own pass. -/
theorem tickStoresEnvelopeValues : Obligations.TickStoresEnvelopeValues := by
  intro s t now c i hi hr hl h hc live v value
  obtain ⟨q, ticked⟩ := exec_ticked hi hr hl h
  have record := ticked.live hc live
  have stored : ∀ k, (t.chan c).register k =
      if 0 < Envelope.count ((s.patchAt i).env.get k) then envRegister s.cfg (v k) k
      else (s.chan c).register k := by
    intro k
    have part := envChannel_part s.cfg (s.patchAt i) (s.chan c) k
    simp only [← record, Channel.part, Prod.mk.injEq] at part
    obtain ⟨-, -, register⟩ := part
    rw [register, trackChannel_register, value]
    simp only [true_and]
  obtain ⟨-, -, -, -, ⟨-, bound⟩, -⟩ := hi.cfgWf
  have integer : ∀ {b : Prop} [Decidable b] {n m : Word16} {z : Int} {hi : Nat}, hi ≤ 65535 →
      (n.toNat : ℚ) = (if b then ((BitVec.ofInt 16 (clampInt z 0 hi)).toNat : ℚ) else m.toNat) →
      (n.toNat : Int) = if b then clampInt z 0 hi else m.toNat := by
    intro b _ n m z hi fits h
    split at h
    · rw [if_pos ‹_›, ← clampInt_stored z fits]
      exact_mod_cast h
    · rw [if_neg ‹_›]
      exact_mod_cast h
  refine ⟨stored .volume, stored .pan, integer (le_refl _) (stored .frequency), stored .duty,
    integer bound (stored .cutoff), stored .resonance, ?_⟩
  rw [record]
  exact envChannel_kept s.cfg (s.patchAt i) (s.chan c)

/-- Settles O57: the end of the note is in the record, and the report follows the record. -/
theorem tickEndsFinishedNotes : Obligations.TickEndsFinishedNotes := by
  intro s t now c i hi hr hl h hc live
  obtain ⟨q, ticked⟩ := exec_ticked hi hr hl h
  have instrument := envChannel_instrument s.cfg (s.patchAt i) (s.chan c)
  have waveType := envChannel_waveType s.cfg (s.patchAt i) (s.chan c)
  obtain ⟨released, -⟩ := envChannel_kept s.cfg (s.patchAt i) (s.chan c)
  rw [← ticked.live hc live] at instrument waveType released
  have ends := ticked.ends hc live
  refine ⟨?_, fun sounds => ?_, fun silent => ?_, ?_⟩
  · rw [ends, noteEnds_iff, released]
    rfl
  · rw [ne_eq, ends] at sounds
    rw [instrument, waveType, if_neg sounds, if_neg sounds]
    exact ⟨live, rfl⟩
  · rw [waveType, if_pos (ends.mp silent)]
  · rw [ticked.mem_done hc, envEnd_mem_doneEvents, live]
    exact and_iff_right rfl

/-- The amplitude during a fade, the direction written out (R151). -/
theorem fadeAmplitude_before (init : ℚ) (dir : FadeDir) {el len : Nat} (h : el < len) :
    fadeAmplitude init dir el len =
      clampRat (init + (el : ℚ) / (len : ℚ) * (if dir = .up then 1 else -1)) 0 1 := by
  rw [fadeAmplitude, if_neg (Nat.not_le.mpr h)]
  cases dir <;> rfl

theorem fadeAmplitude_after (init : ℚ) (dir : FadeDir) {el len : Nat} (h : len ≤ el) :
    fadeAmplitude init dir el len = clampRat (init + (if dir = .up then 1 else -1)) 0 1 := by
  rw [fadeAmplitude, if_pos h]
  cases dir <;> rfl

/-- The record of a fading Channel after a TICK (R151). -/
theorem playedChannel_fading {s : State} {x : Channel} (now : Time) (silent : x.instrument = none)
    (fading : x.fadeLength ≠ 0) :
    playedChannel s now x =
      if x.fadeLength.toNat ≤ now.toNat - x.fadeStart.toNat then
        { x with
          amplitude := quantise s.cfg (fadeAmplitude x.fadeInit x.fadeDir
            (now.toNat - x.fadeStart.toNat) x.fadeLength.toNat)
          fadeLength := 0 }
      else
        { x with
          amplitude := quantise s.cfg (fadeAmplitude x.fadeInit x.fadeDir
            (now.toNat - x.fadeStart.toNat) x.fadeLength.toNat) } := by
  unfold playedChannel
  split
  · rename_i live
    rw [silent] at live
    cases live
  · exact if_neg fading

/-- Settles O58: the two branches of a fade, and the report that the record tells of. -/
theorem tickFadesChannels : Obligations.TickFadesChannels := by
  intro s t now c hi hr hl h hc silent fading
  obtain ⟨q, ticked⟩ := exec_ticked hi hr hl h
  have record := ticked.chan c hc
  rw [playedChannel_fading now silent fading] at record
  have report : Event.done c .fadeEnd ∈ t.trace.drop s.trace.length ↔
      (t.chan c).fadeLength = 0 := by
    rw [ticked.mem_done hc, fadeEnd_mem_doneEvents silent]
    exact and_iff_right fading
  rw [report]
  rcases Nat.lt_or_ge (now.toNat - (s.chan c).fadeStart.toNat) (s.chan c).fadeLength.toNat with
    before | after
  · have early := Nat.not_le.mpr before
    rw [if_neg early, fadeAmplitude_before _ _ before] at record
    refine ⟨fun _ => record, fun after => absurd after early, ?_⟩
    rw [record]
    exact ⟨fun none => absurd none fading, fun after => absurd after early⟩
  · rw [if_pos after, fadeAmplitude_after _ _ after] at record
    refine ⟨fun before => absurd after (Nat.not_le.mpr before), fun _ => record, ?_⟩
    rw [record]
    exact ⟨fun _ => after, fun _ => rfl⟩

end Sys2Proof.Machine

/-! PROOFS. What a TICK sends (41_envelope_engine.md R140 to R151, 43_flush_and_transport.md R190). The
plan: `QueuesFor` says what the passes leave in the queue for one Channel, and is followed through
them in the model's order; a later encoder of the same Channel either rewrites a class or does not
touch what the class is encoded from, and other Channels drive other chips. The bytes that wait
are then those a host operation would queue from the same registers (`Encoded`). -/

namespace Sys2Proof.Machine

/-! ### What waits for one Channel -/

/-- From `s` to `t`, the classes of `W` have been queued for Channel `c` as its registers `x` encode
them; every other slot and flag is as it was. -/
structure QueuesFor (s t : State) (c : Nat) (x : Channel) (W : SlotClass → Prop) : Prop where
  filled : ∀ k, W k → ∀ p ∈ s.chips c, t.slotAt p k = some (slotBytes s c x k p)
  kept : ∀ p k, (W k → p ∉ s.chips c) → t.slotAt p k = s.slotAt p k
  dirty : ∀ k, t.dirty.get k = true ↔ s.dirty.get k = true ∨ W k

/-- Nothing is queued. -/
theorem QueuesFor.of_none (s : State) (c : Nat) (x : Channel) {W : SlotClass → Prop}
    (h : ∀ k, ¬ W k) : QueuesFor s s c x W :=
  ⟨fun k hk => absurd hk (h k), fun _ _ _ => rfl, fun k => (or_iff_left (h k)).symm⟩

/-- The classes may be named otherwise, and the registers differ where nothing was queued. -/
theorem QueuesFor.congr {s t : State} {c : Nat} {x y : Channel} {W V : SlotClass → Prop}
    (h : QueuesFor s t c x W) (hW : ∀ k, V k ↔ W k)
    (hx : ∀ k, W k → ∀ p, slotBytes s c y k p = slotBytes s c x k p) : QueuesFor s t c y V where
  filled := fun k hk p hp => by
    rw [hx k ((hW k).mp hk)]
    exact h.filled k ((hW k).mp hk) p hp
  kept := fun p k hk => h.kept p k fun hw => hk ((hW k).mpr hw)
  dirty := fun k => by rw [hW]; exact h.dirty k

theorem chips_congr {s t : State} (hc : t.cfg = s.cfg) (hd : t.dual = s.dual) (c : Nat) :
    t.chips c = s.chips c := by
  unfold State.chips
  rw [hc, hd]

theorem slotBytes_congr {s t : State} (hc : t.cfg = s.cfg) (hd : t.dual = s.dual) (c : Nat)
    (x : Channel) (k : SlotClass) (p : Nat) : slotBytes t c x k p = slotBytes s c x k p := by
  unfold slotBytes
  rw [hc, hd]

/-- Two passes over one Channel: what the first queued is still right, where the second has changed no
register of a class it does not queue again. -/
theorem QueuesFor.trans {s t u : State} {c : Nat} {x y : Channel} {W V : SlotClass → Prop}
    (h : QueuesFor s t c x W) (g : QueuesFor t u c y V) (hc : t.cfg = s.cfg) (hd : t.dual = s.dual)
    (hx : ∀ k, ¬ V k → ∀ p, slotBytes s c y k p = slotBytes s c x k p) :
    QueuesFor s u c y fun k => W k ∨ V k where
  filled := fun k hk p hp => by
    by_cases hv : V k
    · rw [g.filled k hv p (by rwa [chips_congr hc hd]), slotBytes_congr hc hd]
    · rw [g.kept p k fun v => absurd v hv, hx k hv]
      exact h.filled k (hk.resolve_right hv) p hp
  kept := fun p k hk => by
    rw [g.kept p k fun v => by rw [chips_congr hc hd]; exact hk (.inr v)]
    exact h.kept p k fun w => hk (.inl w)
  dirty := fun k => by rw [g.dirty, h.dirty, or_assoc]

/-! ### Encoders -/

/-- A track's encoder queues its classes. -/
theorem updTrack_queuesFor (k : Track) {c : Nat} {s : State}
    (h : ∀ p ∈ s.chips c, p < s.slot.length) :
    QueuesFor s (updTrack k c s) c (s.chan c) (· ∈ trackClasses s.dual k) where
  filled := fun j hj p hp => by rw [updTrack_slotAt k h, if_pos ⟨hp, hj⟩]
  kept := fun p j hj => by rw [updTrack_slotAt k h, if_neg fun both => hj both.2 both.1]
  dirty := fun j => by rw [updTrack_dirty, Bool.or_eq_true, decide_eq_true_eq]

/-- A write to the Channel with a track's encoder after it. -/
theorem setChan_updTrack_queuesFor {s : State} {c : Nat} (k : Track) (x : Channel)
    (hc : c < s.ch.length) (h : ∀ p ∈ s.chips c, p < s.slot.length) :
    QueuesFor s (updTrack k c (s.setChan c x)) c x (· ∈ trackClasses s.dual k) := by
  have stored : (s.setChan c x).chan c = x := by rw [chan_setChan _ _ _ _ hc, if_pos rfl]
  obtain ⟨filled, kept, dirty⟩ := updTrack_queuesFor k (s := s.setChan c x) h
  rw [stored] at filled
  exact ⟨filled, kept, dirty⟩

/-- The classes a track does not write are not encoded from its register (R149's table). -/
theorem slotBytes_storeEnvValue {s : State} {k : Track} {j : SlotClass}
    (h : j ∉ trackClasses s.dual k) (c : Nat) (g : Cfg) (v : Int) (x : Channel) (p : Nat) :
    slotBytes s c (storeEnvValue g k v x) j p = slotBytes s c x j p := by
  cases j with
  | wave =>
    cases k with
    | duty => exact absurd (.head _) h
    | volume | pan | frequency | cutoff | resonance => rfl
  | freq =>
    cases k with
    | frequency => exact absurd (.head _) h
    | volume | pan | duty | cutoff | resonance => rfl
  | vol =>
    cases k with
    | volume => exact absurd (.head _) h
    | pan =>
      have plain : s.dual ≠ true := fun dual => h (by simp [trackClasses, dual])
      simp only [slotBytes, if_neg plain]
      rfl
    | frequency | duty | cutoff | resonance => rfl
  | alpha | beta | gamma =>
    cases k with
    | cutoff | resonance => exact absurd (by simp [trackClasses]) h
    | volume | pan | frequency | duty => rfl

/-- No class is encoded from the cursors. -/
theorem slotBytes_cursors (s : State) (c : Nat) (x : Channel) (ticks : PerTrack Word16)
    (points : PerTrack (Fin 12)) (j : SlotClass) (p : Nat) :
    slotBytes s c { x with tick := ticks, point := points } j p = slotBytes s c x j p := by
  cases j <;> rfl

/-- A class that a track's pass does not queue is encoded as before it. -/
theorem slotBytes_trackChannel {s : State} {p : Patch} {k : Track} {j : SlotClass} {x : Channel}
    (h : evaluated p x k → j ∉ trackClasses s.dual k) (c : Nat) (g : Cfg) (q : Nat) :
    slotBytes s c (trackChannel g p k x) j q = slotBytes s c x j q := by
  unfold trackChannel
  split
  · split
    · exact slotBytes_cursors s c x _ x.point j q
    · rfl
  · have points : 0 < Envelope.count (p.env.get k) := Nat.pos_of_ne_zero ‹_›
    exact (slotBytes_storeEnvValue (h (.inl points)) c g _ _ q).trans
      (slotBytes_cursors s c x _ _ j q)

/-! ### The passes -/

/-- A track's pass does not change which other tracks are evaluated. -/
theorem evaluated_trackChannel (g : Cfg) (p : Patch) {k j : Track} (x : Channel) (h : j ≠ k) :
    evaluated p (trackChannel g p k x) j ↔ evaluated p x j := by
  unfold evaluated
  rw [trackChannel_tick, if_neg h]

theorem slotBytes_trackChannels {s : State} {p : Patch} {ks : List Track} {j : SlotClass}
    {x : Channel} (hn : ks.Nodup) (h : ∀ k ∈ ks, evaluated p x k → j ∉ trackClasses s.dual k)
    (c : Nat) (g : Cfg) (q : Nat) :
    slotBytes s c (trackChannels g p ks x) j q = slotBytes s c x j q := by
  induction ks generalizing x with
  | nil => rfl
  | cons k ks ih =>
    obtain ⟨hk, hn⟩ := List.nodup_cons.mp hn
    refine (ih hn fun m hm evaluated => h m (.tail _ hm) ?_).trans
      (slotBytes_trackChannel (h k (.head _)) c g q)
    exact (evaluated_trackChannel g p x fun e : m = k => hk (e ▸ hm)).mp evaluated

/-- A track's pass queues the track's classes if the track is evaluated (R142, R143). -/
theorem trackPass_queuesFor {c : Nat} {p : Patch} {k : Track} {s t : State}
    (h : trackPass c p k s = .ok t) (hc : c < s.ch.length)
    (hp : ∀ p ∈ s.chips c, p < s.slot.length) :
    OnlyPlays s t c ∧ t.chan c = trackChannel s.cfg p k (s.chan c) ∧
      QueuesFor s t c (trackChannel s.cfg p k (s.chan c))
        fun j => evaluated p (s.chan c) k ∧ j ∈ trackClasses s.dual k := by
  rcases trackPass_spec c p k s hc with ⟨r, -, refused⟩ | ⟨-, u, ran, plays, -, -, record⟩
  · rw [h] at refused
    cases refused
  · obtain rfl : t = u := by
      rw [h] at ran
      cases ran
      rfl
    refine ⟨plays, record, ?_⟩
    rcases trackPass_ok h with ⟨none, rfl⟩ | ⟨points, x, rfl⟩
    · by_cases unwritten : (s.chan c).tick.get k = 0
      · have ran : zeroPoint c k s = (updTrack k c s).setChan c
            { (updTrack k c s).chan c with tick := ((updTrack k c s).chan c).tick.set k 1 } :=
          if_pos unwritten
        obtain ⟨filled, kept, dirty⟩ := updTrack_queuesFor k hp
        have queues : QueuesFor s (zeroPoint c k s) c (s.chan c) (· ∈ trackClasses s.dual k) := by
          rw [ran]
          exact ⟨filled, kept, dirty⟩
        refine queues.congr (fun j => and_iff_right (.inr unwritten)) fun j _ q => ?_
        rw [trackChannel, if_pos none, if_pos unwritten]
        exact slotBytes_cursors s c _ _ (s.chan c).point j q
      · have ran : zeroPoint c k s = s := if_neg unwritten
        rw [ran]
        refine .of_none s c _ fun j => ?_
        rintro ⟨points | fresh, -⟩
        · omega
        · exact unwritten fresh
    · have stored : x = trackChannel s.cfg p k (s.chan c) := by
        rw [← record, (updTrack_onlyQueues k c _).chan, chan_setChan _ _ _ _ hc, if_pos rfl]
      rw [← stored]
      exact (setChan_updTrack_queuesFor k x hc hp).congr (fun j => and_iff_right (.inl points))
        fun _ _ _ => rfl

theorem trackPasses_queuesFor {c : Nat} {p : Patch} {ks : List Track} {s t : State}
    (h : trackPasses c p ks s = .ok t) (hn : ks.Nodup) (hc : c < s.ch.length)
    (hp : ∀ p ∈ s.chips c, p < s.slot.length) :
    OnlyPlays s t c ∧ t.chan c = trackChannels s.cfg p ks (s.chan c) ∧
      QueuesFor s t c (trackChannels s.cfg p ks (s.chan c))
        fun j => ∃ k ∈ ks, evaluated p (s.chan c) k ∧ j ∈ trackClasses s.dual k := by
  induction ks generalizing s with
  | nil =>
    cases h
    exact ⟨.refl _ c, rfl, .of_none _ c _ (by simp)⟩
  | cons k ks ih =>
    obtain ⟨hk, hn⟩ := List.nodup_cons.mp hn
    unfold trackPasses at h
    split at h
    · rename_i u hu
      obtain ⟨plays, record, first⟩ := trackPass_queuesFor hu hc hp
      obtain ⟨plays', record', rest⟩ := ih h hn (by rw [plays.chCount]; exact hc)
        (by rw [chips_congr plays.cfg plays.dual, plays.slotCount]; exact hp)
      rw [record, plays.cfg] at record' rest
      rw [plays.dual] at rest
      have later : ∀ m ∈ ks, (evaluated p (trackChannel s.cfg p k (s.chan c)) m ↔
          evaluated p (s.chan c) m) :=
        fun m hm => evaluated_trackChannel _ p _ fun e : m = k => hk (e ▸ hm)
      refine ⟨plays.trans plays', record', (first.trans rest plays.cfg plays.dual ?_).congr ?_
        fun _ _ _ => rfl⟩
      · exact fun j hj q => slotBytes_trackChannels hn
          (fun m hm ev hmem => hj ⟨m, hm, ev, hmem⟩) c _ q
      · intro j
        rw [List.exists_mem_cons_iff]
        exact or_congr_right (exists_congr fun m => and_congr_right fun hm => by rw [later m hm])
    · cases h

/-- The end of a note queues WAVE (R150). -/
theorem terminate_queuesFor {c : Nat} (p : Patch) {s : State} (hc : c < s.ch.length)
    (hp : ∀ p ∈ s.chips c, p < s.slot.length) :
    QueuesFor s (terminate c p s) c
      (if noteEnds p (s.chan c) then { s.chan c with instrument := none, waveType := .none }
        else s.chan c)
      fun j => noteEnds p (s.chan c) = true ∧ j = .wave := by
  unfold terminate
  split
  · rename_i ends
    obtain ⟨filled, kept, dirty⟩ := setChan_updTrack_queuesFor .duty
      { s.chan c with instrument := none, waveType := .none } hc hp
    exact QueuesFor.congr ⟨filled, kept, dirty⟩
      (fun j => by simp [ends, trackClasses]) fun _ _ _ => rfl
  · rename_i sounds
    exact .of_none s c _ fun _ both => sounds both.1

/-- The classes that one TICK queues for a Channel with the record `x` (R142, R143, R149 to R151). -/
def playedWrites (s : State) (x : Channel) (j : SlotClass) : Prop :=
  (∃ i, x.instrument = some i ∧
    ((∃ k, evaluated (s.patchAt i) x k ∧ j ∈ trackClasses s.dual k) ∨
      (noteEnds (s.patchAt i) (envChannel s.cfg (s.patchAt i) x) = true ∧ j = .wave))) ∨
  (x.instrument = none ∧ x.fadeLength ≠ 0 ∧ j = .vol)

theorem playedWrites_live {s : State} {x : Channel} {i : Fin 128} (h : x.instrument = some i)
    (j : SlotClass) :
    playedWrites s x j ↔ (∃ k, evaluated (s.patchAt i) x k ∧ j ∈ trackClasses s.dual k) ∨
      (noteEnds (s.patchAt i) (envChannel s.cfg (s.patchAt i) x) = true ∧ j = .wave) := by
  simp only [playedWrites, h, Option.some.injEq, exists_eq_left', reduceCtorEq, false_and, or_false]

theorem playedWrites_silent {s : State} {x : Channel} (h : x.instrument = none) (j : SlotClass) :
    playedWrites s x j ↔ x.fadeLength ≠ 0 ∧ j = .vol := by
  simp only [playedWrites, h, reduceCtorEq, false_and, exists_false, false_or, true_and]

theorem playedWrites_congr {s t : State} (hc : t.cfg = s.cfg) (hp : t.patch = s.patch)
    (hd : t.dual = s.dual) (x : Channel) (j : SlotClass) :
    playedWrites t x j ↔ playedWrites s x j := by
  unfold playedWrites State.patchAt
  rw [hc, hp, hd]

/-- One tick of a fade queues VOL (R151). -/
theorem fadePass_queuesFor {c : Nat} (now : Time) {s : State} (hc : c < s.ch.length)
    (hp : ∀ p ∈ s.chips c, p < s.slot.length) (silent : (s.chan c).instrument = none)
    (fading : (s.chan c).fadeLength ≠ 0) :
    QueuesFor s (fadePass c now s) c (playedChannel s now (s.chan c)) (· = .vol) := by
  rw [playedChannel_fading now silent fading]
  unfold fadePass
  dsimp only
  split
  · obtain ⟨filled, kept, dirty⟩ := setChan_updTrack_queuesFor .volume
      { s.chan c with
        amplitude := quantise s.cfg (fadeAmplitude (s.chan c).fadeInit (s.chan c).fadeDir
          (now.toNat - (s.chan c).fadeStart.toNat) (s.chan c).fadeLength.toNat)
        fadeLength := 0 } hc hp
    exact QueuesFor.congr ⟨filled, kept, dirty⟩ (fun j => List.mem_singleton.symm) fun _ _ _ => rfl
  · exact (setChan_updTrack_queuesFor .volume _ hc hp).congr (fun j => List.mem_singleton.symm)
      fun _ _ _ => rfl

/-- One Channel of a TICK queues its classes, encoded from the record it leaves (R141). -/
theorem channelPass_queuesFor {now : Time} {c : Nat} {s t : State}
    (h : channelPass now c s = .ok t) (hc : c < s.ch.length)
    (hp : ∀ p ∈ s.chips c, p < s.slot.length) :
    OnlyPlays s t c ∧
      QueuesFor s t c (playedChannel s now (s.chan c)) (playedWrites s (s.chan c)) := by
  have plays : OnlyPlays s t c := by
    rcases channelPass_spec now c s hc with ⟨r, -, refused⟩ | ⟨-, u, ran, plays, -⟩
    · rw [h] at refused
      cases refused
    · rw [h] at ran
      cases ran
      exact plays
  refine ⟨plays, ?_⟩
  rcases channelPass_ok h with ⟨i, u, live, passes, rfl⟩ | ⟨silent, still, rfl⟩ |
    ⟨silent, fading, rfl⟩
  · obtain ⟨plays, record, tracks⟩ := trackPasses_queuesFor passes (by decide) hc hp
    have ends := terminate_queuesFor (s := u) (s.patchAt i) (by rw [plays.chCount]; exact hc)
      (by rw [chips_congr plays.cfg plays.dual, plays.slotCount]; exact hp)
    rw [record] at ends
    have played : playedChannel s now (s.chan c) =
        envChannel s.cfg (s.patchAt i) (s.chan c) := by
      rw [playedChannel, live]
    rw [played]
    refine (tracks.trans ends plays.cfg plays.dual fun j hj q => ?_).congr (fun j => ?_)
      fun _ _ _ => rfl
    · split
      · rename_i ended
        cases j with
        | wave => exact absurd ⟨ended, rfl⟩ hj
        | freq | vol | alpha | beta | gamma => rfl
      · rfl
    · rw [playedWrites_live live, noteEnds_envChannel]
      simp only [Track.mem_all, true_and]
  · exact .of_none _ c _ fun j hj => ((playedWrites_silent silent j).mp hj).1 still
  · exact (fadePass_queuesFor now hc hp silent fading).congr
      (fun j => (playedWrites_silent silent j).trans (and_iff_right fading)) fun _ _ _ => rfl

/-- From `s` to `t`, the passes over the Channels of `cs` have queued what each of them writes. -/
structure QueuesForAll (s : State) (now : Time) (cs : List Nat) (t : State) : Prop where
  filled : ∀ c ∈ cs, ∀ k, playedWrites s (s.chan c) k → ∀ p ∈ s.chips c,
    t.slotAt p k = some (slotBytes s c (playedChannel s now (s.chan c)) k p)
  kept : ∀ p k, (∀ c ∈ cs, playedWrites s (s.chan c) k → p ∉ s.chips c) →
    t.slotAt p k = s.slotAt p k
  dirty : ∀ k, t.dirty.get k = true ↔
    s.dirty.get k = true ∨ ∃ c ∈ cs, playedWrites s (s.chan c) k

/-- The Channels of a list, each once, no two of them driving one chip. -/
theorem channelPasses_queues {now : Time} {cs : List Nat} {s t : State}
    (h : channelPasses now cs s = .ok t) (hn : cs.Nodup) (hc : ∀ c ∈ cs, c < s.ch.length)
    (hp : ∀ c ∈ cs, ∀ p ∈ s.chips c, p < s.slot.length)
    (apart : ∀ c ∈ cs, ∀ d ∈ cs, c ≠ d → ∀ p ∈ s.chips c, p ∉ s.chips d) :
    QueuesForAll s now cs t := by
  induction cs generalizing s with
  | nil =>
    cases h
    exact ⟨by simp, fun _ _ _ => rfl, by simp⟩
  | cons c cs ih =>
    obtain ⟨hm, hn⟩ := List.nodup_cons.mp hn
    unfold channelPasses at h
    split at h
    · rename_i u hu
      obtain ⟨plays, first⟩ := channelPass_queuesFor hu (hc c (.head _)) (hp c (.head _))
      have chips : ∀ d, u.chips d = s.chips d := chips_congr plays.cfg plays.dual
      have other : ∀ d ∈ cs, d ≠ c := fun d hd e => hm (e ▸ hd)
      have same : ∀ d ∈ cs, u.chan d = s.chan d := fun d hd => plays.otherChannels d (other d hd)
      have writes : ∀ d ∈ cs, ∀ k, (playedWrites u (u.chan d) k ↔ playedWrites s (s.chan d) k) :=
        fun d hd k => by
          rw [same d hd]
          exact playedWrites_congr plays.cfg plays.patch plays.dual _ k
      have rest := ih h hn (fun d hd => by rw [plays.chCount]; exact hc d (.tail _ hd))
        (fun d hd => by rw [chips, plays.slotCount]; exact hp d (.tail _ hd))
        (fun d hd e he => by rw [chips, chips]; exact apart d (.tail _ hd) e (.tail _ he))
      refine ⟨fun d hd k hk p hpd => ?_, fun p k hk => ?_, fun k => ?_⟩
      · rcases List.mem_cons.mp hd with rfl | hd
        · rw [rest.kept p k fun e he _ => by
            rw [chips]
            exact apart d (.head _) e (.tail _ he) (other e he).symm p hpd]
          exact first.filled k hk p hpd
        · rw [rest.filled d hd k ((writes d hd k).mpr hk) p (by rwa [chips]), same d hd,
            slotBytes_congr plays.cfg plays.dual, playedChannel_congr plays.cfg plays.patch]
      · rw [rest.kept p k fun d hd hw => by
          rw [chips]
          exact hk d (.tail _ hd) ((writes d hd k).mp hw)]
        exact first.kept p k (hk c (.head _))
      · rw [rest.dirty, first.dirty, List.exists_mem_cons_iff, or_assoc]
        exact or_congr_right (or_congr_right
          (exists_congr fun d => and_congr_right fun hd => writes d hd k))
    · cases h

/-! ### The commands that wait -/

/-- No two Channels in use drive one chip (42 R171, 00_scope.md R5). -/
theorem chips_disjoint {s : State} (hi : Inv s) {c d : Nat} (hc : c < s.chans) (hd : d < s.chans)
    (hne : c ≠ d) : ∀ p ∈ s.chips c, p ∉ s.chips d := by
  obtain ⟨-, -, -, -, -, ⟨left, right, nodup, -⟩, -⟩ := hi.cfgWf
  obtain ⟨nodupL, nodupR, disjoint⟩ := List.nodup_append'.mp nodup
  have injective : ∀ {l : List Nat} {a b : Nat}, l.Nodup → a < l.length → b < l.length → a ≠ b →
      l.getD a 0 ≠ l.getD b 0 := by
    intro l a b hl ha hb hab
    rw [List.getD_eq_getElem _ _ ha, List.getD_eq_getElem _ _ hb]
    exact fun e => hab ((hl.getElem_inj_iff).mp e)
  unfold State.chips
  unfold State.chans at hc hd
  split
  · rename_i dual
    rw [if_pos dual] at hc hd
    have hl : ∀ {a}, a < s.cfg.nchip / 2 → s.cfg.chipL.getD a 0 ∈ s.cfg.chipL :=
      fun ha => getD_mem_of_lt (by omega)
    have hr : ∀ {a}, a < s.cfg.nchip / 2 → s.cfg.chipR.getD a 0 ∈ s.cfg.chipR :=
      fun ha => getD_mem_of_lt (by omega)
    simp only [List.mem_cons, List.not_mem_nil, or_false]
    rintro p (rfl | rfl) (e | e)
    · exact injective nodupL (by omega) (by omega) hne e
    · exact disjoint (hl hc) (e ▸ hr hd)
    · exact disjoint (hl hd) (e ▸ hr hc)
    · exact injective nodupR (by omega) (by omega) hne e
  · rintro p hp
    rw [List.mem_singleton.mp hp, List.mem_singleton]
    exact hne

/-- In `q` the slots of class `k` for the chips of Channel `c` hold what they hold in `t`, and the flags
are up. -/
structure WaitsAs (s t q : State) (c : Nat) (k : SlotClass) : Prop where
  slots : ∀ p ∈ s.chips c, q.slotAt p k = t.slotAt p k
  dirty : q.dirty.get k = true
  changed : q.changed = true

section WaitsAs
variable {s t q : State} {c : Nat}

theorem Queued.waitsAs {k : SlotClass} {b0 b1 : Byte} (h : Queued s t c k b0 b1)
    (w : WaitsAs s t q c k) : Queued s q c k b0 b1 :=
  ⟨fun p hp => (w.slots p hp).trans (h.1 p hp), w.dirty, w.changed⟩

theorem WaveQueued.waitsAs {wt : WaveType} {d : ℚ} (h : WaveQueued s t c wt d)
    (w : WaitsAs s t q c .wave) : WaveQueued s q c wt d := by
  obtain ⟨b0, b1, queued, bytes⟩ := h
  exact ⟨b0, b1, queued.waitsAs w, bytes⟩

theorem FrequencyQueued.waitsAs {f : Int} (h : FrequencyQueued s t c f)
    (w : WaitsAs s t q c .freq) : FrequencyQueued s q c f := by
  obtain ⟨b0, b1, queued, bytes⟩ := h
  exact ⟨b0, b1, queued.waitsAs w, bytes⟩

theorem FilterQueued.waitsAs {hz : Nat} {r : ℚ} (h : FilterQueued s t c hz r)
    (w : ∀ k ∈ [SlotClass.alpha, .beta, .gamma], WaitsAs s t q c k) : FilterQueued s q c hz r := by
  obtain ⟨a0, b0, g0, alpha, beta, gamma, bytes⟩ := h
  exact ⟨a0, b0, g0, alpha.waitsAs (w _ (by simp)), beta.waitsAs (w _ (by simp)),
    gamma.waitsAs (w _ (by simp)), bytes⟩

theorem VolumeQueued.waitsAs {a p : ℚ} (h : VolumeQueued s t c a p)
    (w : WaitsAs s t q c .vol) : VolumeQueued s q c a p := by
  obtain ⟨-, -, plain, dual⟩ := h
  refine ⟨w.dirty, w.changed, fun hd => ?_, fun hd => ?_⟩
  · rw [w.slots c (by simp [State.chips, hd])]
    exact plain hd
  · rw [w.slots _ (by simp [State.chips, hd]), w.slots _ (by simp [State.chips, hd])]
    exact dual hd

end WaitsAs

theorem exists_track {P : Track → Prop} : (∃ k, P k) ↔
    P .volume ∨ P .pan ∨ P .frequency ∨ P .duty ∨ P .cutoff ∨ P .resonance := by
  constructor
  · rintro ⟨k, hk⟩
    cases k <;> simp [hk]
  · rintro (h | h | h | h | h | h) <;> exact ⟨_, h⟩

/-- The classes a TICK writes, read off the records before it and after it. -/
theorem Ticked.writes_iff {s q t : State} {now : Time} {c : Nat} (h : Ticked s now q t)
    (hc : c < s.chans) (k : SlotClass) : TickWrites s t c k ↔ playedWrites s (s.chan c) k := by
  refine or_congr (exists_congr fun i => and_congr_right fun live => ?_) Iff.rfl
  rw [exists_track, ← h.live hc live, ← h.ends hc live]
  cases k <;> cases s.dual <;> simp [trackClasses]

/-- The queue that a TICK flushes. -/
theorem Ticked.queues {s q t : State} {now : Time} (h : Ticked s now q t) (hi : Inv s) :
    QueuesForAll s now (List.range s.chans) q := by
  obtain ⟨filled, kept, dirty⟩ := channelPasses_queues h.passes List.nodup_range
    (fun c hc => lt_ch_length hi (List.mem_range.mp hc))
    (fun c hc => chips_lt hi (List.mem_range.mp hc))
    (fun c hc d hd => chips_disjoint hi (List.mem_range.mp hc) (List.mem_range.mp hd))
  have writes : ∀ c k, (playedWrites (beginTick now s) (s.chan c) k ↔
      playedWrites s (s.chan c) k) := fun c => playedWrites_congr rfl rfl rfl (s.chan c)
  refine ⟨fun c hc k hw p hp => ?_, fun p k free => ?_, fun k => ?_⟩
  · rw [filled c hc k ((writes c k).mpr hw) p hp, slotBytes_congr (s := s) rfl rfl]
    exact congrArg (fun x => some (slotBytes s c x k p)) (playedChannel_congr rfl rfl now _)
  · exact kept p k fun c hc hw => free c hc ((writes c k).mp hw)
  · exact (dirty k).trans (or_congr_right
      (exists_congr fun c => and_congr_right fun _ => writes c k))

/-- A class that TICK writes waits as if a host operation had just run its encoder on the Channel's new
registers. -/
theorem Ticked.waitsAs {s q t e : State} {now : Time} {c : Nat} {k : Track} {j : SlotClass}
    (h : Ticked s now q t) (hi : Inv s) (hc : c < s.chans) (he : Encoded s e c (t.chan c) k)
    (hj : j ∈ trackClasses s.dual k) (hw : TickWrites s t c j) : WaitsAs s e q c j := by
  have queues := h.queues hi
  have writes := (h.writes_iff hc j).mp hw
  have dirty : q.dirty.get j = true :=
    (queues.dirty j).mpr (.inr ⟨c, List.mem_range.mpr hc, writes⟩)
  refine ⟨fun p hp => ?_, dirty, ?_⟩
  · rw [queues.filled c (List.mem_range.mpr hc) j writes p hp, he.slots j hj p hp, h.chan c hc]
  · rw [h.queueOk.changedIffDirty]
    by_contra clean
    have := someDirty_false.mp (Bool.eq_false_iff.mpr clean) j
    rw [dirty] at this
    cases this

/-- Settles O60: the Done events and the flush are in the trace, the queue is followed through the
passes, and each class that is written waits as its encoder queues it. -/
theorem tickSendsEveryEvaluatedTrack : Obligations.TickSendsEveryEvaluatedTrack := by
  intro s t now hi hr hl h
  obtain ⟨q, ticked⟩ := exec_ticked hi hr hl h
  have queues := ticked.queues hi
  obtain ⟨-, -, positive, -⟩ := hi.cfgWf
  refine ⟨q, ticked.plays.cfg, ticked.trace, fun c hc => ?_, fun p k free => ?_, fun k => ?_⟩
  · have sound : Channel.Sound s.cfg (t.chan c) := by
      rw [ticked.chan c hc]
      exact playedChannel_sound now (hi.chan_sound hc)
    have encoded := updTrack_encoded hi hc (t.chan c)
    have waits := fun k {j} => ticked.waitsAs (j := j) hi hc (encoded k)
    refine ⟨fun hw => ?_, fun hw => ?_, fun hw => ?_, fun hw => ?_⟩
    · exact ((encoded .duty).wave sound.duty).waitsAs (waits .duty (.head _) hw)
    · exact ((encoded .frequency).freq positive.le rfl).waitsAs (waits .frequency (.head _) hw)
    · exact ((encoded .volume).vol hi hc (.head _) sound.amplitude).waitsAs
        (waits .volume (.head _) hw)
    · refine ((encoded .cutoff).filter rfl).waitsAs fun k hk => waits .cutoff hk ?_
      simp only [List.mem_cons, List.not_mem_nil, or_false] at hk
      rcases hk with rfl | rfl | rfl <;> exact hw.imp_right fun ⟨_, _, e⟩ => nomatch e
  · exact queues.kept p k fun c hc hw =>
      free c (List.mem_range.mp hc) ((ticked.writes_iff (List.mem_range.mp hc) k).mpr hw)
  · rw [queues.dirty]
    refine or_congr_right (exists_congr fun c => ?_)
    rw [List.mem_range]
    exact and_congr_right fun hc => (ticked.writes_iff hc k).symm

end Sys2Proof.Machine

/-! PROOFS. The parameter encoders (42_parameter_encoders.md R170, R176 to R180). The plan: the
model's partial sums are those of Mathlib's Taylor bounds for `exp` and, through `exp (z·i)`, for
`cos`, so each rational bound lies on its side of the real value (`expNegLo_le_exp`, `exp_le_expNegHi`,
`cosBounds_enclose`); where both bounds have one floor, the real value has it too
(`floor_eq_of_enclosed`). -/

namespace Sys2Proof.Machine

/-! ### The queue -/

/-- The second of two writes to one slot overwrites all that the first did (R170). -/
theorem enqueue_enqueue (p : Nat) (k : SlotClass) (a0 a1 b0 b1 : Byte) {s : State}
    (hp : p < s.slot.length) :
    enqueue p k b0 b1 (enqueue p k a0 a1 s) = enqueue p k b0 b1 s := by
  simp [enqueue, raiseDirty, State.setSlot, hp]

/-- Settles O34, from the rules of `enqueue` for slots and flags. -/
theorem enqueueCoalesces : Obligations.EnqueueCoalesces := by
  intro s p k a0 a1 b0 b1 hp
  refine ⟨?_, by simp, rfl, fun q j h => enqueue_slotAt_ne b0 b1 s h, fun j h => ?_,
    enqueue_enqueue p k a0 a1 b0 b1 hp⟩
  · rw [enqueue_slotAt p k b0 b1 s p k hp, if_pos ⟨rfl, rfl⟩]
  · rw [enqueue_dirty, PerClass.get_set, if_neg h]

/-! ### Gamma and the bypass -/

/-- At the maximum cutoff alpha is its largest byte (R177). -/
theorem alphaByte_bypass (g : Cfg) : alphaByte g g.cutoffMax = 255 := if_pos rfl

/-- At the maximum cutoff gamma is 0 (R179). -/
theorem gammaByte_bypass (g : Cfg) (r : ℚ) : gammaByte g g.cutoffMax r = 0 := if_pos rfl

/-- Settles O48: the square of a resonance is a fraction again. -/
theorem gammaAndBypass : Obligations.GammaAndBypass := by
  refine ⟨fun g r => ⟨gammaByte_bypass g r, alphaByte_bypass g⟩, fun g hz r hne hr => ?_⟩
  have square : inUnit (r * r) := ⟨mul_nonneg hr.1 hr.1, mul_le_one₀ hr.2 hr.1 hr.2⟩
  rw [gammaByte, if_neg hne]
  exact floorBits_unit (m := 255) square (by norm_num)

/-! ### Enclosed floors -/

theorem floorBetween_self (n : Int) (tie : Bool) : floorBetween n n tie = n := if_pos (.inl rfl)

theorem floorBetween_eq_or (lo hi : Int) (tie : Bool) :
    floorBetween lo hi tie = lo ∨ floorBetween lo hi tie = hi := by
  unfold floorBetween
  split
  · exact .inl rfl
  · exact .inr rfl

/-- A real number between two rationals of one floor has that floor. -/
theorem floor_eq_of_enclosed {lo hi : ℚ} {x : ℝ} (hlo : (lo : ℝ) ≤ x) (hhi : x ≤ (hi : ℝ))
    (h : lo.floor = hi.floor) : ⌊x⌋ = lo.floor := by
  have above : ⌊(lo : ℝ)⌋ ≤ ⌊x⌋ := Int.floor_mono hlo
  have below : ⌊x⌋ ≤ ⌊(hi : ℝ)⌋ := Int.floor_mono hhi
  rw [Rat.floor_cast] at above below
  exact le_antisymm (below.trans_eq h.symm) above

theorem piLo_lt_pi : (piLo : ℝ) < Real.pi := by
  refine lt_of_eq_of_lt ?_ Real.pi_gt_d20
  norm_num [piLo]

theorem pi_lt_piHi : Real.pi < (piHi : ℝ) := by
  refine Real.pi_lt_d20.trans_eq ?_
  norm_num [piHi]

theorem piLo_pos : 0 < piLo := by norm_num [piLo]

theorem piHi_pos : 0 < piHi := by norm_num [piHi]

/-- The cutoff in turns is not negative. -/
theorem turns_nonneg {g : Cfg} (hg : g.wf) (hz : Nat) : 0 ≤ turns g hz := by
  obtain ⟨-, -, -, clock, -⟩ := hg
  exact div_nonneg (Nat.cast_nonneg hz) clock.le

/-- The angle of R176 is `2π` times the turns. -/
theorem angle_eq_turns (g : Cfg) (hz : Nat) :
    2 * Real.pi * (hz : ℝ) / (g.clockHz : ℝ) = 2 * Real.pi * (turns g hz : ℝ) := by
  rw [turns]
  push_cast
  ring

/-! ### The exponential -/

/-- The model's partial sum is the one of the Taylor bounds. -/
theorem expPartial_cast (z : ℚ) (n : Nat) :
    (expPartial z n : ℝ) = ∑ m ∈ Finset.range n, (z : ℝ) ^ m / (Nat.factorial m : ℝ) := by
  induction n with
  | zero => simp [expPartial]
  | succ n ih => rw [expPartial, Finset.sum_range_succ, ← ih]; push_cast; rfl

theorem one_le_expPartial {z : ℚ} (hz : 0 ≤ z) (n : Nat) : 1 ≤ expPartial z (n + 1) := by
  induction n with
  | zero => simp [expPartial]
  | succ n ih =>
    rw [expPartial]
    exact ih.trans (le_add_of_nonneg_right (div_nonneg (pow_nonneg hz _) (Nat.cast_nonneg _)))

theorem expRemainder_nonneg (z : ℚ) : 0 ≤ expRemainder z := by
  unfold expRemainder
  positivity

theorem expPartial_le_exp {z : ℚ} (hz : 0 ≤ z) (n : Nat) :
    (expPartial z n : ℝ) ≤ Real.exp z := by
  rw [expPartial_cast]
  exact Real.sum_le_exp_of_nonneg (by exact_mod_cast hz) n

theorem exp_le_expPartial_add {z : ℚ} (h0 : 0 ≤ z) (h1 : z ≤ 1) :
    Real.exp z ≤ ((expPartial z 24 + expRemainder z : ℚ) : ℝ) := by
  have taylor := Real.exp_bound' (x := (z : ℝ)) (by exact_mod_cast h0) (by exact_mod_cast h1)
    (n := 24) (by norm_num)
  refine taylor.trans_eq ?_
  rw [Rat.cast_add, expPartial_cast, expRemainder]
  push_cast
  norm_num

theorem expParts_pos (q : ℚ) : 0 < expParts q := lt_max_of_lt_left one_pos

/-- Each part of the exponent, with a bound of pi in its place, is not negative. -/
theorem exponent_part_nonneg {c q : ℚ} (hc : 0 < c) (hq : 0 ≤ q) :
    0 ≤ 2 * c * q / (expParts q : ℚ) := by
  positivity

/-- Each part of the exponent is at most 1. -/
theorem exponent_part_le_one (q : ℚ) : 2 * piHi * q / (expParts q : ℚ) ≤ 1 := by
  have parts : (0 : ℚ) < expParts q := by exact_mod_cast expParts_pos q
  refine (div_le_one parts).mpr ?_
  calc 2 * piHi * q ≤ ((2 * piHi * q).ceil : ℚ) := Rat.le_ceil
    _ ≤ ((2 * piHi * q).ceil.toNat : ℚ) := by exact_mod_cast Int.self_le_toNat _
    _ ≤ (expParts q : ℚ) := by exact_mod_cast le_max_right _ _

/-- `e^(-x)` from the exponential of an `n`-th part of `x`. -/
theorem exp_neg_eq_pow (x : ℝ) {n : Nat} (hn : 0 < n) :
    Real.exp (-x) = (1 / Real.exp (x / n)) ^ n := by
  have : (n : ℝ) ≠ 0 := by exact_mod_cast hn.ne'
  rw [one_div, ← Real.exp_neg, ← Real.exp_nat_mul]
  congr 1
  field_simp

theorem exp_le_expNegHi {q : ℚ} (hq : 0 ≤ q) :
    Real.exp (-(2 * Real.pi * q)) ≤ (expNegHi q : ℝ) := by
  have hq' : (0 : ℝ) ≤ q := by exact_mod_cast hq
  have part := exponent_part_nonneg piLo_pos hq
  have pos : (0 : ℝ) < expPartial (2 * piLo * q / (expParts q : ℚ)) 24 := by
    exact_mod_cast one_pos.trans_le (one_le_expPartial part 23)
  calc Real.exp (-(2 * Real.pi * q)) ≤ Real.exp (-(2 * piLo * q)) := by
        have := piLo_lt_pi.le
        gcongr
    _ = (1 / Real.exp ((2 * piLo * q / (expParts q : ℚ) : ℚ) : ℝ)) ^ expParts q := by
        rw [exp_neg_eq_pow _ (expParts_pos q)]; push_cast; rfl
    _ ≤ (1 / (expPartial (2 * piLo * q / (expParts q : ℚ)) 24 : ℝ)) ^ expParts q := by
        have := expPartial_le_exp part 24
        gcongr
    _ = (expNegHi q : ℝ) := by rw [expNegHi]; push_cast; rfl

theorem expNegLo_le_exp {q : ℚ} (hq : 0 ≤ q) :
    (expNegLo q : ℝ) ≤ Real.exp (-(2 * Real.pi * q)) := by
  have hq' : (0 : ℝ) ≤ q := by exact_mod_cast hq
  have part := exponent_part_nonneg piHi_pos hq
  have bound := exp_le_expPartial_add part (exponent_part_le_one q)
  calc (expNegLo q : ℝ)
      = (1 / ((expPartial (2 * piHi * q / (expParts q : ℚ)) 24 +
          expRemainder (2 * piHi * q / (expParts q : ℚ)) : ℚ) : ℝ)) ^ expParts q := by
        rw [expNegLo]; push_cast; rfl
    _ ≤ (1 / Real.exp ((2 * piHi * q / (expParts q : ℚ) : ℚ) : ℝ)) ^ expParts q := by
        have sum := (Real.exp_pos _).trans_le bound
        exact pow_le_pow_left₀ (one_div_nonneg.mpr sum.le)
          (one_div_le_one_div_of_le (Real.exp_pos _) bound) _
    _ = Real.exp (-(2 * piHi * q)) := by
        rw [exp_neg_eq_pow _ (expParts_pos q)]; push_cast; rfl
    _ ≤ Real.exp (-(2 * Real.pi * q)) := by
        have := pi_lt_piHi.le
        gcongr

theorem expNegHi_le_one {q : ℚ} (hq : 0 ≤ q) : expNegHi q ≤ 1 := by
  have part := exponent_part_nonneg piLo_pos hq
  have ge := one_le_expPartial part 23
  exact pow_le_one₀ (by positivity) ((div_le_one (one_pos.trans_le ge)).mpr ge)

theorem expNegLo_pos {q : ℚ} (hq : 0 ≤ q) : 0 < expNegLo q := by
  have part := exponent_part_nonneg piHi_pos hq
  have := one_pos.trans_le (one_le_expPartial part 23)
  have := expRemainder_nonneg (2 * piHi * q / (expParts q : ℚ))
  unfold expNegLo
  positivity

theorem expNegLo_le_expNegHi {q : ℚ} (hq : 0 ≤ q) : expNegLo q ≤ expNegHi q := by
  exact_mod_cast (expNegLo_le_exp hq).trans (exp_le_expNegHi hq)

/-! ### Alpha -/

/-- The two floors `alphaFloor` chooses from are bytes. -/
theorem complement_floor_mem {e : ℚ} (h0 : 0 < e) (h1 : e ≤ 1) :
    0 ≤ ((1 - e) * 255).floor ∧ ((1 - e) * 255).floor < 2 ^ 8 :=
  ⟨(Int.floor_nonneg (a := (1 - e) * 255)).mpr (by linarith),
    (Int.floor_lt (a := (1 - e) * 255)).mpr (by norm_num; linarith)⟩

/-- Before the exponent 6, `alphaFloor` is one of the two floors. -/
theorem alphaFloor_eq_or {q : ℚ} (h : 2 * piLo * q < 6) (tie : Bool) :
    alphaFloor q tie = ((1 - expNegHi q) * 255).floor ∨
    alphaFloor q tie = ((1 - expNegLo q) * 255).floor := by
  rw [alphaFloor, if_neg h.not_ge]
  exact floorBetween_eq_or _ _ tie

theorem alphaFloor_mem {q : ℚ} (hq : 0 ≤ q) (tie : Bool) :
    0 ≤ alphaFloor q tie ∧ alphaFloor q tie < 2 ^ 8 := by
  rcases le_or_gt 6 (2 * piLo * q) with large | small
  · rw [alphaFloor, if_pos large]; decide
  · have lo := expNegLo_pos hq
    have le := expNegLo_le_expNegHi hq
    have hi := expNegHi_le_one hq
    rcases alphaFloor_eq_or small tie with e | e <;> rw [e]
    · exact complement_floor_mem (lo.trans_le le) hi
    · exact complement_floor_mem lo (le.trans hi)

/-- Below the maximum cutoff the alpha byte is `alphaFloor` (R177). -/
theorem alphaByte_toNat {g : Cfg} (hg : g.wf) {hz : Nat} (h : hz < g.cutoffMax) :
    ((alphaByte g hz).toNat : Int) = alphaFloor (turns g hz) (Config.alphaTie hz) := by
  obtain ⟨nonneg, lt⟩ := alphaFloor_mem (turns_nonneg hg hz) (Config.alphaTie hz)
  rw [alphaByte, if_neg h.ne, toNat_ofInt_of_lt nonneg lt]

/-- From the exponent 6 on, `255·e^(-x)` is below 1. -/
theorem floor_complement_exp_of_six_le {x : ℝ} (hx : 6 ≤ x) :
    ⌊(1 - Real.exp (-x)) * 255⌋ = 254 := by
  have pos := Real.exp_pos (-x)
  have six : 255 < Real.exp x := calc
    (255 : ℝ) < 2.7 ^ 6 := by norm_num
    _ ≤ Real.exp 1 ^ 6 := by have := Real.exp_one_gt_d9; gcongr; linarith
    _ = Real.exp 6 := by rw [← Real.exp_nat_mul]; norm_num
    _ ≤ Real.exp x := Real.exp_le_exp.mpr hx
  have small : Real.exp (-x) * 255 < 1 := by
    rw [Real.exp_neg, inv_mul_lt_iff₀ (Real.exp_pos x)]
    linarith
  rw [Int.floor_eq_iff]
  push_cast
  constructor <;> linarith

/-- `alphaFloor` is the floor over the reals wherever the bounds decide it (R177). -/
theorem alphaFloor_eq_floor {q : ℚ} (hq : 0 ≤ q) (tie : Bool)
    (h : 6 ≤ 2 * piLo * q ∨
      ((1 - expNegHi q) * 255).floor = ((1 - expNegLo q) * 255).floor) :
    alphaFloor q tie = ⌊(1 - Real.exp (-(2 * Real.pi * q))) * 255⌋ := by
  rcases le_or_gt 6 (2 * piLo * q) with large | small
  · have six : (6 : ℝ) ≤ 2 * Real.pi * q := calc
      (6 : ℝ) ≤ 2 * piLo * q := by exact_mod_cast large
      _ ≤ 2 * Real.pi * q := by
        have := piLo_lt_pi.le
        have : (0 : ℝ) ≤ q := by exact_mod_cast hq
        gcongr
    rw [alphaFloor, if_pos large, floor_complement_exp_of_six_le six]
  · have agree := h.resolve_left small.not_ge
    rw [alphaFloor, if_neg small.not_ge, ← agree, floorBetween_self]
    have lo := expNegLo_le_exp hq
    have hi := exp_le_expNegHi hq
    refine (floor_eq_of_enclosed ?_ ?_ agree).symm <;> push_cast <;> linarith

/-- Settles O46, from the enclosure of the exponential. -/
theorem alphaIsTheExactFloor : Obligations.AlphaIsTheExactFloor := by
  intro g hz hg h
  have hq := turns_nonneg hg hz
  rw [alphaByte_toNat hg h, angle_eq_turns]
  exact ⟨alphaFloor_eq_floor hq _, fun small => alphaFloor_eq_or small _, expNegLo_le_exp hq,
    exp_le_expNegHi hq⟩

/-! ### The cosine -/

/-- The real part of the exponential series at `z·i` is the cosine series. -/
theorem cosPartial_cast (z : ℚ) (n : Nat) : (cosPartial z n : ℝ) =
    (∑ m ∈ Finset.range (2 * n), ((z : ℂ) * Complex.I) ^ m / (Nat.factorial m : ℂ)).re := by
  induction n with
  | zero => simp [cosPartial]
  | succ n ih =>
    have even : ((z : ℂ) * Complex.I) ^ (2 * n) = (((-1) ^ n * (z : ℝ) ^ (2 * n) : ℝ) : ℂ) := by
      rw [mul_pow, pow_mul Complex.I, Complex.I_sq]; push_cast; ring
    have odd : ((z : ℂ) * Complex.I) ^ (2 * n + 1) / (Nat.factorial (2 * n + 1) : ℂ) =
        (((-1) ^ n * (z : ℝ) ^ (2 * n) * z / (Nat.factorial (2 * n + 1) : ℝ) : ℝ) : ℂ) *
          Complex.I := by
      rw [pow_succ, even]; push_cast; ring
    have even_re : (((z : ℂ) * Complex.I) ^ (2 * n) / (Nat.factorial (2 * n) : ℂ)).re =
        (-1) ^ n * (z : ℝ) ^ (2 * n) / (Nat.factorial (2 * n) : ℝ) := by
      rw [even, ← Complex.ofReal_natCast, ← Complex.ofReal_div, Complex.ofReal_re]
    rw [mul_add_one, Finset.sum_range_succ, Finset.sum_range_succ, Complex.add_re, Complex.add_re,
      ← ih, even_re, odd, Complex.re_ofReal_mul, Complex.I_re, cosPartial]
    push_cast
    ring

/-- Fifteen terms and the model's remainder enclose the cosine. -/
theorem abs_cos_sub_cosPartial {z : ℚ} (h0 : 0 ≤ z) (h2 : z ≤ 2) :
    |Real.cos z - (cosPartial z 15 : ℝ)| ≤ (cosRemainder z : ℝ) := by
  have h0' : (0 : ℝ) ≤ z := by exact_mod_cast h0
  have h2' : (z : ℝ) ≤ 2 := by exact_mod_cast h2
  have norm : ‖(z : ℂ) * Complex.I‖ = z := by
    rw [norm_mul, Complex.norm_I, mul_one, ← Complex.ofReal_ratCast, Complex.norm_of_nonneg h0']
  have taylor := Complex.exp_bound' (x := (z : ℂ) * Complex.I) (n := 30) (by
    rw [norm]; norm_num; linarith)
  calc |Real.cos z - (cosPartial z 15 : ℝ)|
      = |(Complex.exp ((z : ℂ) * Complex.I) -
          ∑ m ∈ Finset.range 30, ((z : ℂ) * Complex.I) ^ m / (Nat.factorial m : ℂ)).re| := by
        rw [Complex.sub_re, cosPartial_cast, ← Complex.ofReal_ratCast, Complex.exp_ofReal_mul_I_re]
    _ ≤ ‖(z : ℂ) * Complex.I‖ ^ 30 / (Nat.factorial 30 : ℝ) * 2 :=
        (Complex.abs_re_le_norm _).trans taylor
    _ = (cosRemainder z : ℝ) := by rw [norm, cosRemainder]; push_cast; ring

theorem fracPart_mem (q : ℚ) : 0 ≤ fracPart q ∧ fracPart q < 1 :=
  ⟨Int.fract_nonneg q, Int.fract_lt_one q⟩

/-- A number is its floor and its fractional part, over the reals. -/
theorem fracPart_cast (q : ℚ) : (fracPart q : ℝ) = (q : ℝ) - (q.floor : ℝ) := by
  rw [fracPart]
  push_cast
  rfl

theorem foldedAngle_mem (q : ℚ) : 0 ≤ foldedAngle q ∧ foldedAngle q ≤ 1 / 2 := by
  obtain ⟨h0, h1⟩ := fracPart_mem (2 * q)
  unfold foldedAngle
  split <;> constructor <;> linarith

/-- Up to a quarter turn the cosine is not negative. -/
theorem cos_pi_mul_nonneg {v : ℚ} (h0 : 0 ≤ v) (h1 : v ≤ 1 / 2) : 0 ≤ Real.cos (Real.pi * v) := by
  rify at h0 h1
  have := Real.pi_pos
  exact Real.cos_nonneg_of_mem_Icc ⟨by nlinarith, by nlinarith⟩

/-- The folded angle keeps the size of the cosine. -/
theorem cos_foldedAngle (q : ℚ) :
    Real.cos (Real.pi * foldedAngle q) = |Real.cos (2 * Real.pi * q)| := by
  have reduced : |Real.cos (Real.pi * fracPart (2 * q))| = |Real.cos (2 * Real.pi * q)| := by
    have e : Real.pi * (fracPart (2 * q) : ℝ) =
        2 * Real.pi * q - ((2 * q).floor : ℝ) * Real.pi := by
      rw [fracPart_cast]; push_cast; ring
    rw [e, Real.cos_sub_int_mul_pi, abs_mul, abs_zpow, abs_neg, abs_one, one_zpow, one_mul]
  have folded : |Real.cos (Real.pi * foldedAngle q)| = |Real.cos (Real.pi * fracPart (2 * q))| := by
    unfold foldedAngle
    split
    · rfl
    · push_cast
      rw [mul_sub, mul_one, Real.cos_pi_sub, abs_neg]
  obtain ⟨h0, h1⟩ := foldedAngle_mem q
  rw [← reduced, ← folded, abs_of_nonneg (cos_pi_mul_nonneg h0 h1)]

/-- On 0..pi the cosine falls, so the upper bound of pi gives the smaller cosine. -/
theorem cos_piHi_mul_le {v : ℚ} (h0 : 0 ≤ v) (h1 : v ≤ 1 / 2) :
    Real.cos ((piHi * v : ℚ) : ℝ) ≤ Real.cos (Real.pi * v) := by
  have hi : piHi * v ≤ 2 := by rw [piHi]; linarith
  have := pi_lt_piHi
  have := Real.pi_pos
  rify at h0 hi
  push_cast
  refine Real.cos_le_cos_of_nonneg_of_le_pi (by positivity) (by linarith [Real.pi_gt_three]) ?_
  gcongr

/-- On 0..pi the cosine falls, so the lower bound of pi gives the greater cosine. -/
theorem cos_le_cos_piLo_mul {v : ℚ} (h0 : 0 ≤ v) (h1 : v ≤ 1 / 2) :
    Real.cos (Real.pi * v) ≤ Real.cos ((piLo * v : ℚ) : ℝ) := by
  have lo := piLo_pos
  have := piLo_lt_pi
  rify at h0 h1 lo
  push_cast
  refine Real.cos_le_cos_of_nonneg_of_le_pi (by positivity) (by nlinarith) ?_
  gcongr

/-- The cosine of an angle of at most a quarter turn lies between the model's bounds. -/
theorem cosBounds_enclose {v : ℚ} (h0 : 0 ≤ v) (h1 : v ≤ 1 / 2) :
    ((cosBounds v).1 : ℝ) ≤ Real.cos (Real.pi * v) ∧
    Real.cos (Real.pi * v) ≤ ((cosBounds v).2 : ℝ) := by
  unfold cosBounds
  split_ifs with zero third half
  · simp [zero]
  · have e : Real.pi * ((1 / 3 : ℚ) : ℝ) = Real.pi / 3 := by push_cast; ring
    rw [third, e, Real.cos_pi_div_three]; norm_num
  · have e : Real.pi * ((1 / 2 : ℚ) : ℝ) = Real.pi / 2 := by push_cast; ring
    rw [half, e, Real.cos_pi_div_two]; norm_num
  · have hi : piHi * v ≤ 2 := by rw [piHi]; linarith
    have lo : piLo * v ≤ 2 := by rw [piLo]; linarith
    have below := abs_le.mp (abs_cos_sub_cosPartial (mul_nonneg piHi_pos.le h0) hi)
    have above := abs_le.mp (abs_cos_sub_cosPartial (mul_nonneg piLo_pos.le h0) lo)
    have nonneg := cos_pi_mul_nonneg h0 h1
    have cosHi := cos_piHi_mul_le h0 h1
    have cosLo := cos_le_cos_piLo_mul h0 h1
    push_cast
    exact ⟨max_le nonneg (by linarith), le_min (Real.cos_le_one _) (by linarith)⟩

/-- The cosine is negative strictly between a quarter turn and three. -/
theorem cosIsNegative_iff (q : ℚ) : cosIsNegative q = true ↔ Real.cos (2 * Real.pi * q) < 0 := by
  obtain ⟨h0, h1⟩ := fracPart_mem q
  have pi := Real.pi_pos
  have reduced : Real.cos (2 * Real.pi * q) = Real.cos (2 * Real.pi * fracPart q) := by
    rw [← Real.cos_sub_int_mul_two_pi _ q.floor, fracPart_cast]
    ring_nf
  rw [cosIsNegative, decide_eq_true_iff, reduced]
  constructor
  · rintro ⟨quarter, three⟩
    rify at quarter three
    exact Real.cos_neg_of_pi_div_two_lt_of_lt (by nlinarith) (by nlinarith)
  · intro neg
    rify at h0 h1
    by_contra outside
    refine neg.not_ge ?_
    rcases not_and_or.mp outside with first | last
    · rify at first
      exact Real.cos_nonneg_of_mem_Icc ⟨by nlinarith, by nlinarith⟩
    · rify at last
      rw [← Real.cos_sub_two_pi]
      exact Real.cos_nonneg_of_mem_Icc ⟨by nlinarith, by nlinarith⟩

/-! ### Beta -/

/-- `|beta_raw|·63`, with the cosine of the folded angle. -/
theorem abs_betaRaw {q r : ℚ} (hr : 0 ≤ r) :
    |2 * (r : ℝ) * Real.cos (2 * Real.pi * q)| * 63 =
      126 * r * Real.cos (Real.pi * foldedAngle q) := by
  have : (0 : ℝ) ≤ 2 * r := by exact_mod_cast mul_nonneg two_pos.le hr
  rw [abs_mul, abs_of_nonneg this, ← cos_foldedAngle]
  ring

/-- `betaMagnitude` is the floor over the reals wherever the bounds decide it (R178). -/
theorem betaMagnitude_eq_floor {q r : ℚ} (hr : 0 ≤ r) (tie : Bool)
    (agree : (126 * r * (cosBounds (foldedAngle q)).1).floor =
      (126 * r * (cosBounds (foldedAngle q)).2).floor) :
    betaMagnitude q r tie = ⌊|2 * (r : ℝ) * Real.cos (2 * Real.pi * q)| * 63⌋ := by
  obtain ⟨h0, h1⟩ := foldedAngle_mem q
  obtain ⟨lo, hi⟩ := cosBounds_enclose h0 h1
  have : (0 : ℝ) ≤ r := by exact_mod_cast hr
  rw [betaMagnitude, ← agree, floorBetween_self, abs_betaRaw hr]
  refine (floor_eq_of_enclosed ?_ ?_ agree).symm <;> push_cast <;> gcongr

/-- The sign flag says that `beta_raw` is negative (R178). -/
theorem betaIsNegative_iff {q r : ℚ} (hr : 0 ≤ r) :
    betaIsNegative r (cosIsNegative q) = true ↔
      2 * (r : ℝ) * Real.cos (2 * Real.pi * q) < 0 := by
  rw [betaIsNegative, Bool.and_eq_true, decide_eq_true_iff, cosIsNegative_iff]
  rcases hr.eq_or_lt with rfl | pos
  · simp
  · have : (0 : ℝ) < 2 * r := by exact_mod_cast mul_pos two_pos pos
    exact (and_iff_right pos).trans (smul_neg_iff_of_pos_left this).symm

/-- The magnitude's six low bits stand in bits 7:2 of the beta byte (R88). -/
theorem magnitudeField_eq (m : Nat) :
    (BitVec.ofNat 6 m ++ (0 : BitVec 2) : BitVec 8) = BitVec.ofNat 8 (4 * (m % 64)) := by
  apply BitVec.eq_of_toNat_eq
  rw [BitVec.toNat_append, ← Nat.shiftLeft_add_eq_or_of_lt (by decide)]
  have zero : (0 : BitVec 2).toNat = 0 := rfl
  rw [zero, BitVec.toNat_ofNat, BitVec.toNat_ofNat, Nat.shiftLeft_eq]
  omega

/-- The beta byte of a magnitude and a sign, field by field (R178). -/
theorem betaOf_eq (g : Cfg) (m : Nat) (negative : Bool) :
    betaOf g m negative =
      BitVec.ofNat 8 (4 * (m % 64)) ||| (if negative then g.layout.betaSignBit else 0) |||
        (if g.satAbove < m then g.layout.betaSatBit else 0) := by
  simp only [betaOf, betaByte, magnitudeField_eq, betaSaturates, decide_eq_true_eq]

/-- Settles O47, from the enclosure of the cosine and its sign. -/
theorem betaIsTheExactByte : Obligations.BetaIsTheExactByte := by
  intro g hz r m negative hg hr agree hm hneg
  rw [angle_eq_turns] at hm hneg
  have magnitude := betaMagnitude_eq_floor hr.1 (Config.betaTie hz r) agree
  have sign : betaIsNegative r (cosIsNegative (turns g hz)) = negative :=
    Bool.eq_iff_iff.mpr ((betaIsNegative_iff hr.1).trans hneg.symm)
  rw [betaCoefficient, magnitude, ← hm, Int.toNat_natCast, sign, betaOf_eq]

end Sys2Proof.Machine

/-! PROOFS. The two levels of the output trace (43_flush_and_transport.md R192 to R205). The plan:
an operation in RUN *conveys* when the readers of R205 keep in step (`InStep`) and Level 2 gains
only what pins, holds and reports show; such an operation delivers to the chips what its Level-1
events say (`Conveys.delivers`). Each transport primitive conveys, so does what is built from them,
and an instruction conveys, or conveys and then halts (`exec_conveys`). -/

namespace Sys2Proof.Machine

open Host (Outcome)

/-! ### What the chips receive, by either reader -/

/-- The events Level 2 gains while the block stays in RUN: it shows no `Select` and no `Byte`
(R197), and a `Halt` ends RUN. -/
def Event.isPinLevel : Event → Bool
  | .select _ | .byte _ | .halt _ => false
  | .hold _ | .pin _ _ | .data _ | .done _ _ | .midiOut _ _ _ _ => true

/-- A byte that either reader shows goes to the set selected at that moment. -/
theorem deliveries1_readByte (r : Reader) (b : Byte) (rest : List Event) :
    deliveries1 r.shown ((r.byte b).2 ++ rest) = (r.sel, b) :: deliveries1 r.sel rest := by
  unfold Reader.byte
  dsimp only
  split
  · rename_i same; rw [← same]; rfl
  · rfl

/-- Reading Level 1 loses no delivery (R205). -/
theorem deliveries1_eq_plain (r : Reader) (es : List Event) :
    deliveries1 r.sel es = deliveries1 r.shown (Reader.run Reader.plain r es).2 := by
  induction es generalizing r with
  | nil => rfl
  | cons e es ih =>
    have later := ih (Reader.plain r e).1
    cases e with
    | byte b => exact (congrArg _ later).trans (deliveries1_readByte r b _).symm
    | select | hold | pin | data | done | midiOut | halt => exact later

/-- Folding Level 2 loses no delivery (R202, R205). -/
theorem deliveries2_eq_fold (n : Nat) (r : Reader) {es : List Event}
    (h : ∀ e ∈ es, e.isPinLevel = true) :
    deliveries2 n r.sel r.pins es = deliveries1 r.shown (Reader.run (Reader.fold n) r es).2 := by
  induction es generalizing r with
  | nil => rfl
  | cons e es ih =>
    obtain ⟨first, rest⟩ := List.forall_mem_cons.mp h
    have later := ih (Reader.fold n r e).1 rest
    cases e with
    | select | byte | halt => cases first
    | hold | data | done | midiOut => exact later
    | pin p v =>
      cases p with
      | ser | stb => exact later
      | clk =>
        simp only [deliveries2, Reader.run, Reader.fold] at later ⊢
        split
        · rename_i rising
          rw [if_pos rising] at later
          rw [deliveries1_readByte]
          exact congrArg _ later
        · rename_i level
          rw [if_neg level] at later
          exact later

/-- A `Halt` delivers nothing at either level. -/
theorem deliveries1_halt (sel : Nat) (es : List Event) (c : HaltCause) :
    deliveries1 sel (es ++ [.halt c]) = deliveries1 sel es := by
  induction es generalizing sel with
  | nil => rfl
  | cons e es ih => cases e <;> simp [deliveries1, ih]

theorem deliveries2_halt (n sel : Nat) (p : Pins) (es : List Event) (c : HaltCause) :
    deliveries2 n sel p (es ++ [.halt c]) = deliveries2 n sel p es := by
  induction es generalizing sel p with
  | nil => rfl
  | cons e es ih =>
    cases e with
    | pin q v => cases q <;> simp [deliveries2, ih]
    | select | byte | hold | data | done | midiOut | halt => simp [deliveries2, ih]

/-! ### Operations that convey -/

/-- What an operation adds to the two traces reads the same at both levels, and to Level 2 it adds
nothing but what pins, holds and reports show. -/
structure Conveys (s t : State) : Prop where
  inStep : InStep s t
  pinLevel : ∃ es, t.pinTrace = s.pinTrace ++ es ∧ ∀ e ∈ es, e.isPinLevel = true

theorem Conveys.refl (s : State) : Conveys s s := ⟨.refl s, [], by simp, nofun⟩

theorem Conveys.trans {s t u : State} (h : Conveys s t) (g : Conveys t u) : Conveys s u := by
  obtain ⟨first, es, he, hes⟩ := h
  obtain ⟨second, fs, hf, hfs⟩ := g
  exact ⟨first.trans second, es ++ fs, by rw [hf, he, List.append_assoc],
    fun e m => (List.mem_append.mp m).elim (hes e) (hfs e)⟩

/-- A change of fields that neither reader follows. -/
theorem Conveys.of_same {s t : State} (hc : t.cfg = s.cfg) (h1 : t.trace = s.trace)
    (h2 : t.pinTrace = s.pinTrace) (h3 : t.sel = s.sel) (h4 : t.selShown = s.selShown)
    (h5 : t.pins = s.pins) (h6 : t.status = s.status) : Conveys s t :=
  ⟨.of_same hc h1 h2 h3 h4 (by unfold State.linePins; rw [h5, h6]), [], by simp [h2], nofun⟩

/-- The chips receive through the pins what Level 1 says they receive (R192, R202). -/
def Delivers (s t : State) : Prop :=
  ∃ e1 e2, t.trace = s.trace ++ e1 ∧ t.pinTrace = s.pinTrace ++ e2 ∧
    deliveries2 s.cfg.nchip s.sel s.pins e2 = deliveries1 s.selShown e1

theorem Conveys.delivers {s t : State} (h : Conveys s t) (hr : s.status = .run) :
    Delivers s t := by
  obtain ⟨⟨-, e1, e2, h1, h2, read⟩, es, hes, pinLevel⟩ := h
  obtain rfl : e2 = es := List.append_cancel_left (h2.symm.trans hes)
  obtain ⟨w, out, folded, plain⟩ := read s.selShown s.pins
  rw [show s.linePins = s.pins from if_pos hr] at folded
  have level1 := deliveries1_eq_plain ⟨s.selShown, s.selShown, s.pins⟩ e1
  have level2 := deliveries2_eq_fold s.cfg.nchip ⟨s.sel, s.selShown, s.pins⟩ pinLevel
  rw [plain] at level1
  rw [folded] at level2
  exact ⟨e1, e2, h1, h2, level2.trans level1.symm⟩

/-- Entering HALT delivers nothing more. -/
theorem Delivers.haltWith {s t : State} (h : Delivers s t) (c : HaltCause) :
    Delivers s (haltWith c t) := by
  obtain ⟨e1, e2, h1, h2, same⟩ := h
  refine ⟨e1 ++ [.halt c], e2 ++ [.halt c], ?_, ?_, ?_⟩
  · rw [haltWith_trace, h1, List.append_assoc]
  · rw [haltWith_pinTrace, h2, List.append_assoc]
  · rw [deliveries1_halt, deliveries2_halt, same]

/-! ### The transport primitives convey -/

theorem strobeEvents_pinLevel (g : Cfg) (ds : List Bool) :
    ∀ e ∈ ds.flatMap (strobeEvents g), e.isPinLevel = true := by
  intro e m
  obtain ⟨d, -, m⟩ := List.mem_flatMap.mp m
  exact List.all_eq_true.mp (show (strobeEvents g d).all Event.isPinLevel = true from rfl) e m

theorem byteEvents_pinLevel (g : Cfg) (bs : List Byte) :
    ∀ e ∈ bs.flatMap (byteEvents g), e.isPinLevel = true := by
  intro e m
  obtain ⟨b, -, m⟩ := List.mem_flatMap.mp m
  exact List.all_eq_true.mp (show (byteEvents g b).all Event.isPinLevel = true from rfl) e m

theorem strobePulses_conveys (ds : List Bool) {s : State} (hr : s.status = .run)
    (hs : s.pins.stb = false) : Conveys s (strobePulses ds s) :=
  ⟨strobePulses_inStep ds hr hs, _, by rw [strobePulses_eq], strobeEvents_pinLevel s.cfg ds⟩

theorem address_conveys {k : Nat} {s : State} (hk : k < s.cfg.nchip) (hr : s.status = .run)
    (hs : s.pins.stb = false) : Conveys s (address k s) :=
  ⟨address_inStep hk hr hs, _, by rw [address_eq hk], strobeEvents_pinLevel s.cfg _⟩

theorem broadcast_conveys {s : State} (hn : 0 < s.cfg.nchip) (hr : s.status = .run)
    (hs : s.pins.stb = false) : Conveys s (broadcast s) :=
  ⟨broadcast_inStep hn hr hs, _, by rw [broadcast_eq hn], strobeEvents_pinLevel s.cfg _⟩

theorem sendBytes_conveys (bs : List Byte) {s : State} (hr : s.status = .run)
    (hc : s.pins.clk = false) : Conveys s (sendBytes bs s) :=
  ⟨sendBytes_inStep bs hr hc, _, by rw [sendBytes_eq], byteEvents_pinLevel s.cfg bs⟩

/-- An event that both levels show alike and that concerns no pin. -/
theorem emit_conveys {e : Event} (s : State) (he : e.isPinLevel = true) (out : List Event)
    (h : ∀ r, Reader.fold s.cfg.nchip r e = (r, out) ∧ Reader.plain r e = (r, out)) :
    Conveys s (emit e s) :=
  ⟨emit_inStep s out h, [e], emit_pinTrace e s, by simpa using he⟩

/-- An event of an OPEN sequence adds pin events alone to Level 2. -/
theorem emitWire_pinLevel (e : WireEvent) (s : State) :
    ∃ es, (emitWire e s).pinTrace = s.pinTrace ++ es ∧ ∀ e ∈ es, e.isPinLevel = true := by
  cases e with
  | byte b => exact ⟨_, rfl, by simpa using byteEvents_pinLevel s.cfg [b]⟩
  | data b => exact ⟨_, rfl, by simp [Event.isPinLevel]⟩
  | hold n => exact ⟨_, rfl, by simp [Event.isPinLevel]⟩
  | pin p v =>
    refine ⟨[.pin p v], ?_, by simp [Event.isPinLevel]⟩
    cases p with
    | ser | stb => rfl
    | clk =>
      unfold emitWire drivePin
      dsimp only
      split <;> rfl

theorem emitWires_pinLevel (es : List WireEvent) (s : State) :
    ∃ fs, (emitWires es s).pinTrace = s.pinTrace ++ fs ∧ ∀ e ∈ fs, e.isPinLevel = true := by
  induction es generalizing s with
  | nil => exact ⟨[], by simp [emitWires], nofun⟩
  | cons e es ih =>
    obtain ⟨as, ha, has⟩ := emitWire_pinLevel e s
    obtain ⟨bs, hb, hbs⟩ := ih (emitWire e s)
    refine ⟨as ++ bs, ?_, fun e m => (List.mem_append.mp m).elim (has e) (hbs e)⟩
    rw [← List.append_assoc, ← ha, ← hb]
    rfl

/-- A broadcast and an OPEN sequence that keeps it (R220, R221). -/
theorem broadcast_emitWires_conveys {s : State} {es rest : List WireEvent} (hn : 0 < s.cfg.nchip)
    (hr : s.status = .run) (hs : StrobesRest s)
    (hk : keepsBroadcast true false false (es ++ rest) = true) :
    Conveys s (emitWires es (broadcast s)) ∧
    keepsBroadcast (emitWires es (broadcast s)).pins.ser (emitWires es (broadcast s)).pins.stb
      (emitWires es (broadcast s)).pins.clk rest = true := by
  obtain ⟨hstb, hclk⟩ := hs
  have pins : keepsBroadcast (broadcast s).pins.ser (broadcast s).pins.stb (broadcast s).pins.clk
      (es ++ rest) = true := by
    rw [broadcast_eq hn, hclk]; exact hk
  obtain ⟨sequence, -, kept⟩ :=
    emitWires_inStep es rest ((broadcast_onlyTransmits s).status.trans hr) pins
  exact ⟨(broadcast_conveys hn hr hstb).trans ⟨sequence, emitWires_pinLevel es _⟩, kept⟩

/-- The rows of REPROG, one after the other (R226, R227). -/
theorem foldl_sendRow_conveys (buf : WordBuf) (rows : List Nat) {s : State} (hr : s.status = .run)
    (hc : s.pins.clk = false) :
    Conveys s (rows.foldl (sendRow buf) s) ∧ (rows.foldl (sendRow buf) s).status = .run ∧
      (rows.foldl (sendRow buf) s).pins.clk = false :=
  List.foldlRecOn
    (motive := fun t : State => Conveys s t ∧ t.status = .run ∧ t.pins.clk = false) rows _
    ⟨.refl s, hr, hc⟩ fun t ⟨sofar, run, rest⟩ a _ => by
      have bytes := sendBytes_conveys
        (frameBytes t.cfg.frameLen (BitVec.ofNat 16 a) t.cfg.writeFlag (rowWords buf a)) run rest
      have hold := emit_conveys (e := .hold t.cfg.tRowUs) (sendBytes (frameBytes t.cfg.frameLen
        (BitVec.ofNat 16 a) t.cfg.writeFlag (rowWords buf a)) t) rfl [] fun _ => ⟨rfl, rfl⟩
      exact ⟨(sofar.trans bytes).trans hold, (sendRow_transmits buf t a).status.trans run, rfl⟩

/-! ### The flush conveys -/

/-- `t` has come from `s` by operations that convey, and the strobes rest again. -/
structure ConveysToRest (s t : State) : Prop where
  conveys : Conveys s t
  run : t.status = .run
  rest : StrobesRest t

theorem ConveysToRest.refl {s : State} (hr : s.status = .run) (hs : StrobesRest s) :
    ConveysToRest s s := ⟨.refl s, hr, hs⟩

theorem ConveysToRest.trans {s t u : State} (h : ConveysToRest s t) (g : ConveysToRest t u) :
    ConveysToRest s u := ⟨h.conveys.trans g.conveys, g.run, g.rest⟩

theorem ConveysToRest.cfg {s t : State} (h : ConveysToRest s t) : t.cfg = s.cfg := by
  obtain ⟨same, -⟩ := h.conveys.inStep
  exact same

/-- Changing the queue or a flag of it is no transmission. -/
theorem conveysToRest_of_queue {s : State} (hr : s.status = .run) (hs : StrobesRest s)
    (slot : List (PerClass (Option (Byte × Byte)))) (dirty : PerClass Bool) (changed : Bool) :
    ConveysToRest s { s with slot := slot, dirty := dirty, changed := changed } :=
  ⟨.of_same rfl rfl rfl rfl rfl rfl rfl, hr, hs⟩

theorem address_conveysToRest {k : Nat} {s : State} (hk : k < s.cfg.nchip) (hr : s.status = .run)
    (hs : StrobesRest s) : ConveysToRest s (address k s) :=
  ⟨address_conveys hk hr hs.1, (address_onlyTransmits k s).status.trans hr,
    strobePulses_rest _ hs⟩

theorem sendBytes_conveysToRest (bs : List Byte) {s : State} (hr : s.status = .run)
    (hs : StrobesRest s) : ConveysToRest s (sendBytes bs s) :=
  ⟨sendBytes_conveys bs hr hs.2, (sendBytes_onlyTransmits bs s).status.trans hr,
    sendBytes_rest bs hs⟩

theorem flushSlot_conveys (k : SlotClass) {s : State} {p : Nat} (hp : p < s.cfg.nchip)
    (hr : s.status = .run) (hs : StrobesRest s) : ConveysToRest s (flushSlot k s p) := by
  unfold flushSlot
  split
  · exact .refl hr hs
  · rename_i b0 b1 _
    have addressed := address_conveysToRest hp hr hs
    have sent : ConveysToRest s (sendCommand k.cmd b0 b1 (address p s)) :=
      addressed.trans (sendBytes_conveysToRest _ addressed.run addressed.rest)
    exact sent.trans (conveysToRest_of_queue sent.run sent.rest _ _ _)

theorem flushClass_conveys (k : SlotClass) {s : State} (hr : s.status = .run)
    (hs : StrobesRest s) : ConveysToRest s (flushClass s k) := by
  unfold flushClass
  split
  · have slots : ConveysToRest s ((List.range s.cfg.nchip).foldl (flushSlot k) s) :=
      List.foldlRecOn _ _ (.refl hr hs) fun t sofar p hp =>
        sofar.trans (flushSlot_conveys k (by rw [sofar.cfg]; exact List.mem_range.mp hp)
          sofar.run sofar.rest)
    exact slots.trans (conveysToRest_of_queue slots.run slots.rest _ _ _)
  · exact .refl hr hs

/-- The flush sends nothing that Level 1 does not show (R190, R205). -/
theorem flush_conveys {s : State} (hr : s.status = .run) (hs : StrobesRest s) :
    ConveysToRest s (flush s) := by
  unfold flush
  split
  · have classes : ConveysToRest s (SlotClass.all.foldl flushClass s) :=
      List.foldlRecOn _ _ (.refl hr hs) fun t sofar k _ =>
        sofar.trans (flushClass_conveys k sofar.run sofar.rest)
    exact classes.trans (conveysToRest_of_queue classes.run classes.rest _ _ _)
  · exact .refl hr hs

/-! ### The engine conveys -/

/-- Events that a reader passes on as they are. -/
theorem Reader.run_passedOn {f : Reader → Event → Reader × List Event} {es : List Event}
    (h : ∀ e ∈ es, ∀ r, f r e = (r, [e])) (r : Reader) : Reader.run f r es = (r, es) := by
  induction es with
  | nil => rfl
  | cons e es ih =>
    obtain ⟨first, rest⟩ := List.forall_mem_cons.mp h
    simp only [Reader.run, first, ih rest, List.singleton_append]

/-- What a TICK reports of a Channel is that it is done (10_state.md R37). -/
theorem playedEvents_done {s : State} {now : Time} {c : Nat} {x : Channel} {e : Event}
    (h : e ∈ playedEvents s now c x) : ∃ cause, e = .done c cause := by
  unfold playedEvents envEvents at h
  split at h <;> split at h
  · exact ⟨_, List.mem_singleton.mp h⟩
  · cases h
  · exact ⟨_, List.mem_singleton.mp h⟩
  · cases h

/-- Reports show alike at both levels. -/
theorem conveys_of_reports {s t : State} {es : List Event}
    (hd : ∀ e ∈ es, ∃ c cause, e = .done c cause) (hc : t.cfg = s.cfg)
    (h1 : t.trace = s.trace ++ es) (h2 : t.pinTrace = s.pinTrace ++ es)
    (h3 : t.sel = s.sel) (h4 : t.selShown = s.selShown) (h5 : t.pins = s.pins)
    (h6 : t.status = s.status) : Conveys s t := by
  have lines : t.linePins = s.linePins := by unfold State.linePins; rw [h5, h6]
  refine ⟨⟨hc, es, es, h1, h2, fun w q => ⟨w, es, ?_, ?_⟩⟩, es, h2, fun e m => ?_⟩
  · rw [h3, lines]
    refine Reader.run_passedOn (fun e m r => ?_) _
    obtain ⟨c, cause, rfl⟩ := hd e m
    rfl
  · rw [h4]
    refine Reader.run_passedOn (fun e m r => ?_) _
    obtain ⟨c, cause, rfl⟩ := hd e m
    rfl
  · obtain ⟨c, cause, rfl⟩ := hd e m
    rfl

/-- A TICK that answers reports, flushes and releases the lock (R140). -/
theorem execTick_conveys {s t : State} {now : Time} (hi : Inv s) (h : execTick now s = .next t) :
    Conveys s t := by
  by_cases free : s.status = .run ∧ s.lock = .free
  · obtain ⟨hr, hl⟩ := free
    rcases execTick_spec now hi hr hl with ⟨r, -, e⟩ | ⟨-, u, e, plays, -, shown, pinShown, -⟩
    · rw [e] at h; cases h
    · rw [e] at h
      cases h
      have played : Conveys s u := by
        refine conveys_of_reports (fun e m => ?_) plays.cfg shown pinShown plays.sel
          plays.selShown plays.pins plays.status
        obtain ⟨c, -, m⟩ := List.mem_flatMap.mp m
        exact ⟨c, playedEvents_done m⟩
      have rests : StrobesRest u := by
        unfold StrobesRest; rw [plays.pins]; exact hi.strobesRest hr
      exact (played.trans (flush_conveys (plays.status.trans hr) rests).conveys).trans
        (.of_same rfl rfl rfl rfl rfl rfl rfl)
  · rw [execTick_idle now free] at h
    cases h
    exact .refl _

/-! ### Every instruction conveys, or conveys and halts -/

/-- What an instruction that answers a next state has done to the two traces. -/
def ConveysOrHalts (s t : State) : Prop :=
  ∃ u, Conveys s u ∧ (t = u ∨ ∃ cause, t = haltWith cause u)

theorem Conveys.orHalts {s t : State} (h : Conveys s t) : ConveysOrHalts s t := ⟨t, h, .inl rfl⟩

/-- A host operation has its effect or none. -/
theorem hostRun_conveys {s t e : State} {d : Prop} [Decidable d] (h : hostRun s d e = .next t)
    (he : d → ConveysOrHalts s e) : ConveysOrHalts s t := by
  rcases hostRun_next h with ⟨-, hd, rfl⟩ | rfl
  · exact he hd
  · exact (Conveys.refl _).orHalts

theorem OnlyQueues.conveys {s t : State} (h : OnlyQueues s t) : Conveys s t :=
  .of_same h.cfg h.trace h.pinTrace h.sel h.selShown h.pins h.status

theorem setChan_conveys (c : Nat) (x : Channel) (s : State) : Conveys s (s.setChan c x) :=
  .of_same rfl rfl rfl rfl rfl rfl rfl

/-- A register write with the encoder of one track after it transmits nothing. -/
theorem updTrack_conveys (k : Track) (c : Nat) (x : Channel) (s : State) :
    Conveys s (updTrack k c (s.setChan c x)) :=
  (setChan_conveys c x s).trans (updTrack_onlyQueues k c _).conveys

theorem hostRun_updTrack_conveys {s t : State} {c : Nat} {x : Channel} (k : Track) {d : Prop}
    [Decidable d] (h : hostRun s d (updTrack k c (s.setChan c x)) = .next t) : ConveysOrHalts s t :=
  hostRun_conveys h fun _ => (updTrack_conveys k c x s).orHalts

/-- A host operation that writes only fields no reader follows. -/
theorem hostRun_same_conveys {s t e : State} {d : Prop} [Decidable d]
    (h : hostRun s d e = .next t) (hc : e.cfg = s.cfg) (h1 : e.trace = s.trace)
    (h2 : e.pinTrace = s.pinTrace) (h3 : e.sel = s.sel) (h4 : e.selShown = s.selShown)
    (h5 : e.pins = s.pins) (h6 : e.status = s.status) : ConveysOrHalts s t :=
  hostRun_conveys h fun _ => (Conveys.of_same hc h1 h2 h3 h4 h5 h6).orHalts

/-- A host operation that sends bytes. -/
theorem hostRun_sendBytes_conveys {s t : State} {bs : List Byte} {d : Prop} [Decidable d]
    (hr : s.status = .run) (hs : StrobesRest s) (h : hostRun s d (sendBytes bs s) = .next t) :
    ConveysOrHalts s t :=
  hostRun_conveys h fun _ => (sendBytes_conveys bs hr hs.2).orHalts

theorem execRel_conveys {s t : State} {c : Nat} (h : execRel c s = .next t) :
    ConveysOrHalts s t := by
  refine hostRun_conveys h fun _ => ?_
  split
  · exact (setChan_conveys c _ s).orHalts
  · exact (updTrack_conveys .volume c _ s).orHalts

/-- SYSRESET conveys its sequence and halts (R220). -/
theorem sysReset_conveys {s : State} (hi : Inv s) (hr : s.status = .run) :
    ConveysOrHalts s (haltWith .sysreset (emitWires s.cfg.resetSeq (broadcast s))) := by
  obtain ⟨⟨two, -⟩, -, -, -, -, -, -, -, -, kept, -⟩ := hi.cfgWf
  rw [← List.append_nil s.cfg.resetSeq] at kept
  exact ⟨_, (broadcast_emitWires_conveys (by omega) hr (hi.strobesRest hr) kept).1, .inr ⟨_, rfl⟩⟩

/-- REPROG conveys the entry sequence, the command, the rows and the status packet, and halts
(R221). -/
theorem reprogram_conveys (buf : WordBuf) (ext : List Extent) {s : State} (hi : Inv s)
    (hr : s.status = .run) : ConveysOrHalts s (reprogram buf ext s) := by
  obtain ⟨⟨two, -⟩, -, -, -, -, -, -, -, -, -, kept⟩ := hi.cfgWf
  obtain ⟨sequence, rest⟩ :=
    broadcast_emitWires_conveys (by omega) hr (hi.strobesRest hr) kept
  have run : (emitWires s.cfg.bootEntrySeq (broadcast s)).status = .run :=
    ((broadcast_transmits s).trans (emitWires_transmits _ _)).status.trans hr
  have low : (emitWires s.cfg.bootEntrySeq (broadcast s)).pins.clk = false := by
    simpa [keepsBroadcast] using rest
  unfold reprogram enterBootloader
  generalize emitWires s.cfg.bootEntrySeq (broadcast s) = u at *
  have command := sendBytes_conveys s.cfg.enterBootCmd run low
  have commandRun := (sendBytes_onlyTransmits s.cfg.enterBootCmd u).status.trans run
  have commandLow : (sendBytes s.cfg.enterBootCmd u).pins.clk = false := by
    rw [sendBytes_eq]; dsimp only; split
    · exact low
    · rfl
  obtain ⟨rows, rowsRun, rowsLow⟩ :=
    foldl_sendRow_conveys buf (sentRows s.cfg.protLimit ext) commandRun commandLow
  have last := sendBytes_conveys termBytes rowsRun rowsLow
  have packet := fun v : State => emit_conveys (e := statusEvent) v rfl [statusEvent]
    fun _ => ⟨rfl, rfl⟩
  exact ⟨_, (((sequence.trans command).trans rows).trans last).trans (packet _), .inr ⟨_, rfl⟩⟩

/-- What every instruction that answers a next state does to the two traces. -/
theorem exec_conveys {i : Instr} {s t : State} (hi : Inv s) (hr : s.status = .run)
    (h : exec i s = .next t) : ConveysOrHalts s t := by
  have hs : StrobesRest s := hi.strobesRest hr
  have hn : 0 < s.cfg.nchip := by obtain ⟨⟨two, -⟩, -⟩ := hi.cfgWf; omega
  cases i with
  | tick now => exact (execTick_conveys hi h).orHalts
  | setDual b =>
    rw [exec, execSetDual] at h
    split at h
    · cases h
    · exact hostRun_same_conveys h rfl rfl rfl rfl rfl rfl rfl
  | trig c n =>
    rw [exec, execTrig] at h
    split at h
    · cases h
    · exact hostRun_updTrack_conveys .duty h
  | rel c => exact execRel_conveys h
  | pload | clri | fade | setLink | setNote =>
    exact hostRun_same_conveys h rfl rfl rfl rfl rfl rfl rfl
  | setWave | setDuty => exact hostRun_updTrack_conveys .duty h
  | setFreq => exact hostRun_updTrack_conveys .frequency h
  | setAmp => exact hostRun_updTrack_conveys .volume h
  | setPan => exact hostRun_updTrack_conveys .pan h
  | setCut => exact hostRun_updTrack_conveys .cutoff h
  | setRes => exact hostRun_updTrack_conveys .resonance h
  | flush => exact hostRun_conveys h fun _ => (flush_conveys hr hs).conveys.orHalts
  | sysReset => exact hostRun_conveys h fun _ => sysReset_conveys hi hr
  | reprog buf ext => exact hostRun_conveys h fun _ => reprogram_conveys buf ext hi hr
  | wWave | wFreq | wVol | wAlpha | wBeta | wGamma | rowFrame | termFrame =>
    exact hostRun_sendBytes_conveys hr hs h
  | sendByte b => exact hostRun_sendBytes_conveys (bs := [b]) hr hs h
  | strobePulse d => exact hostRun_conveys h fun _ => (strobePulses_conveys [d] hr hs.1).orHalts
  | address k => exact hostRun_conveys h fun hk => (address_conveys hk hr hs.1).orHalts
  | broadcast => exact hostRun_conveys h fun _ => (broadcast_conveys hn hr hs.1).orHalts
  | statusPkt =>
    exact hostRun_conveys h fun _ =>
      (emit_conveys s rfl [statusEvent] fun _ => ⟨rfl, rfl⟩).orHalts

theorem ConveysOrHalts.inStep {s t : State} (h : ConveysOrHalts s t) : InStep s t := by
  obtain ⟨u, conveys, rfl | ⟨cause, rfl⟩⟩ := h
  · exact conveys.inStep
  · exact conveys.inStep.trans (haltWith_inStep cause u)

theorem ConveysOrHalts.delivers {s t : State} (h : ConveysOrHalts s t) (hr : s.status = .run) :
    Delivers s t := by
  obtain ⟨u, conveys, rfl | ⟨cause, rfl⟩⟩ := h
  · exact conveys.delivers hr
  · exact (conveys.delivers hr).haltWith cause

/-- The restart finds the pins as a reader of the `Halt` left them, and a failed board check is a
`Halt` at both levels (60_exceptions.md R247, R271). -/
theorem watchdogRestart_inStep {s : State} (hh : s.status = .halt) :
    InStep s (watchdogRestart s) := by
  have low : s.linePins = Pins.low := by simp [State.linePins, hh]
  cases board : s.cfg.boardRevOk with
  | true =>
    refine .of_same rfl ?_ ?_ rfl rfl ?_
    · exact if_pos board
    · exact if_pos board
    · rw [low]; exact ite_self _
  | false =>
    have failed : s.cfg.boardRevOk ≠ true := by simp [board]
    refine ⟨rfl, [.halt .boardRev], [.halt .boardRev], if_neg failed, if_neg failed, fun w q =>
      ⟨w, [.halt .boardRev], ?_, rfl⟩⟩
    have restarted : (watchdogRestart s).linePins = Pins.low := ite_self _
    rw [restarted]
    rfl

/-- Settles O44: the restart, the scheduler's moves and every instruction keep the readers of the
two levels in step, and what reads the same delivers the same (`Conveys.delivers`). -/
theorem bothLevelsDeliverTheSame : Obligations.BothLevelsDeliverTheSame := by
  refine ⟨fun s t hi agree h => InStep.levelsAgree ?_ agree, fun i s t hi hr h =>
    (exec_conveys hi hr h).delivers hr⟩
  rcases step_next h with ⟨rfl, halted⟩ | ⟨-, lock, batch, agenda, rfl, -⟩ |
    ⟨hr, i, batch, agenda, ran⟩
  · exact watchdogRestart_inStep halted
  · exact .of_same rfl rfl rfl rfl rfl rfl
  · have scheduled : InStep s { s with batch := batch, agenda := agenda } :=
      .of_same rfl rfl rfl rfl rfl rfl
    have inv : Inv { s with batch := batch, agenda := agenda } :=
      hi.of_same rfl rfl rfl rfl rfl rfl rfl rfl hi.lockNotEngine
    exact scheduled.trans (exec_conveys inv hr ran).inStep

end Sys2Proof.Machine

/-! PROOFS. The flush, the transport primitives and the wire commands, each read off the equation of
its operation (`flush_spec`, `address_eq`, `broadcast_eq`, `sendBytes_eq`), and the time one command
takes (43_flush_and_transport.md R190 to R203). -/

namespace Sys2Proof.Machine

open Host (Outcome)

/-! ### The flush empties the queue -/

/-- A flush of a queue without changes does nothing (R190). -/
theorem flush_unchanged {s : State} (h : s.changed = false) : flush s = s :=
  if_neg (by simp [h])

/-- Settles O33, by `flush_spec`: what was pending is sent, and a second FLUSH finds `changed`
low. -/
theorem flushSendsEveryPendingSlot : Obligations.FlushSendsEveryPendingSlot := by
  intro s hi hh
  have frame := flush_onlyFlushes s hi.slotCount
  obtain ⟨sent, slots, dirty, changed, -⟩ := flush_spec hi.queueOk
  have again : exec .flush (flush s) = .next (flush s) :=
    (hostRun_run _ ⟨frame.status.trans hh.1, frame.lock.trans hh.2⟩ trivial).trans
      (congrArg Outcome.next (flush_unchanged changed))
  exact ⟨flush s, hostRun_run _ hh trivial, sent, slots, dirty, changed, frame.cfg, frame.ch,
    frame.patch, frame.lock, frame.dual, frame.now, frame.nextTick, frame.status, frame.batch,
    frame.agenda, again⟩

/-! ### The transport primitives -/

/-- The pin events of `Address(k)`: pulses of 0, one of 1, pulses of 0 (R199). -/
theorem addressBits_strobeEvents (g : Cfg) (n k : Nat) :
    (addressBits n k).flatMap (strobeEvents g) =
      (List.replicate (n - 1 - k) (strobeEvents g false)).flatten ++ strobeEvents g true ++
        (List.replicate k (strobeEvents g false)).flatten := by
  simp [addressBits, List.flatMap_replicate]

/-- Settles O38, by the equation of `Address(k)` (`address_eq`). -/
theorem addressSelectsOneChip : Obligations.AddressSelectsOneChip := by
  intro s k hh hk
  refine ⟨address k s, hostRun_run _ hh hk, address_onlyTransmits k s, ?_⟩
  rw [address_eq hk, ← addressBits_strobeEvents]
  exact ⟨rfl, rfl, rfl, rfl, rfl⟩

/-- Settles O39, by the equation of `Broadcast()` (`broadcast_eq`). -/
theorem broadcastSelectsEveryChip : Obligations.BroadcastSelectsEveryChip := by
  intro s wf hh
  obtain ⟨⟨two, -⟩, -⟩ := wf
  refine ⟨broadcast s, hostRun_run _ hh trivial, broadcast_onlyTransmits s, ?_⟩
  rw [broadcast_eq (by omega), List.flatMap_replicate]
  exact ⟨rfl, rfl, rfl, rfl, rfl⟩

/-- The chain after one shift, in the words of R198. -/
theorem shiftChain_eq_or (n sel : Nat) (d : Bool) :
    shiftChain n sel d = (sel <<< 1 ||| d.toNat) % 2 ^ n := by
  rw [← Nat.shiftLeft_add_eq_or_of_lt (by cases d <;> decide), Nat.shiftLeft_eq]
  rfl

/-- Settles O37: the pulse as the model writes it, the shift by `shiftChain_eq_or`. -/
theorem strobePulseShiftsTheChain : Obligations.StrobePulseShiftsTheChain := fun s d hh =>
  ⟨strobePulse d s, hostRun_run _ hh trivial, (strobePulse_transmits d s).toOnlyTransmits, rfl, rfl,
    shiftChain_eq_or _ _ _, rfl, rfl⟩

/-- Settles O36: the byte as the model writes it. -/
theorem sendByteClocksOneByte : Obligations.SendByteClocksOneByte := fun s b hh =>
  ⟨sendByte b s, hostRun_run _ hh trivial, (sendByte_transmits b s).toOnlyTransmits, rfl,
    (List.append_assoc ..).symm, rfl, rfl, rfl⟩

/-! ### Wire commands -/

/-- The bytes of a wire command as Level 1 shows them (R196). -/
theorem wireBytes_events (g : Cfg) (k : CmdClass) (low : BitVec 6) (data : Byte) :
    (wireBytes g.layout k low data).map Event.byte =
      commandEvents g k (firstByte g k low) data := by
  unfold wireBytes commandEvents
  split <;> rfl

/-- A wire command that HOST sends: its bytes go to the chips selected now, after the `Select` that
a changed chain asks for (R196, R205). -/
theorem hostRun_wireCommand {s : State} {domain : Prop} [Decidable domain] (h : HostHolds s)
    (hd : domain) (k : CmdClass) (low : BitVec 6) (data : Byte) :
    ∃ t, hostRun s domain (sendBytes (wireBytes s.cfg.layout k low data) s) = .next t ∧
      OnlyTransmits s t ∧ t.sel = s.sel ∧ ∃ b0 : Byte,
      b0.toNat = 64 * (s.cfg.layout.cls.get k).toNat + low.toNat ∧
      t.trace = s.trace ++ s.unshown ++ commandEvents s.cfg k b0 data := by
  have nonempty : wireBytes s.cfg.layout k low data ≠ [] := by
    rw [wireBytes_eq]; exact List.cons_ne_nil _ _
  refine ⟨_, hostRun_run _ h hd, sendBytes_onlyTransmits _ s, by rw [sendBytes_eq],
    firstByte s.cfg k low, firstByte_toNat _ _ _, ?_⟩
  simp only [sendBytes_eq, if_neg nonempty, wireBytes_events]

/-- The beta byte: the magnitude in bits 7:2, the flags by the layout's masks (R88). -/
theorem betaByte_eq (l : Layout) (m : BitVec 6) (sign sat : Bool) :
    betaByte l m sign sat =
      BitVec.ofNat 8 (4 * m.toNat) ||| (if sign then l.betaSignBit else 0) |||
        (if sat then l.betaSatBit else 0) := by
  have field := magnitudeField_eq m.toNat
  rw [BitVec.ofNat_toNat, BitVec.setWidth_eq, Nat.mod_eq_of_lt m.isLt] at field
  rw [betaByte, field]

/-- Settles O35: each of the six is `hostRun_wireCommand` with its class and its six low bits. -/
theorem wireCommandsGoToTheSelectedChips : Obligations.WireCommandsGoToTheSelectedChips := by
  intro s hh
  refine ⟨fun code d reserved => ?_, fun code d known => hostRun_wireCommand hh known .wave code d,
    fun f => ?_, fun v => hostRun_wireCommand hh trivial .vol v 0,
    fun a => hostRun_wireCommand hh trivial .param s.cfg.layout.pselAlpha a, fun m sg st => ?_,
    fun v => hostRun_wireCommand hh trivial .param s.cfg.layout.pselGamma v⟩
  · exact hostRun_ignored _ fun ⟨_, known⟩ => by rw [reserved] at known; cases known
  · obtain ⟨t, runs, frame, sel, b0, first, shown⟩ := hostRun_wireCommand hh trivial .freq
      (f.extractLsb' 8 6) (f.extractLsb' 0 8)
    rw [freqHigh_toNat] at first
    exact ⟨t, runs, frame, sel, b0, _, first, freqLow_toNat f, shown⟩
  · obtain ⟨t, runs, frame, sel, b0, first, shown⟩ := hostRun_wireCommand hh trivial .param
      s.cfg.layout.pselBeta (betaByte s.cfg.layout m sg st)
    exact ⟨t, runs, frame, sel, b0, _, first, betaByte_eq _ m sg st, shown⟩

/-! ### The time a command takes -/

theorem holdTime_append (es fs : List Event) :
    holdTime (es ++ fs) = holdTime es + holdTime fs := by
  induction es with
  | nil => exact (Nat.zero_add _).symm
  | cons e es ih =>
    cases e with
    | hold n => exact (congrArg (n + ·) ih).trans (Nat.add_assoc ..).symm
    | select | byte | pin | data | done | midiOut | halt => exact ih

/-- Runs of events that each hold for the same time (R203). -/
theorem holdTime_flatMap {α : Type} {f : α → List Event} {us : Nat} (h : ∀ a, holdTime (f a) = us)
    (as : List α) : holdTime (as.flatMap f) = as.length * us := by
  induction as with
  | nil => exact (Nat.zero_mul _).symm
  | cons a as ih => rw [List.flatMap_cons, holdTime_append, h, ih, List.length_cons]; ring

theorem holdTime_strobeEvents (g : Cfg) (d : Bool) :
    holdTime (strobeEvents g d) = g.tSsu + g.tStbh + g.tStbl := by
  simp only [strobeEvents, holdTime]; omega

theorem holdTime_byteEvents (g : Cfg) (b : Byte) :
    holdTime (byteEvents g b) = g.tDsu + g.tClkh + g.tClkl := by
  simp only [byteEvents, holdTime]; omega

/-- `Address(k)` is NCHIP pulses (R199). -/
theorem addressBits_length {n k : Nat} (h : k < n) : (addressBits n k).length = n := by
  simp only [addressBits, List.length_append, List.length_cons, List.length_replicate]; omega

/-- Settles O45: the addressing holds once per pulse, the command once per byte. -/
theorem commandHoldTime : Obligations.CommandHoldTime := by
  intro s p k b0 b1 hp
  refine ⟨(addressBits s.cfg.nchip p).flatMap (strobeEvents s.cfg) ++
    (if s.cfg.layout.hasData.get k then [b0, b1] else [b0]).flatMap (byteEvents s.cfg), ?_, ?_⟩
  · simp only [sendCommand, sendBytes_eq, address_eq hp, List.append_assoc]
  · rw [holdTime_append, holdTime_flatMap (holdTime_strobeEvents s.cfg),
      holdTime_flatMap (holdTime_byteEvents s.cfg), addressBits_length hp]
    split <;> rfl

end Sys2Proof.Machine

/-! PROOFS. The two sequences that end in HALT and the rows that REPROG sends
(44_system_sequences.md R220 to R231): what is sent is `sysReset_spec` and `reprogram_spec`, and which
rows are sent follows from the row starts of one extent. -/

namespace Sys2Proof.Machine

/-! ### The sequences -/

/-- What a host operation that halts leaves: HALT, HOST's lock, and nothing else changed but what
transmitting changes (R220, R230). -/
theorem OnlyHalts.of_hostHolds {s t : State} (h : OnlyHalts s t) (hh : HostHolds s) :
    t.status = .halt ∧ t.lock = .host ∧ OnlyTransmits s { t with status := .run } :=
  ⟨h.status, h.rest.lock.trans hh.2, hh.1 ▸ h.rest⟩

/-- A sequence of HOST starts on a board with chips, CLK low. -/
theorem Inv.sequence_start {s : State} (hi : Inv s) (hh : HostHolds s) :
    0 < s.cfg.nchip ∧ s.pins.clk = false := by
  obtain ⟨⟨two, -⟩, -⟩ := hi.cfgWf
  exact ⟨by omega, (hi.strobesRest hh.1).2⟩

/-- Settles O41, by `sysReset_spec`: CLK is low in RUN, and the constraints on the configuration keep
every chip selected. -/
theorem sysResetBroadcastsAndHalts : Obligations.SysResetBroadcastsAndHalts := by
  intro s hi hh
  obtain ⟨chips, low⟩ := hi.sequence_start hh
  obtain ⟨-, -, -, -, -, -, -, -, -, kept, -⟩ := hi.cfgWf
  obtain ⟨halts, sel, shown⟩ := sysReset_spec chips (low.symm ▸ kept)
  obtain ⟨halted, locked, frame⟩ := halts.of_hostHolds hh
  exact ⟨_, hostRun_run _ hh trivial, halted, locked, sel, low ▸ shown, frame⟩

theorem byteCount_map_byte (bs : List Byte) : byteCount (bs.map Event.byte) = bs.length :=
  List.countP_map.trans (congrFun List.countP_true bs)

theorem frameBytes_length (len : Byte) (addr : Word16) (flag : Byte) (ws : List Word16) :
    (frameBytes len addr flag ws).length = 2 * ws.length + 4 := by
  simp only [frameBytes, List.length_cons, wordBytes_length]

theorem rowWords_length (buf : WordBuf) (a : Nat) : (rowWords buf a).length = 16 := by
  rw [rowWords, List.length_map, List.length_range]

/-- A row is sent as 36 bytes, four of head and two for each of its 16 words; the hold after them
is no byte (R226, R227). -/
theorem byteCount_rowEvents (g : Cfg) (buf : WordBuf) (a : Nat) :
    byteCount (rowEvents g buf a) = 36 :=
  calc byteCount (rowEvents g buf a)
    _ = byteCount ((frameBytes g.frameLen (BitVec.ofNat 16 a) g.writeFlag
          (rowWords buf a)).map Event.byte) := List.countP_append
    _ = 36 := by rw [byteCount_map_byte, frameBytes_length, rowWords_length]

/-- Settles O42, by `reprogram_spec`: the extents are in their domain, or the gate is closed. -/
theorem reprogSendsTheRowsAndHalts : Obligations.ReprogSendsTheRowsAndHalts := by
  refine ⟨fun s buf ext hi hh few valid => ?_, fun s buf ext bad => ?_⟩
  · obtain ⟨chips, low⟩ := hi.sequence_start hh
    obtain ⟨-, -, -, -, -, -, -, -, -, -, kept⟩ := hi.cfgWf
    obtain ⟨halts, sel, shown⟩ :=
      reprogram_spec buf ext chips (low.symm ▸ keepsBroadcast_append kept)
    obtain ⟨halted, locked, frame⟩ := halts.of_hostHolds hh
    exact ⟨_, hostRun_run _ hh ⟨few, valid⟩, halted, locked, sel, low ▸ shown,
      byteCount_rowEvents s.cfg buf, frame⟩
  · refine hostRun_ignored _ fun ⟨_, few, valid⟩ => ?_
    obtain many | ⟨e, he, invalid⟩ := bad
    · omega
    · exact invalid (valid e he)

/-! ### The rows -/

/-- The row starts of an extent are the multiples of 16 inside it (R224). -/
theorem mem_rowStarts {e : Extent} (he : Extent.valid e) (a : Nat) :
    a ∈ rowStarts e ↔ a % 16 = 0 ∧ e.1 ≤ a ∧ a < e.2 := by
  obtain ⟨-, -, start, stop⟩ := he
  simp only [rowStarts, List.mem_map, List.mem_range]
  constructor
  · rintro ⟨j, hj, rfl⟩
    omega
  · intro _
    exact ⟨(a - e.1) / 16, by omega, by omega⟩

theorem rowStarts_sortedLT (e : Extent) : (rowStarts e).SortedLT :=
  (List.pairwise_lt_range.map _ fun _ _ _ => by omega).sortedLT

/-- The rows of one extent that are not protected, as a filter of the addresses below its end: both
lists are strictly ascending and hold the same addresses (R224, R225). -/
theorem rowStarts_filter_eq {e : Extent} (he : Extent.valid e) (limit : Nat) :
    (rowStarts e).filter (fun a => decide (limit ≤ a)) =
      (List.range e.2).filter fun a => decide (e.1 ≤ a ∧ a % 16 = 0 ∧ limit ≤ a) := by
  refine ((rowStarts_sortedLT e).pairwise.filter _).sortedLT.eq_of_mem_iff
    (List.pairwise_lt_range.filter _).sortedLT fun a => ?_
  simp only [List.mem_filter, mem_rowStarts he, List.mem_range, decide_eq_true_eq]
  tauto

/-- Settles O43: the filter of `sentRows` acts on each extent by itself. -/
theorem reprogNeverSendsAProtectedRow : Obligations.ReprogNeverSendsAProtectedRow := by
  intro limit ext valid
  refine ⟨?_, fun a => ?_⟩
  · rw [sentRows, List.filter_flatMap]
    exact List.flatMap_congr fun e he => rowStarts_filter_eq (valid e he) limit
  · simp only [sentRows, List.mem_filter, List.mem_flatMap, decide_eq_true_eq]
    constructor
    · rintro ⟨⟨e, he, row⟩, above⟩
      obtain ⟨multiple, inside⟩ := (mem_rowStarts (valid e he) a).mp row
      exact ⟨above, multiple, e, he, inside⟩
    · rintro ⟨above, multiple, e, he, inside⟩
      exact ⟨⟨e, he, (mem_rowStarts (valid e he) a).mpr ⟨multiple, inside⟩⟩, above⟩

end Sys2Proof.Machine

/-! PROOFS. Whose turn it is (60_exceptions.md R246 to R250): the watchdog in HALT, the instruction of a
taken packet, and the taking and giving of the lock. The plan: one equation of `step` per turn, as in
`step_hostPacket` and `step_enginePacket`; then what the restart leaves, and where the engine's sleep
changes the instruction that runs. -/

namespace Sys2Proof.Machine

/-! ### The restart -/

/-- In HALT only the watchdog moves, whoever holds the lock (R246, R247). -/
theorem step_of_halt {s : State} (h : s.status = .halt) : step s = .next (watchdogRestart s) := by
  simp only [step, takeTurn, h]

/-- A trace after the board check of R271: what the check adds does not depend on what came before. -/
theorem boardCheck_append (ok : Bool) (es : List Event) :
    (if ok then es else es ++ [.halt .boardRev]) =
      es ++ if ok then [] else [.halt .boardRev] := by
  cases ok with
  | true => exact (List.append_nil es).symm
  | false => rfl

/-- The restart is a power-on, after which the traces go on and what lies outside the block is kept
(R247, R270; logs 17, 18, 29). -/
theorem watchdogRestart_eq_boot (s : State) :
    watchdogRestart s = { State.boot s.cfg with
      now := s.now, nextTick := s.now, sel := s.sel, selShown := s.selShown, agenda := s.agenda
      trace := s.trace ++ (State.boot s.cfg).trace
      pinTrace := s.pinTrace ++ (State.boot s.cfg).pinTrace } := by
  simp only [watchdogRestart, State.boot, State.resetWith, boardCheck_append, List.nil_append]

/-- Settles O3: the watchdog has the turn, and its restart is a power-on but for what R247 keeps
(`watchdogRestart_eq_boot`). -/
theorem watchdogRestartsFromHalt : Obligations.WatchdogRestartsFromHalt := by
  intro s halted
  refine ⟨_, step_of_halt halted, ?_⟩
  rw [watchdogRestart_eq_boot]
  exact ⟨rfl, rfl, rfl, rfl, rfl, rfl, rfl, rfl, rfl, rfl, rfl, rfl, rfl, rfl, rfl, rfl, rfl, rfl⟩

/-! ### The instruction of a taken packet -/

theorem started_of_not_tick {s : State} {i : Instr} (h : ∀ now, i ≠ .tick now) : started s i = i := by
  cases i with
  | tick now => exact absurd rfl (h now)
  | _ => rfl

/-- While the lock is taken it does not matter when a TICK would begin, since it has no effect
(R249; log 22). -/
theorem exec_started_of_locked {s : State} (h : s.lock ≠ .free) (i : Instr) :
    exec (started s i) s = exec i s := by
  obtain ⟨-, -, tickWaits⟩ := nothingRunsWithoutRunAndLock
  cases i with
  | tick now => exact (tickWaits (startTime s now) s h).trans (tickWaits now s h).symm
  | _ => rfl

/-- The step that takes a host packet which decodes runs its instruction (R249, R92). -/
theorem step_hostInstruction {s : State} {p : Packet} {rest : List Packet} {i : Instr}
    (hrun : s.status = .run) (hlock : s.lock = .host) (hbatch : s.batch = p :: rest)
    (hi : decode s.cfg p = .ok i) : step s = exec i { s with batch := rest } := by
  have locked : ({ s with batch := rest } : State).lock ≠ .free := by simp [hlock]
  calc step s = runFetched (fetchPacket { s with batch := rest } p) { s with batch := rest } :=
        step_hostPacket hrun hlock hbatch
    _ = exec (started { s with batch := rest } i) { s with batch := rest } := runFetched_decoded hi
    _ = exec i { s with batch := rest } := exec_started_of_locked locked i

/-- The step that takes an engine packet which decodes runs its instruction, a TICK at the end of the
engine's sleep where that is later (R249, R152). -/
theorem step_engineInstruction {s : State} {p : Packet} {rest : List Section} {i : Instr}
    (hrun : s.status = .run) (hlock : s.lock = .free) (hagenda : s.agenda = .engine p :: rest)
    (hi : decode s.cfg p = .ok i) :
    step s = exec (started { s with agenda := rest } i) { s with agenda := rest } :=
  (step_enginePacket hrun hlock hagenda).trans (runFetched_decoded hi)

/-- Settles O5: a taken packet runs what it decodes to, and only a TICK that finds the lock free sees
the engine's sleep. -/
theorem stepRunsDecodedInstruction : Obligations.StepRunsDecodedInstruction := by
  refine ⟨fun _ _ _ _ => step_hostInstruction,
    fun s p rest i hrun hlock hagenda hi notTick => ?_,
    fun _ _ _ _ => step_engineInstruction⟩
  rw [step_engineInstruction hrun hlock hagenda hi, started_of_not_tick notTick]

/-! ### The lock -/

/-- The step that takes the free lock for the host section next on the agenda (R249, R250). -/
theorem step_hostSection {s : State} {ops : List Packet} {rest : List Section}
    (hrun : s.status = .run) (hlock : s.lock = .free) (hagenda : s.agenda = .host ops :: rest) :
    step s = .next { s with lock := .host, batch := ops, agenda := rest } := by
  simp only [step, takeTurn, hrun, hlock, hagenda]

/-- The step that ends a host section no packet of which is left (R249). -/
theorem step_hostRelease {s : State} (hrun : s.status = .run) (hlock : s.lock = .host)
    (hbatch : s.batch = []) : step s = .next { s with lock := .free } := by
  simp only [step, takeTurn, hrun, hlock, hbatch]

/-- Settles O7: the two turns that move the lock and run no operation. -/
theorem criticalSectionsTakeAndGiveTheLock : Obligations.CriticalSectionsTakeAndGiveTheLock :=
  ⟨fun _ _ _ => step_hostSection, fun _ => step_hostRelease⟩

end Sys2Proof.Machine
